-- ==== Sys2Proof/Word.lean ====
section
/-! DEFINITION. The word types of the core (00_scope.md R8, R14). -/

namespace Sys2Proof

/-- A register, a bus data word, a sample word: 32 bits (R8: `W = 32`). -/
abbrev Word := BitVec 32

/-- A binary64 encoding, held by the core in a LO/HI pair of registers (R14). -/
abbrev DWord := BitVec 64

/-- A byte of the sample window as the model stores it. -/
abbrev Byte := BitVec 8

end Sys2Proof
end

