-- ==== Sys2Proof/Config.lean ====
section
/-! DEFINITION. What an implementation fixes (00_scope.md R8 to R13) and the free values the spec leaves open.
Nothing here has a body that a proof could lean on. -/

namespace Sys2Proof.Config

/-- The two legal values of MAX_LEVELS (R11). -/
inductive LevelsDepth where
  | levels32
  | levels128
deriving DecidableEq, Repr, Inhabited

/-- The open parameters BUF_WORDS, RUN_CAP and MAX_LEVELS. Every value of this type is a legal choice of the three,
and every legal choice is a value of it (R9, R10, R11): BUF_WORDS is held less one, below `2^27 - 1`, and RUN_CAP
less one. -/
structure Params where
  bufWordsLessOne : Fin 134217727
  runCapLessOne : Nat
  depth : LevelsDepth
deriving DecidableEq, Repr, Inhabited

/-- BUF_WORDS, the sample-buffer capacity in words, `1 <= BUF_WORDS <= 2^27 - 1` (R9). -/
def Params.bufWords (p : Params) : Nat := p.bufWordsLessOne.val + 1

/-- RUN_CAP, the capacity of the run memory, `1 <= RUN_CAP` (R10). -/
def Params.runCap (p : Params) : Nat := p.runCapLessOne + 1

/-- MAX_LEVELS, the capacity of the reduced waveform, 32 or 128 (R11). -/
def Params.maxLevels (p : Params) : Nat :=
  match p.depth with
  | .levels32 => 32
  | .levels128 => 128

/-- The parameters of the core that `State.reset` describes: open (R9 to R11), so an opaque constant.
DESIGN CHOICE that State carries them (log 7). -/
opaque params : Params

/-- REG_BASE, where the platform puts offset 0 of the core (R13): open. Every address of the model is an offset from
it, so no step reads it. -/
opaque regBase : Nat

/-- The bus address at which the host reaches an offset of the core (R13). -/
def busAddress (offset : Word) : Nat := regBase + offset.toNat

/-- What PARAM_RUN_CAP reads for a RUN_CAP of `2^32` or more, which no 32-bit register can report (10_state.md R54): a
free value of RUN_CAP (log 7). -/
opaque wideRunCap : Nat → Word

/-- FIRST_N, the number of leading words SCAN copies (R12). -/
def firstN : Nat := 10

/-- The free value an unwritten sample word reads as (70_reset_and_hazards.md R452): `unspecifiedWord k i` is word `i`
in draw `k`. Draws differ in `k` and words in `i`, so each is an independent arbitrary value (log 5). -/
opaque unspecifiedWord : Nat → Nat → Word

end Sys2Proof.Config
end

