-- ==== Sys2Proof/Syntax.lean ====
section
/-! DEFINITION. The command set, one constructor per row of spec/opcode_table.json. -/

namespace Sys2Proof

/-- The six commands (30_encoding.md R181). No command names an operand: each takes its operands from fixed
registers (R180, R183), so no constructor has an argument. -/
inductive Instr where
  /-- PROBE: the activity detector (R210). -/
  | probe
  /-- SCAN: the transition counter and pulse-width accumulator (R220). -/
  | scan
  /-- DERIVE: the metrics of the last successful SCAN (R250). -/
  | derive
  /-- REDUCE: run-length encoding with spike merging (R300). -/
  | reduce
  /-- SAMPLE: one logical sample (R200). -/
  | sample
  /-- CLEAR: every result back to its reset value (R366). -/
  | clear
deriving DecidableEq, Repr

end Sys2Proof
end

