-- ==== Sys2Proof/Machine/State.lean ====
section
/-! DEFINITION. The state of the core: everything 10_state.md gives the machine (R50), as plain data, with its reset
values (70_reset_and_hazards.md R450). -/

namespace Sys2Proof.Machine

/-- STATUS.ERRCODE (60_exceptions.md R401). Codes 8 to 15 are never produced (R64), so they have no constructor. -/
inductive ErrCode where
  /-- 0, OK: the command succeeded. -/
  | ok
  /-- 1, EMPTY_BUFFER: latched WORD_COUNT is 0. -/
  | emptyBuffer
  /-- 2, BUFFER_TOO_SMALL: SAMPLE_INDEX is at or past the last analyzed sample. -/
  | bufferTooSmall
  /-- 3, WORD_COUNT_RANGE: latched WORD_COUNT exceeds BUF_WORDS. -/
  | wordCountRange
  /-- 4, NO_SCAN: SCAN_VALID was 0 at acceptance. -/
  | noScan
  /-- 5, BAD_RATE: the rate is used and is not finite and positive. -/
  | badRate
  /-- 6, RUN_OVERFLOW: the run build gives more than RUN_CAP runs. -/
  | runOverflow
  /-- 7, BAD_OPCODE: the command word is reserved. -/
  | badOpcode
deriving DecidableEq, Repr

/-- A level code of the levels memory (R120). -/
inductive Level where
  | zero
  | one
  /-- The marker of R307, a rendering hint. -/
  | indeterminate
  /-- No entry. -/
  | empty
deriving DecidableEq, Repr

/-- SIGNAL_TYPE (R86). -/
inductive SignalType where
  | unknown
  | constant
  | perfectSquare
  | periodic
deriving DecidableEq, Repr

/-- An entry of the run memory: a level and a 32-bit length (R131). -/
structure RunEntry where
  level : Bool
  length : Word
deriving DecidableEq, Repr

/-- The STATUS fields that are held as state (R58). BUSY is the view of the phase (R59), and the reserved bits hold
nothing (R67). -/
structure Status where
  done : Bool
  err : Bool
  werr : Bool
  aerr : Bool
  errCode : ErrCode
  lastOp : BitVec 4
  probeValid : Bool
  scanValid : Bool
  deriveValid : Bool
  reduceValid : Bool
  sampleValid : Bool
deriving DecidableEq, Repr

/-- The SCAN group (R73 to R80). -/
structure ScanGroup where
  highCount : Word
  transitions : Word
  pulseWidth0 : Word
  pulseWidth1 : Word
  pulseCount0 : Word
  pulseCount1 : Word
  totalSamples : Word
  scanWords : Word
  firstCount : Word
  firstWords : Vector Word 10
deriving DecidableEq, Repr

/-- The PROBE group (R81): PROBE_RESULT.ACTIVE and PROBE_INDEX. -/
structure ProbeGroup where
  active : Bool
  index : Word
deriving DecidableEq, Repr

/-- The DERIVE group (R84 to R88), each register its encoding. -/
structure DeriveGroup where
  dutyCycle : Word
  avgHighPulse : Word
  avgLowPulse : Word
  signalType : SignalType
  durationLo : Word
  durationHi : Word
  freqLo : Word
  freqHi : Word
deriving DecidableEq, Repr

/-- The REDUCE group (R89 to R94). -/
structure ReduceGroup where
  threshold : Word
  runsBuilt : Word
  runsLeft : Word
  merges : Word
  levelCount : Word
  markers : Word
deriving DecidableEq, Repr

/-- The reset values of the SCAN group: all 0 (10_state.md section 2). -/
def ScanGroup.zero : ScanGroup :=
  { highCount := 0, transitions := 0, pulseWidth0 := 0, pulseWidth1 := 0, pulseCount0 := 0, pulseCount1 := 0,
    totalSamples := 0, scanWords := 0, firstCount := 0, firstWords := #v[0, 0, 0, 0, 0, 0, 0, 0, 0, 0] }

/-- The reset values of the PROBE group. -/
def ProbeGroup.zero : ProbeGroup := { active := false, index := 0 }

/-- The reset values of the DERIVE group: +0.0 and Unknown are all-zero encodings. -/
def DeriveGroup.zero : DeriveGroup :=
  { dutyCycle := 0, avgHighPulse := 0, avgLowPulse := 0, signalType := .unknown, durationLo := 0, durationHi := 0,
    freqLo := 0, freqHi := 0 }

/-- The reset values of the REDUCE group. -/
def ReduceGroup.zero : ReduceGroup :=
  { threshold := 0, runsBuilt := 0, runsLeft := 0, merges := 0, levelCount := 0, markers := 0 }

/-- The latched operands of the command in flight (R130, 43_control.md R361). `word` is the whole accepted command
word, of which R130 names the opcode: R182 needs its other bits too (log 10). -/
structure Latched where
  word : Word
  wordCount : Word
  sampleIndex : Word
  rate : DWord
  markEn : Bool
  markHint : Word
  scanValid : Bool
  scan : ScanGroup
deriving DecidableEq, Repr

/-- The engine phase (R130), BUSY with the operands of the command in flight. -/
inductive Phase where
  | idle
  | busy (op : Latched)
deriving DecidableEq, Repr

/-- The staged results of a successful command (R130, R364): one result group, or CLEAR's reset of all of them. -/
inductive Staged where
  | probe (g : ProbeGroup)
  | scan (g : ScanGroup)
  | derive (g : DeriveGroup)
  /-- `entries` are the level entries written from LEVEL[0] up, `runs` what the run memory holds at the end. -/
  | reduce (g : ReduceGroup) (entries : List Level) (runs : List RunEntry)
  | sample (bit : Bool)
  | clear
deriving DecidableEq, Repr

/-- The width of a host access (20_memory.md R150, R151). -/
inductive Width where
  | w8
  | w16
  | w32
  | w64
deriving DecidableEq, Repr

/-- A host access at a byte offset from REG_BASE (R145). The data of a write that is not 32 bits wide is never used:
R151 refuses it. -/
inductive Access where
  | read (width : Width) (offset : Word)
  | write (width : Width) (offset : Word) (data : Word)
deriving DecidableEq, Repr

/-- One event of R161's totally ordered sequence, or a change of the reset line (R450). DESIGN CHOICE (logs 1, 2, 12). -/
inductive Event where
  /-- The host performs an access. -/
  | access (a : Access)
  /-- The engine's turn: a command in flight completes. -/
  | engine
  /-- The reset line `rst` is asserted or released. -/
  | reset (asserted : Bool)
deriving DecidableEq, Repr

/-- The stored bytes of the sample window, by offset from REG_BASE, in one canonical form: addresses strictly rising.
An address not listed holds an unspecified byte (R452), so there is no byte an entry could equal. -/
abbrev Memory := List Host.Cell

/-- The state of the core. -/
structure State where
  /-- The parameters; fixed, not state of the core (R50, log 7). -/
  params : Config.Params
  /-- CTRL.MARK_EN (R56). -/
  markEn : Bool
  /-- CTRL.IE (R56). -/
  ie : Bool
  status : Status
  /-- WORD_COUNT (R69). -/
  wordCount : Word
  /-- SAMPLE_RATE_LO (R70). -/
  sampleRateLo : Word
  /-- SAMPLE_RATE_HI (R70). -/
  sampleRateHi : Word
  /-- MARK_HINT (R71). -/
  markHint : Word
  /-- SAMPLE_INDEX (R72). -/
  sampleIndex : Word
  scan : ScanGroup
  probe : ProbeGroup
  /-- SAMPLE_RESULT.BIT (R83). -/
  sampleBit : Bool
  derive : DeriveGroup
  reduce : ReduceGroup
  /-- The levels memory, MAX_LEVELS entries (R120). -/
  levels : List Level
  /-- The sample buffer (R110). -/
  mem : Memory
  /-- The engine phase and the latched operands (R130). -/
  phase : Phase
  /-- The staged results (R130): present only while a command completes (log 3). -/
  staged : Option Staged
  /-- The run memory (R131). -/
  runMem : List RunEntry
  /-- The level of the reset line `rst`: true while asserted (R450). -/
  rst : Bool
  /-- The model's own: the events still to come, the next first (log 1). -/
  events : List Event
  /-- The model's own: the value returned by the last host read (log 11). -/
  readData : Word
  /-- The model's own: the number of the next draw of free values (log 5). -/
  draws : Nat
deriving DecidableEq, Repr

/-- No step of the core faults: "The core never transfers control, halts or locks up on an error" (60_exceptions.md
R400). Every error of the spec is a next state. DEDUCED: nobody raises a fault, which is safe (log 16). -/
inductive Fault where
deriving DecidableEq, Repr

/-- Why a step gives no meaning. -/
inductive Refusal where
  /-- An instruction without a meaning. Raised by no arm of `exec`: all six commands are modelled. Safe. -/
  | notModelled (mnemonic : String)
  /-- A host access while `rst` is asserted, raised by the event loop: "not defined by this spec; the host makes none"
  (R450, 93_implementation_defined.md S5 "refuse"). Safe: the model stops where the spec defines nothing. -/
  | accessDuringReset
deriving DecidableEq, Repr

/-- STATUS after reset: 0 (R450). -/
def Status.zero : Status :=
  { done := false, err := false, werr := false, aerr := false, errCode := .ok, lastOp := 0, probeValid := false,
    scanValid := false, deriveValid := false, reduceValid := false, sampleValid := false }

/-- The state after reset of a core with parameters `p` (R450). The sample buffer is unspecified (R452): nothing is
listed. The levels and run memories are unspecified and never observable (R453): DESIGN CHOICE all Empty, and no
entry (logs 8, 9). -/
def State.resetWith (p : Config.Params) : State :=
  { params := p, markEn := false, ie := false, status := Status.zero, wordCount := 0, sampleRateLo := 0,
    sampleRateHi := 0, markHint := 0, sampleIndex := 0, scan := ScanGroup.zero, probe := ProbeGroup.zero,
    sampleBit := false, derive := DeriveGroup.zero, reduce := ReduceGroup.zero,
    levels := List.replicate p.maxLevels .empty, mem := [], phase := .idle, staged := none, runMem := [],
    rst := false, events := [], readData := 0, draws := 0 }

/-- The machine right after reset (R450), with the open parameters of Config. -/
def State.reset : State := State.resetWith Config.params

end Sys2Proof.Machine
end

