-- ==== Sys2Proof/Machine/Flags.lean ====
section
/-! DEFINITION. The STATUS fields and what sets and clears each (10_state.md R58 to R68, R95), and the interrupt line
(60_exceptions.md R410). -/

namespace Sys2Proof.Machine

/-- The code of ERRCODE (60_exceptions.md R401). -/
def ErrCode.code (c : ErrCode) : BitVec 4 :=
  match c with
  | .ok => 0
  | .emptyBuffer => 1
  | .bufferTooSmall => 2
  | .wordCountRange => 3
  | .noScan => 4
  | .badRate => 5
  | .runOverflow => 6
  | .badOpcode => 7

/-- STATUS.BUSY is 1 while the phase is BUSY (R59). -/
def Phase.isBusy (ph : Phase) : Bool :=
  match ph with
  | .idle => false
  | .busy _ => true

/-- The STATUS word (R58): reserved bits read 0 (R67). -/
def statusWord (busy : Bool) (st : Status) : Word :=
  (0 : BitVec 3) ++ BitVec.ofBool st.sampleValid ++ BitVec.ofBool st.reduceValid ++ BitVec.ofBool st.deriveValid ++
    BitVec.ofBool st.scanValid ++ BitVec.ofBool st.probeValid ++ (0 : BitVec 4) ++ st.lastOp ++ (0 : BitVec 4) ++
    st.errCode.code ++ (0 : BitVec 3) ++ BitVec.ofBool st.aerr ++ BitVec.ofBool st.werr ++ BitVec.ofBool st.err ++
    BitVec.ofBool st.done ++ BitVec.ofBool busy

/-- A host write of `v` to STATUS clears DONE, WERR and AERR where `v[1]`, `v[3]` and `v[4]` are 1, and changes no other
bit (R68). -/
def statusWriteOneToClear (v : Word) (st : Status) : Status :=
  { st with
    done := st.done && !v.getLsbD 1
    werr := st.werr && !v.getLsbD 3
    aerr := st.aerr && !v.getLsbD 4 }

/-- Acceptance of command word `w` (43_control.md R360). -/
def statusAccept (w : Word) (st : Status) : Status :=
  { st with done := false, err := false, errCode := .ok, lastOp := w.extractLsb' 0 4 }

/-- The DONE, ERR and ERRCODE writes of a completion with code `c` (R363 items 2, 3 and 5). -/
def statusConclude (c : ErrCode) (st : Status) : Status :=
  { st with done := true, err := c != .ok, errCode := c }

/-- A refused access sets the sticky AERR (R63). -/
def statusRefused (st : Status) : Status := { st with aerr := true }

/-- A dropped write sets the sticky WERR (R62). -/
def statusDropped (st : Status) : Status := { st with werr := true }

/-- The valid bits after command `i` succeeds (R66). -/
def validOnSuccess (i : Instr) (st : Status) : Status :=
  match i with
  | .probe => { st with probeValid := true }
  | .scan => { st with scanValid := true, deriveValid := false }
  | .derive => { st with deriveValid := true }
  | .reduce => { st with reduceValid := true }
  | .sample => { st with sampleValid := true }
  | .clear =>
    { st with probeValid := false, scanValid := false, deriveValid := false, reduceValid := false,
              sampleValid := false }

/-- The valid bits after command `i` fails (R66). CLEAR has no such row: it cannot fail (R366). -/
def validOnFailure (i : Instr) (st : Status) : Status :=
  match i with
  | .probe => { st with probeValid := false }
  | .scan => { st with scanValid := false }
  | .derive => { st with deriveValid := false }
  | .reduce => { st with reduceValid := false }
  | .sample => { st with sampleValid := false }
  | .clear => st

/-- The interrupt line: high exactly when DONE and IE are 1 (R410). -/
def State.irq (s : State) : Bool := s.status.done && s.ie

end Sys2Proof.Machine
end

