-- ==== Sys2Proof/WellFormed.lean ====
section
/-! DEFINITION. Well-formed command words and commands (30_encoding.md R180 to R182). -/

namespace Sys2Proof

/-- The reserved field RSV, bits 31:4, is 0 (R180). -/
def reservedFieldZero (w : Word) : Bool := w.extractLsb' 4 28 == 0

/-- The opcode field OP, bits 3:0, is one of 1 to 6 (R181). -/
def opcodeAssigned (w : Word) : Bool := 1 ≤ (w.extractLsb' 0 4).toNat && (w.extractLsb' 0 4).toNat ≤ 6

/-- A command word that stands for a command: both checks of R182. -/
def wellFormedWord (w : Word) : Bool := reservedFieldZero w && opcodeAssigned w

/-- Every command is well formed: it has no operand field that could be out of range (R180). -/
def Instr.wellFormed (i : Instr) : Bool :=
  match i with
  | .probe => true
  | .scan => true
  | .derive => true
  | .reduce => true
  | .sample => true
  | .clear => true

end Sys2Proof
end

