-- ==== Sys2Proof/Decode.lean ====
section
/-! DEFINITION. The command decoder and encoder (30_encoding.md R180 to R182, R186, R187). -/

namespace Sys2Proof

/-- Why a command word stands for no command (R182): both are completed with BAD_OPCODE (43_control.md R367). -/
inductive DecodeError where
  /-- OP is 0 or 7 to 15. -/
  | reservedOpcode (op : BitVec 4)
  /-- RSV, bits 31:4, is not 0, whatever OP is. -/
  | reservedBits (rsv : BitVec 28)
deriving DecidableEq, Repr

/-- OP, bits 3:0 of the command word (R180). -/
def opField (w : Word) : BitVec 4 := w.extractLsb' 0 4

/-- RSV, bits 31:4 of the command word (R180). -/
def rsvField (w : Word) : BitVec 28 := w.extractLsb' 4 28

/-- The command an opcode selects (R181). -/
def decodeOp (op : BitVec 4) : Except DecodeError Instr :=
  match op.toNat with
  | 1 => .ok .probe
  | 2 => .ok .scan
  | 3 => .ok .derive
  | 4 => .ok .reduce
  | 5 => .ok .sample
  | 6 => .ok .clear
  | _ => .error (.reservedOpcode op)

/-- Decoding, total on every 32-bit word (R182): a command only where RSV is 0 and OP is assigned. -/
def decode (w : Word) : Except DecodeError Instr :=
  if rsvField w = 0 then decodeOp (opField w) else .error (.reservedBits (rsvField w))

/-- The opcode of a command (R181). -/
def opcode (i : Instr) : BitVec 4 :=
  match i with
  | .probe => 1
  | .scan => 2
  | .derive => 3
  | .reduce => 4
  | .sample => 5
  | .clear => 6

/-- The command word of a command: RSV zero above OP (R180). -/
def encode (i : Instr) : Word := (0 : BitVec 28) ++ opcode i

/-- The command the decoder reads from a table row's `nbits` bits `w`. A command word is exactly 32 bits (R187); the
bits above `nbits` are 0, and a number that does not fit `nbits` or 32 bits is no command word. -/
def decodeTableWord (nbits w : Nat) : Option Instr :=
  if w < 2 ^ nbits ∧ w < 2 ^ 32 then (decode (BitVec.ofNat 32 w)).toOption else none

end Sys2Proof
end

