-- ==== Sys2Proof/Machine/Memory.lean ====
section
/-! DEFINITION. The sample buffer as a byte store in one canonical form (10_state.md R110, 20_memory.md R146). -/

namespace Sys2Proof.Machine

/-- The canonical form: addresses strictly rising, so that equal contents are equal lists. -/
abbrev Memory.wf (m : Memory) : Prop := (m.map Prod.fst).Pairwise (· < ·)

/-- One byte; `none` where nothing has been written since reset (70_reset_and_hazards.md R452). -/
def memGet : Memory → Nat → Option Byte
  | [], _ => none
  | c :: cs, a => if c.1 = a then some c.2 else memGet cs a

/-- Write one byte, keeping the addresses rising. -/
def memPut : Memory → Nat → Byte → Memory
  | [], a, b => [(a, b)]
  | c :: cs, a, b =>
    if a < c.1 then (a, b) :: c :: cs
    else if a = c.1 then (a, b) :: cs
    else c :: memPut cs a b

/-- The offset of SAMPLE_WORD_i (R146). -/
def sampleAddr (i : Nat) : Nat := 0x10000 + 4 * i

/-- Byte `j` of a word, bits `[8j+7:8j]`. Which of a word's four cells holds which byte is a DESIGN CHOICE that no
access can show: only whole words are reached (R142, R150; log 6). -/
def byteOf (v : Word) (j : Nat) : Byte := v.extractLsb' (8 * j) 8

/-- Store SAMPLE_WORD_i, all 32 bits at one point (R158). -/
def storeWord (m : Memory) (i : Nat) (v : Word) : Memory :=
  memPut (memPut (memPut (memPut m (sampleAddr i) (byteOf v 0)) (sampleAddr i + 1) (byteOf v 1))
    (sampleAddr i + 2) (byteOf v 2)) (sampleAddr i + 3) (byteOf v 3)

/-- SAMPLE_WORD_i as last written, `none` if it has not been written since reset (R452). -/
def loadWord (m : Memory) (i : Nat) : Option Word :=
  match memGet m (sampleAddr i), memGet m (sampleAddr i + 1), memGet m (sampleAddr i + 2),
      memGet m (sampleAddr i + 3) with
  | some b0, some b1, some b2, some b3 => some (b3 ++ b2 ++ b1 ++ b0)
  | _, _, _, _ => none

end Sys2Proof.Machine
end

