-- ==== Sys2Proof/Machine/Operands.lean ====
section
/-! DEFINITION. Where the commands take their operands from (30_encoding.md R183, R184; 43_control.md R361) and how
samples are packed (20_memory.md R140, R141). -/

namespace Sys2Proof.Machine

/-- SAMPLE_RATE, `{SAMPLE_RATE_HI, SAMPLE_RATE_LO}` (10_state.md R70). -/
def State.sampleRate (s : State) : DWord := s.sampleRateHi ++ s.sampleRateLo

/-- The operands latched when command word `w` is accepted (R130, R361). -/
def latch (w : Word) (s : State) : Latched :=
  { word := w, wordCount := s.wordCount, sampleIndex := s.sampleIndex, rate := s.sampleRate, markEn := s.markEn,
    markHint := s.markHint, scanValid := s.status.scanValid, scan := s.scan }

/-- The operands of command `i`: those of the command in flight, or, where no command is in flight, those acceptance
would latch now (log 4). -/
def operandsOf (i : Instr) (s : State) : Latched :=
  match s.phase with
  | .busy op => op
  | .idle => latch (encode i) s

/-- `word(i)` as the engine sees it: the stored word, or, where nothing has been written since reset, a free value
(70_reset_and_hazards.md R452). DEDUCED: one command sees one value of each word (log 5). -/
def sampleWord (s : State) (i : Nat) : Word :=
  (loadWord s.mem i).getD (Config.unspecifiedWord s.draws i)

/-- Sample words 0 to `n - 1` (R111, R146). -/
def sampleWords (s : State) (n : Nat) : List Word := (List.range n).map (sampleWord s)

/-- The 32 samples of a word, bit 0 the earliest (R140). -/
def wordSamples (w : Word) : List Bool := (List.range 32).map fun b => w.getLsbD b

/-- The samples of a list of words, word 0 first (R141). -/
def samplesOf (ws : List Word) : List Bool := ws.flatMap wordSamples

/-- `T = 32 * n` (00_scope.md R18). -/
def totalSamples (n : Nat) : Nat := 32 * n

/-- A count written to a 32-bit register (00_scope.md R15). -/
def toReg (n : Nat) : Word := BitVec.ofNat 32 n

/-- The word-count checks every scanning command makes first, in this order (60_exceptions.md R402). -/
def wordCountChecked (p : Config.Params) (op : Latched) (k : Except ErrCode Staged) : Except ErrCode Staged :=
  if op.wordCount = 0 then .error .emptyBuffer
  else if p.bufWords < op.wordCount.toNat then .error .wordCountRange
  else k

end Sys2Proof.Machine
end

