-- ==== Sys2Proof/Machine/Ops.lean ====
section
/-! DEFINITION. The life cycle of a command: acceptance, staging, commit, completion and error completion
(43_control.md R360 to R365), and reset (70_reset_and_hazards.md R450). The core has no traps (60_exceptions.md R413);
what stands for taking an exception is the error completion `completeError`, and what stands for the return from one is
the acknowledge `statusWriteOneToClear` or the next acceptance (R414). -/

namespace Sys2Proof.Machine

/-- Acceptance of command word `w`: STATUS as R360 says, the operands latched (R361), the phase BUSY. -/
def accept (w : Word) (s : State) : State :=
  { s with status := statusAccept w s.status, phase := .busy (latch w s) }

/-- The state in which command `i` runs: the command is in flight; where the engine is IDLE it is accepted first
(log 4). -/
def started (i : Instr) (s : State) : State :=
  match s.phase with
  | .busy _ => s
  | .idle => accept (encode i) s

/-- The staging copy takes the command's writes (R364). -/
def stage (st : Staged) (s : State) : State := { s with staged := some st }

/-- LEVEL[0] up takes the emitted entries; the others keep what they hold (42_rle_spike_merger.md R300). -/
def overwriteLevels (entries old : List Level) : List Level := entries ++ old.drop entries.length

/-- A staged result group becomes the committed one; the other groups keep their values (R364). -/
def commitGroup (st : Staged) (s : State) : State :=
  match st with
  | .probe g => { s with probe := g }
  | .scan g => { s with scan := g }
  | .derive g => { s with derive := g }
  | .reduce g entries runs => { s with reduce := g, levels := overwriteLevels entries s.levels, runMem := runs }
  | .sample bit => { s with sampleBit := bit }
  | .clear =>
    { s with probe := ProbeGroup.zero, scan := ScanGroup.zero, derive := DeriveGroup.zero,
             reduce := ReduceGroup.zero, sampleBit := false }

/-- The committed copies take the staging copy, all together (R364). -/
def commit (s : State) : State :=
  match s.staged with
  | some st => { commitGroup st s with staged := none }
  | none => s

/-- Every staged write is discarded (R365). -/
def discard (s : State) : State := { s with staged := none }

/-- Items 2, 3, 5 and 6 of R363: ERRCODE, ERR, DONE, phase IDLE. The next read of an unwritten sample word is a new
draw (log 5). -/
def conclude (c : ErrCode) (s : State) : State :=
  { s with status := statusConclude c s.status, phase := .idle, draws := s.draws + 1 }

/-- The completion of command `i` with success (R363, R364). -/
def completeSuccess (i : Instr) (st : Staged) (s : State) : State :=
  let t := commit (stage st s)
  conclude .ok { t with status := validOnSuccess i t.status }

/-- The error completion of command `i` with code `c` (R365): nothing but STATUS changes (60_exceptions.md R404). -/
def completeError (i : Instr) (c : ErrCode) (s : State) : State :=
  let t := discard s
  conclude c { t with status := validOnFailure i t.status }

/-- The completion of command `i` whose pseudocode ended with `r` (R363). -/
def complete (i : Instr) (r : Except ErrCode Staged) (s : State) : State :=
  match r with
  | .ok st => completeSuccess i st s
  | .error c => completeError i c s

/-- The completion of a reserved command word: BAD_OPCODE, no valid bit changes (R367). -/
def completeReserved (s : State) : State := conclude .badOpcode (discard s)

/-- Command `i` with pseudocode `body` runs on its operands and completes (R362, R363). -/
def runCommand (i : Instr) (body : Latched → State → Except ErrCode Staged) (s : State) :
    Host.Outcome State Fault Refusal :=
  .next (complete i (body (operandsOf i s) (started i s)) (started i s))

/-- The reset line changes. Asserting it puts the core in its reset state, abandoning a command in flight (R450, R451);
the events still to come are the outside world's, and later draws are new ones (R452). -/
def resetLine (asserted : Bool) (s : State) : State :=
  if asserted then
    { State.resetWith s.params with rst := true, events := s.events, draws := s.draws }
  else { s with rst := false }

/-- The engine is next to move: an event list that is not empty gets an engine turn in front. -/
def engineNext (es : List Event) : List Event :=
  match es with
  | [] => []
  | e :: rest => .engine :: e :: rest

/-- Command word `w` placed where the next step runs it: accepted, the reset line released, the engine next to move
(log 13). -/
def placeCommand (w : Word) (s : State) : State :=
  { accept w s with rst := false, events := engineNext s.events }

end Sys2Proof.Machine
end

