-- ==== Sys2Proof/Machine/RegisterMap.lean ====
section
/-! DEFINITION. The register map of 10_state.md section 2: the offsets, the access codes and what each register reads. -/

namespace Sys2Proof.Machine

/-- The registers of the map. -/
inductive Reg where
  | id | paramBufWords | paramRunCap | paramMaxLevels
  | ctrl | cmd | status
  | wordCount | sampleRateLo | sampleRateHi | markHint | sampleIndex
  | highCount | transitions | pulseWidth0 | pulseWidth1 | pulseCount0 | pulseCount1
  | totalSamples | scanWords | firstCount | firstWord (j : Fin 10)
  | probeResult | probeIndex | sampleResult
  | dutyCycle | avgHighPulse | avgLowPulse | signalType
  | durationLo | durationHi | freqLo | freqHi
  | threshold | runsBuilt | runsLeft | merges | levelCount | markers
deriving DecidableEq, Repr

/-- What an offset reaches (20_memory.md R145). -/
inductive Target where
  | reg (r : Reg)
  /-- The LEVELS word `w` (10_state.md R121). -/
  | levels (w : Nat)
  /-- SAMPLE_WORD_i (R146). -/
  | sampleWord (i : Nat)
deriving DecidableEq, Repr

/-- The offset of a register (10_state.md section 2). -/
def Reg.offset (r : Reg) : Nat :=
  match r with
  | .id => 0x000 | .paramBufWords => 0x004 | .paramRunCap => 0x008 | .paramMaxLevels => 0x00C
  | .ctrl => 0x010 | .cmd => 0x014 | .status => 0x018
  | .wordCount => 0x01C | .sampleRateLo => 0x020 | .sampleRateHi => 0x024 | .markHint => 0x028
  | .sampleIndex => 0x02C
  | .highCount => 0x040 | .transitions => 0x044 | .pulseWidth0 => 0x048 | .pulseWidth1 => 0x04C
  | .pulseCount0 => 0x050 | .pulseCount1 => 0x054 | .totalSamples => 0x058 | .scanWords => 0x05C
  | .firstCount => 0x060 | .firstWord j => 0x064 + 4 * j.val
  | .probeResult => 0x090 | .probeIndex => 0x094 | .sampleResult => 0x098
  | .dutyCycle => 0x0A0 | .avgHighPulse => 0x0A4 | .avgLowPulse => 0x0A8 | .signalType => 0x0AC
  | .durationLo => 0x0B0 | .durationHi => 0x0B4 | .freqLo => 0x0B8 | .freqHi => 0x0BC
  | .threshold => 0x0C0 | .runsBuilt => 0x0C4 | .runsLeft => 0x0C8 | .merges => 0x0CC
  | .levelCount => 0x0D0 | .markers => 0x0D4

/-- Every register of the map. -/
def allRegs : List Reg :=
  [.id, .paramBufWords, .paramRunCap, .paramMaxLevels, .ctrl, .cmd, .status, .wordCount, .sampleRateLo, .sampleRateHi,
    .markHint, .sampleIndex] ++
  [.highCount, .transitions, .pulseWidth0, .pulseWidth1, .pulseCount0, .pulseCount1, .totalSamples, .scanWords,
    .firstCount] ++
  [.firstWord 0, .firstWord 1, .firstWord 2, .firstWord 3, .firstWord 4, .firstWord 5, .firstWord 6, .firstWord 7,
    .firstWord 8, .firstWord 9] ++
  [.probeResult, .probeIndex, .sampleResult, .dutyCycle, .avgHighPulse, .avgLowPulse, .signalType, .durationLo,
    .durationHi, .freqLo, .freqHi] ++
  [.threshold, .runsBuilt, .runsLeft, .merges, .levelCount, .markers]

/-- The register at an offset, if one is there; the other offsets below 0x400 are reserved (R96). -/
def regAt (off : Nat) : Option Reg := allRegs.find? fun r => r.offset == off

/-- What an aligned offset reaches in a core with parameters `p`; `none` at a reserved or unmapped offset (R96, R145 to
R147). -/
def targetAt (p : Config.Params) (off : Nat) : Option Target :=
  match regAt off with
  | some r => some (.reg r)
  | none =>
    if 0x400 ≤ off ∧ off < 0x400 + 4 * (p.maxLevels / 16) then some (.levels ((off - 0x400) / 4))
    else if 0x10000 ≤ off ∧ off < 0x10000 + 4 * p.bufWords then some (.sampleWord ((off - 0x10000) / 4))
    else none

/-- The access codes of 10_state.md section 2. -/
inductive AccessCode where
  | ro | rw | wo | w1c
deriving DecidableEq, Repr

/-- The access code of a register (10_state.md section 2). -/
def Reg.accessCode (r : Reg) : AccessCode :=
  match r with
  | .ctrl => .rw
  | .wordCount => .rw
  | .sampleRateLo => .rw
  | .sampleRateHi => .rw
  | .markHint => .rw
  | .sampleIndex => .rw
  | .cmd => .wo
  | .status => .w1c
  | _ => .ro

/-- The access code of a target: LEVELS words are read-only (R147), sample words read-write (R146). -/
def Target.accessCode (t : Target) : AccessCode :=
  match t with
  | .reg r => r.accessCode
  | .levels _ => .ro
  | .sampleWord _ => .rw

/-- The code of a level (10_state.md R120). -/
def Level.code (l : Level) : BitVec 2 :=
  match l with
  | .zero => 0
  | .one => 1
  | .indeterminate => 2
  | .empty => 3

/-- The code of SIGNAL_TYPE (R86). -/
def SignalType.code (t : SignalType) : BitVec 2 :=
  match t with
  | .unknown => 0
  | .constant => 1
  | .perfectSquare => 2
  | .periodic => 3

/-- What position `j` of the reduced waveform reads: LEVEL[j] below LEVEL_COUNT, Empty at or beyond it (R121). -/
def levelEntry (s : State) (j : Nat) : Level :=
  if j < s.reduce.levelCount.toNat then s.levels.getD j .empty else .empty

/-- Pack level codes two bits each, the first lowest (R121). -/
def packLevels (ls : List Level) : Word :=
  ls.foldr (fun l acc => (acc <<< 2) ||| l.code.setWidth 32) 0

/-- The LEVELS word `w`: entries `16w` to `16w + 15` (R121). -/
def levelsWord (s : State) (w : Nat) : Word :=
  packLevels ((List.range 16).map fun k => levelEntry s (16 * w + k))

/-- The CTRL word: MARK_EN, IE, reserved bits 0 (R56). -/
def ctrlWord (s : State) : Word := (0 : BitVec 30) ++ BitVec.ofBool s.ie ++ BitVec.ofBool s.markEn

/-- The word PARAM_RUN_CAP reads: RUN_CAP (R54). R10 does not bound RUN_CAP; one that does not fit the register reads as a
free value (log 7). -/
def runCapWord (n : Nat) : Word := if n < 2 ^ 32 then toReg n else Config.wideRunCap n

/-- The value a register reads (R52 to R94). Reading CMD gives 0 (R57). -/
def readReg (s : State) (r : Reg) : Word :=
  match r with
  | .id => 0x5A585431
  | .paramBufWords => toReg s.params.bufWords
  | .paramRunCap => runCapWord s.params.runCap
  | .paramMaxLevels => toReg s.params.maxLevels
  | .ctrl => ctrlWord s
  | .cmd => 0
  | .status => statusWord s.phase.isBusy s.status
  | .wordCount => s.wordCount
  | .sampleRateLo => s.sampleRateLo
  | .sampleRateHi => s.sampleRateHi
  | .markHint => s.markHint
  | .sampleIndex => s.sampleIndex
  | .highCount => s.scan.highCount
  | .transitions => s.scan.transitions
  | .pulseWidth0 => s.scan.pulseWidth0
  | .pulseWidth1 => s.scan.pulseWidth1
  | .pulseCount0 => s.scan.pulseCount0
  | .pulseCount1 => s.scan.pulseCount1
  | .totalSamples => s.scan.totalSamples
  | .scanWords => s.scan.scanWords
  | .firstCount => s.scan.firstCount
  | .firstWord j => s.scan.firstWords[j]
  | .probeResult => (BitVec.ofBool s.probe.active).setWidth 32
  | .probeIndex => s.probe.index
  | .sampleResult => (BitVec.ofBool s.sampleBit).setWidth 32
  | .dutyCycle => s.derive.dutyCycle
  | .avgHighPulse => s.derive.avgHighPulse
  | .avgLowPulse => s.derive.avgLowPulse
  | .signalType => s.derive.signalType.code.setWidth 32
  | .durationLo => s.derive.durationLo
  | .durationHi => s.derive.durationHi
  | .freqLo => s.derive.freqLo
  | .freqHi => s.derive.freqHi
  | .threshold => s.reduce.threshold
  | .runsBuilt => s.reduce.runsBuilt
  | .runsLeft => s.reduce.runsLeft
  | .merges => s.reduce.merges
  | .levelCount => s.reduce.levelCount
  | .markers => s.reduce.markers

/-- The value a mapped offset reads (R154). An unwritten sample word reads as a free value (R452). -/
def readTarget (s : State) (t : Target) : Word :=
  match t with
  | .reg r => readReg s r
  | .levels w => levelsWord s w
  | .sampleWord i => sampleWord s i

end Sys2Proof.Machine
end

