-- ==== Sys2Proof/Machine/Bus.lean ====
section
/-! DEFINITION. Host accesses: what is performed, refused and dropped, in the order of 20_memory.md R157. -/

namespace Sys2Proof.Machine

/-- The width of an access. -/
def Access.width (a : Access) : Width :=
  match a with
  | .read w _ => w
  | .write w _ _ => w

/-- The byte offset of an access, from REG_BASE (R145). -/
def Access.offset (a : Access) : Word :=
  match a with
  | .read _ off => off
  | .write _ off _ => off

/-- An access the core accepts at all: 32 bits wide at a multiple of 4 (R150). -/
def Access.aligned (a : Access) : Bool := a.width == .w32 && a.offset.toNat % 4 == 0

/-- A refused access (R151 to R153): a read returns 0, a write changes nothing, both set AERR. -/
def refuseAccess (a : Access) (s : State) : State :=
  match a with
  | .read _ _ => { s with status := statusRefused s.status, readData := 0 }
  | .write _ _ _ => { s with status := statusRefused s.status }

/-- A write dropped while BUSY: the target keeps its value, WERR is set (R155). -/
def dropWrite (s : State) : State := { s with status := statusDropped s.status }

/-- A read of a mapped offset (R154). It changes nothing of the core; a read of a sample word uses up one draw of the
model's free values (log 5). -/
def performRead (t : Target) (s : State) : State :=
  match t with
  | .reg r => { s with readData := readReg s r }
  | .levels w => { s with readData := levelsWord s w }
  | .sampleWord i => { s with readData := sampleWord s i, draws := s.draws + 1 }

/-- A write to a register that takes writes: R156 for the RW registers, R360 for CMD, R68 for STATUS. A read-only
register never gets here (R153). -/
def writeReg (r : Reg) (v : Word) (s : State) : State :=
  match r with
  | .ctrl => { s with markEn := v.getLsbD 0, ie := v.getLsbD 1 }
  | .cmd => accept v s
  | .status => { s with status := statusWriteOneToClear v s.status }
  | .wordCount => { s with wordCount := v }
  | .sampleRateLo => { s with sampleRateLo := v }
  | .sampleRateHi => { s with sampleRateHi := v }
  | .markHint => { s with markHint := v }
  | .sampleIndex => { s with sampleIndex := v }
  | _ => s

/-- A write that is performed. -/
def performWrite (t : Target) (v : Word) (s : State) : State :=
  match t with
  | .reg r => writeReg r v s
  | .levels _ => s
  | .sampleWord i => { s with mem := storeWord s.mem i v }

/-- A write to a mapped target: refused if it is read-only (R153), dropped if the engine is BUSY and the target is not
STATUS (R155, R68), else performed (R156). -/
def writeTarget (a : Access) (t : Target) (v : Word) (s : State) : State :=
  match t.accessCode with
  | .ro => refuseAccess a s
  | .w1c => performWrite t v s
  | .rw => if s.phase.isBusy then dropWrite s else performWrite t v s
  | .wo => if s.phase.isBusy then dropWrite s else performWrite t v s

/-- One host access, the checks in the order of R157: width and alignment (R151), mapped offset (R152), read-only target
(R153), BUSY (R155). -/
def hostAccess (a : Access) (s : State) : State :=
  if a.aligned = false then refuseAccess a s
  else
    match targetAt s.params a.offset.toNat with
    | none => refuseAccess a s
    | some t =>
      match a with
      | .read _ _ => performRead t s
      | .write _ _ v => writeTarget a t v s

end Sys2Proof.Machine
end

