-- ==== Sys2Proof/Machine/Control.lean ====
section
/-! DEFINITION. CLEAR (43_control.md R366). -/

namespace Sys2Proof.Machine

/-- CLEAR's pseudocode (R366): every result group back to its reset values. It cannot fail. -/
def clearBody (_op : Latched) (_s : State) : Except ErrCode Staged := .ok .clear

/-- CLEAR (R366). -/
def execClear (s : State) : Host.Outcome State Fault Refusal := runCommand .clear clearBody s

end Sys2Proof.Machine
end

