-- ==== Sys2Proof/Machine/Floats.lean ====
section
/-! DEFINITION. The floating-point primitives of 00_scope.md R17, over the non-negative values the core meets. A finite
non-negative encoding stands for a whole number of the format's smallest positive value, so every quotient is a quotient
of natural numbers. The layout of the two formats is PRESUMED from IEEE 754, which R17 names (log 15). -/

namespace Sys2Proof.Machine

/-- `a / b` rounded to the nearest integer, ties to even (R17). -/
def roundNearestEven (a b : Nat) : Nat :=
  let q := a / b
  let r := a % b
  if 2 * r < b ∨ (2 * r = b ∧ q % 2 = 0) then q else q + 1

/-- The encoding of the value of a format nearest to `num / den`, ties to even: significands of `p` bits, smallest
positive value `2^-u`, `inf` the encoding of +infinity. Above the first `2^p` multiples of `2^-u` the spacing doubles
with each binade: it is `2^(sh-u)`. The encoding of `m * 2^(sh-u)` is `sh * 2^(p-1) + m`, also where rounding carries
`m` up to `2^p`, and what reaches past the largest finite value becomes +infinity (R17). -/
def encodeQuotient (p u inf num den : Nat) : Nat :=
  let sh := Nat.log2 (num * 2 ^ u / den) + 1 - p
  min (sh * 2 ^ (p - 1) + roundNearestEven (num * 2 ^ u) (den * 2 ^ sh)) inf

/-- `bits32(rnd32(num / den))`: binary32, 24-bit significands, smallest positive value `2^-149`. -/
def rnd32 (num den : Nat) : Word := BitVec.ofNat 32 (encodeQuotient 24 149 0x7F800000 num den)

/-- The binary64 value nearest to `num / den`: 53-bit significands, smallest positive value `2^-1074`. -/
def rnd64 (num den : Nat) : DWord := BitVec.ofNat 64 (encodeQuotient 53 1074 0x7FF0000000000000 num den)

/-- +infinity in binary64. -/
def inf64 : DWord := 0x7FF0000000000000#64

/-- The magnitude of a finite binary64 encoding in units of `2^-1074`. -/
def magnitude64 (b : DWord) : Nat :=
  let e := (b.extractLsb' 52 11).toNat
  let f := (b.extractLsb' 0 52).toNat
  if e = 0 then f else (2 ^ 52 + f) * 2 ^ (e - 1)

/-- `isFinitePos(r)`: neither NaN nor infinite, and above 0; -0.0 and +0.0 fail (R17). -/
def isFinitePos (r : DWord) : Bool := 0 < r.toNat && r.toNat < inf64.toNat

/-- `to64(n)`, exact below `2^53` (R17). -/
def to64 (n : Nat) : DWord := rnd64 n 1

/-- `to64(t) / 2`, exact (41_metric_deriver.md R250). -/
def half64 (t : Nat) : DWord := rnd64 t 2

/-- `div64(a, b)` for a finite non-negative `a` and a non-negative `b` that is not NaN, the only operands DERIVE gives
it (R250, R253; log 15): IEEE 754 division, so a finite value over +infinity is +0.0 and a positive one over +0.0 is
+infinity. -/
def div64 (a b : DWord) : DWord :=
  if b = inf64 then 0
  else if magnitude64 b = 0 then inf64
  else rnd64 (magnitude64 a) (magnitude64 b)

end Sys2Proof.Machine
end

