-- ==== Sys2Proof/Machine/Deriver.lean ====
section
/-! DEFINITION. metric_deriver: DERIVE (41_metric_deriver.md). -/

namespace Sys2Proof.Machine

/-- The quotient of two counts in binary32, +0.0 where the divisor is 0 (R252, R254). -/
def guardedRatio (num den : Nat) : Word := if 0 < den then rnd32 num den else 0

/-- The duty cycle (R252). -/
def dutyCycle (g : ScanGroup) : Word := guardedRatio (100 * g.highCount.toNat) g.totalSamples.toNat

/-- The average pulse width at level 1, per pulse count (R254). -/
def avgHighPulse (g : ScanGroup) : Word := guardedRatio g.pulseWidth1.toNat g.pulseCount1.toNat

/-- The average pulse width at level 0, per pulse count (R254). -/
def avgLowPulse (g : ScanGroup) : Word := guardedRatio g.pulseWidth0.toNat g.pulseCount0.toNat

/-- The rate is used, so it is checked, only when there is more than one transition (R250). -/
def usesRate (g : ScanGroup) : Bool := 1 < g.transitions.toNat

/-- The capture duration (R253). -/
def captureDuration (g : ScanGroup) (rate : DWord) : DWord :=
  if usesRate g then div64 (to64 g.totalSamples.toNat) rate else 0

/-- The frequency estimate, divided by the already rounded duration (R253). -/
def estimatedFreq (g : ScanGroup) (rate : DWord) : DWord :=
  if usesRate g then div64 (half64 g.transitions.toNat) (captureDuration g rate) else 0

/-- The classification, in priority order (R255). -/
def classify (g : ScanGroup) : SignalType :=
  if g.transitions.toNat = 0 then .constant
  else if g.transitions.toNat = 2 ∧ g.highCount.toNat = g.totalSamples.toNat / 2 then .perfectSquare
  else if 4 ≤ g.transitions.toNat then .periodic
  else .unknown

/-- The DERIVE group of a SCAN group and a rate: a pure function of the two (R256). -/
def deriveMetrics (g : ScanGroup) (rate : DWord) : DeriveGroup :=
  let dur := captureDuration g rate
  let freq := estimatedFreq g rate
  { dutyCycle := dutyCycle g, avgHighPulse := avgHighPulse g, avgLowPulse := avgLowPulse g, signalType := classify g
    durationLo := dur.extractLsb' 0 32, durationHi := dur.extractLsb' 32 32
    freqLo := freq.extractLsb' 0 32, freqHi := freq.extractLsb' 32 32 }

/-- DERIVE's pseudocode (R250), its checks in the order of R251. -/
def deriveBody (op : Latched) (_s : State) : Except ErrCode Staged :=
  if op.scanValid = false then .error .noScan
  else if usesRate op.scan ∧ isFinitePos op.rate = false then .error .badRate
  else .ok (.derive (deriveMetrics op.scan op.rate))

/-- DERIVE (R250 to R256). -/
def execDerive (s : State) : Host.Outcome State Fault Refusal := runCommand .derive deriveBody s

end Sys2Proof.Machine
end

