-- ==== Sys2Proof/Machine/Reducer.lean ====
section
/-! DEFINITION. rle_encoder_with_spike_merger: REDUCE (42_rle_spike_merger.md). -/

namespace Sys2Proof.Machine

/-- A run of the run list while REDUCE works on it, its length a number (00_scope.md R15). -/
structure Run where
  level : Bool
  length : Nat
deriving DecidableEq, Repr

/-- A run as the run memory holds it (10_state.md R131). -/
def Run.entry (r : Run) : RunEntry := { level := r.level, length := toReg r.length }

/-- Put one sample before a run list: it lengthens a first run of its own level, else starts a run (R302). -/
def consSample (b : Bool) (runs : List Run) : List Run :=
  match runs with
  | [] => [{ level := b, length := 1 }]
  | r :: rest =>
    if r.level = b then { r with length := r.length + 1 } :: rest
    else { level := b, length := 1 } :: r :: rest

/-- The run build (R302): the ordered list of maximal runs of the samples. -/
def buildRuns (bits : List Bool) : List Run := bits.foldr consSample []

/-- The spike threshold of `total` samples with `t` transitions (R303), floor division. -/
def spikeThreshold (total t : Nat) : Nat := max 1 (total / (5 * t))

/-- The length of run `i`. -/
def lengthAt (runs : List Run) (i : Nat) : Nat := ((runs[i]?).map Run.length).getD 0

/-- Run `i` grows by `k`; its level is kept (R304). -/
def growRun (runs : List Run) (i k : Nat) : List Run :=
  runs.modify i fun r => { r with length := r.length + k }

/-- The neighbour that absorbs run `i` (R304): the next for the first run, the previous for the last, else the one that
is currently larger, a tie going to the previous. -/
def absorber (runs : List Run) (i : Nat) : Nat :=
  if i = 0 then 1
  else if i = runs.length - 1 then i - 1
  else if lengthAt runs (i + 1) ≤ lengthAt runs (i - 1) then i - 1
  else i + 1

/-- One merge of run `i` (R304): the neighbour grows, run `i` is removed, nothing is coalesced (R306). -/
def mergeRun (runs : List Run) (i : Nat) : List Run :=
  (growRun runs (absorber runs i) (lengthAt runs i)).eraseIdx i

/-- The first run shorter than the threshold (R304). -/
def firstSpike (thr : Nat) (runs : List Run) : Option Nat := runs.findIdx? fun r => r.length < thr

/-- The merge loop, restarted from the beginning after each merge (R305), with the number of merges so far. Each merge
removes one run, so fuel equal to the number of runs is never used up. -/
def mergeLoop (thr : Nat) : Nat → List Run → Nat → List Run × Nat
  | 0, runs, merges => (runs, merges)
  | fuel + 1, runs, merges =>
    if runs.length = 1 then (runs, merges)
    else
      match firstSpike thr runs with
      | none => (runs, merges)
      | some i => mergeLoop thr fuel (mergeRun runs i) (merges + 1)

/-- The surviving runs and the number of merges (R305). -/
def mergeSpikes (thr : Nat) (runs : List Run) : List Run × Nat := mergeLoop thr runs.length runs 0

/-- The logical level of a run as a level code (10_state.md R120). -/
def levelOf (b : Bool) : Level := if b then .one else .zero

/-- Whether surviving run `r` after run `prev` gets an Indeterminate marker (R307). -/
def needsMarker (markEn : Bool) (hint : Nat) (prev r : Run) : Bool :=
  markEn && r.level != prev.level && decide (2 * r.length < hint)

/-- The entries of the runs after `prev` (R307, R308): each level, a marker before it where one is due. -/
def emitAfter (markEn : Bool) (hint : Nat) : Run → List Run → List Level
  | _, [] => []
  | prev, r :: rest =>
    (if needsMarker markEn hint prev r then [.indeterminate] else []) ++
      levelOf r.level :: emitAfter markEn hint r rest

/-- The entry list E of the surviving runs, before it is cut (R300 step 5). -/
def emitRuns (markEn : Bool) (hint : Nat) (runs : List Run) : List Level :=
  match runs with
  | [] => []
  | r :: rest => levelOf r.level :: emitAfter markEn hint r rest

/-- The constant path (R309): one entry, no threshold computed. -/
def reduceConstant (runs : List Run) : Staged :=
  .reduce { threshold := 0, runsBuilt := 1, runsLeft := 1, merges := 0, levelCount := 1, markers := 0 }
    (emitRuns false 0 runs) (runs.map Run.entry)

/-- Steps 2, 4 and 5 over a run list with at least one transition (R303 to R308), `total` samples in it. -/
def reduceMerged (maxLevels total : Nat) (markEn : Bool) (hint : Nat) (runs : List Run) : Staged :=
  let thr := spikeThreshold total (runs.length - 1)
  let merged := mergeSpikes thr runs
  let entries := (emitRuns markEn hint merged.1).take maxLevels
  .reduce
    { threshold := toReg thr, runsBuilt := toReg runs.length, runsLeft := toReg merged.1.length
      merges := toReg merged.2, levelCount := toReg entries.length
      markers := toReg (entries.count .indeterminate) }
    entries (merged.1.map Run.entry)

/-- REDUCE over the samples (R300): the run memory bound (R301), the constant path (R309), then the merge. -/
def reduceSamples (p : Config.Params) (markEn : Bool) (hint : Nat) (bits : List Bool) : Except ErrCode Staged :=
  let runs := buildRuns bits
  if p.runCap < runs.length then .error .runOverflow
  else if runs.length = 1 then .ok (reduceConstant runs)
  else .ok (reduceMerged p.maxLevels bits.length markEn hint runs)

/-- REDUCE's pseudocode (R300). -/
def reduceBody (op : Latched) (s : State) : Except ErrCode Staged :=
  wordCountChecked s.params op
    (reduceSamples s.params op.markEn op.markHint.toNat (samplesOf (sampleWords s op.wordCount.toNat)))

/-- REDUCE (R300 to R309). -/
def execReduce (s : State) : Host.Outcome State Fault Refusal := runCommand .reduce reduceBody s

end Sys2Proof.Machine
end

