-- ==== Sys2Proof/Machine/Scanner.lean ====
section
/-! DEFINITION. bitstream_scanner: SAMPLE, PROBE and SCAN (40_bitstream_scanner.md). -/

namespace Sys2Proof.Machine

/-- SAMPLE's pseudocode (R200): one sample of the first `WORD_COUNT` words, or BUFFER_TOO_SMALL. -/
def sampleBody (op : Latched) (s : State) : Except ErrCode Staged :=
  wordCountChecked s.params op
    (if totalSamples op.wordCount.toNat ≤ op.sampleIndex.toNat then .error .bufferTooSmall
     else .ok (.sample ((sampleWord s (op.sampleIndex.toNat / 32)).getLsbD (op.sampleIndex.toNat % 32))))

/-- The index of the first sample that differs from sample 0 (R210, R211). -/
def firstTransition (bits : List Bool) : Option Nat :=
  bits.findIdx? fun b => b != bits.headD false

/-- PROBE's results over the samples (R210). -/
def probeSamples (bits : List Bool) : ProbeGroup :=
  match firstTransition bits with
  | some k => { active := true, index := toReg k }
  | none => { active := false, index := 0 }

/-- PROBE's pseudocode (R210). -/
def probeBody (op : Latched) (s : State) : Except ErrCode Staged :=
  wordCountChecked s.params op (.ok (.probe (probeSamples (samplesOf (sampleWords s op.wordCount.toNat)))))

/-- SCAN's accumulators (R220), local to each command (10_state.md R132). -/
structure ScanAcc where
  lastState : Bool
  runLength : Nat
  high : Nat
  trans : Nat
  pw0 : Nat
  pw1 : Nat
  pc0 : Nat
  pc1 : Nat
deriving DecidableEq, Repr

/-- The accumulators before the first sample, `lastState` seeded from it (R220). -/
def scanInit (first : Bool) : ScanAcc :=
  { lastState := first, runLength := 0, high := 0, trans := 0, pw0 := 0, pw1 := 0, pc0 := 0, pc1 := 0 }

/-- Close the open run: its length and one count go to its level (R220). -/
def closeRun (a : ScanAcc) : ScanAcc :=
  if a.lastState then { a with pw1 := a.pw1 + a.runLength, pc1 := a.pc1 + 1 }
  else { a with pw0 := a.pw0 + a.runLength, pc0 := a.pc0 + 1 }

/-- The high-sample count, independent of the transition bookkeeping (R220). -/
def countHigh (bit : Bool) (a : ScanAcc) : ScanAcc :=
  if bit then { a with high := a.high + 1 } else a

/-- One sample of the pass (R220). -/
def scanBit (a : ScanAcc) (bit : Bool) : ScanAcc :=
  let b := countHigh bit a
  if bit ≠ b.lastState then
    let c := closeRun b
    { c with trans := c.trans + 1, runLength := 1, lastState := bit }
  else { b with runLength := b.runLength + 1 }

/-- The whole pass, with the final flush of the open run (R220). -/
def scanSamples (bits : List Bool) : ScanAcc :=
  closeRun (bits.foldl scanBit (scanInit (bits.headD false)))

/-- FIRST_WORDj: word `j` where it was scanned, else 0 (10_state.md R80). -/
def firstWordsOf (ws : List Word) : Vector Word 10 :=
  let f (j : Nat) : Word := ws.getD j 0
  #v[f 0, f 1, f 2, f 3, f 4, f 5, f 6, f 7, f 8, f 9]

/-- The SCAN group of a pass over the words `ws` (R220). -/
def scanWordsOf (ws : List Word) : ScanGroup :=
  let a := scanSamples (samplesOf ws)
  { highCount := toReg a.high, transitions := toReg a.trans
    pulseWidth0 := toReg a.pw0, pulseWidth1 := toReg a.pw1
    pulseCount0 := toReg a.pc0, pulseCount1 := toReg a.pc1
    totalSamples := toReg (totalSamples ws.length), scanWords := toReg ws.length
    firstCount := toReg (min Config.firstN ws.length), firstWords := firstWordsOf ws }

/-- SCAN's pseudocode (R220). -/
def scanBody (op : Latched) (s : State) : Except ErrCode Staged :=
  wordCountChecked s.params op (.ok (.scan (scanWordsOf (sampleWords s op.wordCount.toNat))))

/-- SAMPLE (R200, R201). -/
def execSample (s : State) : Host.Outcome State Fault Refusal := runCommand .sample sampleBody s

/-- PROBE (R210 to R212). -/
def execProbe (s : State) : Host.Outcome State Fault Refusal := runCommand .probe probeBody s

/-- SCAN (R220 to R224). -/
def execScan (s : State) : Host.Outcome State Fault Refusal := runCommand .scan scanBody s

end Sys2Proof.Machine
end

