-- ==== Sys2Proof/Machine/Dispatch.lean ====
section
/-! DEFINITION. The meaning of each command, one arm per row of spec/opcode_table.json. -/

namespace Sys2Proof.Machine

def exec (i : Instr) (s : State) : Host.Outcome State Fault Refusal :=
  match i with
  | .probe => Sys2Proof.Machine.execProbe s
  | .scan => Sys2Proof.Machine.execScan s
  | .derive => Sys2Proof.Machine.execDerive s
  | .reduce => Sys2Proof.Machine.execReduce s
  | .sample => Sys2Proof.Machine.execSample s
  | .clear => Sys2Proof.Machine.execClear s

end Sys2Proof.Machine
end

