-- ==== Sys2Proof/Machine/Engine.lean ====
section
/-! DEFINITION. One event of R161's sequence: a host access, the engine's turn, or a change of the reset line. -/

namespace Sys2Proof.Machine

/-- The engine completes an accepted command word (43_control.md R362): the command it stands for, or BAD_OPCODE
(R367). -/
def runWord (w : Word) (s : State) : Host.Outcome State Fault Refusal :=
  match decode w with
  | .ok i => exec i s
  | .error _ => .next (completeReserved s)

/-- The engine's turn: a command in flight completes; while IDLE nothing happens (60_exceptions.md R425). -/
def engineTurn (s : State) : Host.Outcome State Fault Refusal :=
  match s.phase with
  | .idle => .next s
  | .busy op => runWord op.word s

/-- A host access of the sequence. While `rst` is asserted the spec defines none (R450): refused by name. -/
def accessEvent (a : Access) (s : State) : Host.Outcome State Fault Refusal :=
  if s.rst then .refused .accessDuringReset else .next (hostAccess a s)

/-- One event (20_memory.md R161). -/
def event (e : Event) (s : State) : Host.Outcome State Fault Refusal :=
  match e with
  | .access a => accessEvent a s
  | .engine => engineTurn s
  | .reset asserted => .next (resetLine asserted s)

/-- The next event of the sequence; where the outside world has none left the engine takes its turn, since every
accepted command completes (43_control.md R363, 70_reset_and_hazards.md R472; log 2). -/
def nextEvent (s : State) : Host.Outcome State Fault Refusal :=
  match s.events with
  | [] => engineTurn s
  | e :: es => event e { s with events := es }

end Sys2Proof.Machine
end

