-- ==== Sys2Proof/Machine/Step.lean ====
section
/-! DEFINITION. The step of the core: one event of the sequence of 20_memory.md R161. -/

namespace Sys2Proof.Machine

/-- One step (10_state.md R51: "its step is the acceptance and completion of commands"). -/
def step (s : State) : Host.Outcome State Fault Refusal := nextEvent s

/-- The state in which the next step runs the command word whose bits are `w`: a word of 32 bits, accepted (log 13). -/
def State.withFetchWord (s : State) (nbits w : Nat) : State := placeCommand (BitVec.ofNat 32 (w % 2 ^ nbits)) s

end Sys2Proof.Machine
end

