-- ==== Sys2Proof/Machine/HostProgram.lean ====
section
/-! DEFINITION. Host programs: the notation of 30_encoding.md R188 to R190, and the host that runs one against the core:
each access of a line is a step of the core, and a poll repeats its read until the value read meets its condition. -/

namespace Sys2Proof.Machine

/-- A line of a host program (R188). -/
inductive HostOp where
  /-- `WR off, v`: a 32-bit write. -/
  | wr (off v : Word)
  /-- `RD off`: a 32-bit read. -/
  | rd (off : Word)
  /-- `POLL off, mask, val`: `RD off` again and again until `(value & mask) == val`. -/
  | poll (off mask val : Word)
deriving DecidableEq, Repr

/-- The pseudo-instructions (R190). -/
inductive Pseudo where
  /-- `RUN op`; a mnemonic stands for its command word (R189). -/
  | run (op : Word)
  | wr64 (off : Word) (v : DWord)
  | rd64 (off : Word)
  | ack
  | clrerr
  /-- `LOAD i, v0, v1, ...`. -/
  | load (i : Nat) (vs : List Word)
deriving DecidableEq, Repr

/-- The writes of `LOAD` (R190). DESIGN CHOICE: an offset `0x10000+4i` of `2^32` or more is taken modulo `2^32` (log 17). -/
def loadWrites : Nat → List Word → List HostOp
  | _, [] => []
  | i, v :: vs => .wr (BitVec.ofNat 32 (0x10000 + 4 * i)) v :: loadWrites (i + 1) vs

/-- The expansion of a pseudo-instruction (R190). DESIGN CHOICE: `off+4` is taken modulo `2^32` (log 17). -/
def Pseudo.expand (p : Pseudo) : List HostOp :=
  match p with
  | .run op => [.wr 0x014 op, .poll 0x018 0x00000002 0x00000002]
  | .wr64 off v => [.wr off (v.extractLsb' 0 32), .wr (off + 4) (v.extractLsb' 32 32)]
  | .rd64 off => [.rd off, .rd (off + 4)]
  | .ack => [.wr 0x018 0x00000002]
  | .clrerr => [.wr 0x018 0x00000018]
  | .load i vs => loadWrites i vs

/-- The condition that ends a poll (R188). -/
def pollEnds (mask val value : Word) : Bool := value &&& mask == val

/-- The access a line makes; a poll makes it at each of its reads (R188). -/
def HostOp.access (o : HostOp) : Access :=
  match o with
  | .wr off v => .write .w32 off v
  | .rd off => .read .w32 off
  | .poll off _ _ => .read .w32 off

/-- Whether a line is over after an access of it, which a read made return `value`: a poll goes on until its condition
holds, whatever the offset it reads (R188). -/
def HostOp.over (o : HostOp) (value : Word) : Bool :=
  match o with
  | .wr _ _ => true
  | .rd _ => true
  | .poll _ mask val => pollEnds mask val value

/-- The encoding of an access, `(R|W, offset, data)` (R188). -/
structure Transfer where
  write : Bool
  offset : Word
  data : Word
deriving DecidableEq, Repr

/-- What the bus carries for an access of a line: the data written, or the value the read returned (R188). -/
def HostOp.transfer (o : HostOp) (value : Word) : Transfer :=
  match o with
  | .wr off v => { write := true, offset := off, data := v }
  | .rd off => { write := false, offset := off, data := value }
  | .poll off _ _ => { write := false, offset := off, data := value }

/-- Who moves next in the sequence of 20_memory.md R161: the host with its next access, or the engine. The order of the
turns is open: 70_reset_and_hazards.md R472 leaves the number of host turns before a completion free (log 14). -/
inductive Turn where
  | host
  | engine
deriving DecidableEq, Repr

/-- A host at its program: the lines not over yet, the core, and the encodings of the accesses made, the oldest first. -/
structure HostRun where
  todo : List HostOp
  core : State
  bus : List Transfer
deriving DecidableEq, Repr

/-- The event a turn adds to R161's sequence. A host whose program has ended makes no access. -/
def turnEvent (t : Turn) (todo : List HostOp) : Option Event :=
  match t, todo with
  | .engine, _ => some .engine
  | .host, [] => none
  | .host, o :: _ => some (.access o.access)

/-- The run after a turn that left the core in state `s`: a line that is over leaves the program, a poll whose condition
does not hold stays in front (R188). -/
def afterTurn (t : Turn) (r : HostRun) (s : State) : HostRun :=
  match t, r.todo with
  | .host, o :: ops =>
    { todo := if o.over s.readData then ops else o :: ops, core := s, bus := r.bus ++ [o.transfer s.readData] }
  | _, _ => { r with core := s }

/-- One turn: the core takes a step whose event is the turn's. -/
def programTurn (t : Turn) (r : HostRun) : Host.Outcome HostRun Fault Refusal :=
  match turnEvent t r.todo with
  | none => .next r
  | some e =>
    match step { r.core with events := e :: r.core.events } with
    | .next s => .next (afterTurn t r s)
    | .fault f => .fault f
    | .refused q => .refused q

/-- A program under an order of turns. It has ended when `todo` is empty. -/
def runProgram : List Turn → HostRun → Host.Outcome HostRun Fault Refusal
  | [], r => .next r
  | t :: ts, r =>
    match programTurn t r with
    | .next r' => runProgram ts r'
    | .fault f => .fault f
    | .refused q => .refused q

/-- The part of R161's sequence that a program makes under an order of turns. -/
def programEvents : List Turn → HostRun → List Event
  | [], _ => []
  | t :: ts, r =>
    (turnEvent t r.todo).toList ++
      match programTurn t r with
      | .next r' => programEvents ts r'
      | .fault _ => []
      | .refused _ => []

end Sys2Proof.Machine
end

