-- ==== Sys2Proof/Safety.lean ====
section
/-! DEFINITION. The terms claims use: the invariant of every step, legal inputs of a command, what the spec says of
samples, runs and roundings in its own words, and what an observer on the bus can tell apart. -/

namespace Sys2Proof.Machine

/-- A word count the scanning commands accept (60_exceptions.md R401, R402). -/
def wordCountLegal (op : Latched) (s : State) : Prop :=
  op.wordCount ≠ 0 ∧ op.wordCount.toNat ≤ s.params.bufWords

/-- The analyzed samples `s(0)` to `s(T-1)` (00_scope.md R18). -/
def analyzedSamples (op : Latched) (s : State) : List Bool := samplesOf (sampleWords s op.wordCount.toNat)

/-- Sample `i` of a list, `s(i)` of the pseudocode. -/
def sampleAt (bits : List Bool) (i : Nat) : Bool := bits.getD i false

/-- Sample `i` is a transition: `1 <= i < T` and `s(i) != s(i-1)` (40_bitstream_scanner.md R223). -/
def isTransition (bits : List Bool) (i : Nat) : Bool :=
  decide (1 ≤ i) && decide (i < bits.length) && sampleAt bits i != sampleAt bits (i - 1)

/-- The number of transitions by the definition of R223. -/
def transitionCount (bits : List Bool) : Nat := (List.range bits.length).countP (isTransition bits)

/-- The lengths of the runs at a level. -/
def lengthsAt (level : Bool) (runs : List Run) : List Nat :=
  (runs.filter fun r => r.level == level).map Run.length

/-- The sum of the run lengths. -/
def totalLength (runs : List Run) : Nat := (runs.map Run.length).sum

/-- The samples a run list stands for. -/
def expandRuns (runs : List Run) : List Bool := runs.flatMap fun r => List.replicate r.length r.level

/-- The single left-to-right pass of 42_rle_spike_merger.md R310 from index `i`. Each step merges run `i` or moves on, so
fuel of twice the number of runs is never used up. -/
def singlePass (thr : Nat) : Nat → Nat → List Run → Nat → List Run × Nat
  | 0, _, runs, merges => (runs, merges)
  | fuel + 1, i, runs, merges =>
    if runs.length = 1 ∨ runs.length ≤ i then (runs, merges)
    else if lengthAt runs i < thr then singlePass thr fuel i (mergeRun runs i) (merges + 1)
    else singlePass thr fuel (i + 1) runs merges

/-- The value of a finite non-negative encoding of a format with `p`-bit significands, in units of its smallest positive
value (00_scope.md R17): the fraction itself below the first normal encoding, else the fraction with its leading 1,
doubled once for each binade above the first. -/
def magnitudeOf (p e : Nat) : Nat :=
  if e < 2 ^ (p - 1) then e else (2 ^ (p - 1) + e % 2 ^ (p - 1)) * 2 ^ (e / 2 ^ (p - 1) - 1)

/-- How far the encoding `e` lies from `num / den`, in units of the format's smallest positive value `2^-u` over `den`. -/
def roundingError (p u e num den : Nat) : Nat :=
  ((magnitudeOf p e * den : Nat) - (num * 2 ^ u : Nat) : Int).natAbs

/-- `e` encodes the finite value nearest to `num / den`, ties to even (R17): every other finite encoding is farther
away, or as far and `e` is the even one. `inf` is the encoding of +infinity, the finite encodings lie below it. -/
def isNearest (p u inf e num den : Nat) : Prop :=
  e < inf ∧ ∀ v, v < inf → v ≠ e →
    roundingError p u e num den < roundingError p u v num den ∨
      (roundingError p u e num den = roundingError p u v num den ∧ e % 2 = 0)

/-- The offsets of 10_state.md section 2 that hold no state: the reserved ranges and everything unmapped (R96). -/
def noStateAt (p : Config.Params) (off : Nat) : Prop :=
  (0x030 ≤ off ∧ off ≤ 0x03C) ∨ off = 0x08C ∨ off = 0x09C ∨ (0x0D8 ≤ off ∧ off ≤ 0x3FC) ∨
    (0x400 + 4 * (p.maxLevels / 16) ≤ off ∧ off ≤ 0xFFFC) ∨ 0x10000 + 4 * p.bufWords ≤ off

/-- The offsets of the read-only registers of 20_memory.md R153: ID, the PARAM registers, the result registers and the
LEVELS words. -/
def readOnlyAt (p : Config.Params) (off : Nat) : Prop :=
  off ≤ 0x00C ∨ (0x040 ≤ off ∧ off ≤ 0x088) ∨ (0x090 ≤ off ∧ off ≤ 0x098) ∨ (0x0A0 ≤ off ∧ off ≤ 0x0D4) ∨
    (0x400 ≤ off ∧ off < 0x400 + 4 * (p.maxLevels / 16))

/-- The offsets whose writes are dropped while BUSY (20_memory.md R155): CTRL, CMD, the operand registers and the sample
words. -/
def droppedWhileBusyAt (p : Config.Params) (off : Nat) : Prop :=
  off = 0x010 ∨ off = 0x014 ∨ (0x01C ≤ off ∧ off ≤ 0x02C) ∨ (0x10000 ≤ off ∧ off < 0x10000 + 4 * p.bufWords)

/-- The successful completion of a command: the result `commits`, the valid bits are `valid`, and every other field is
as before but STATUS, the phase and the model's draw counter (43_control.md R363). -/
def succeeded (valid : Status → Status) (commits : State → State) (s : State) : State :=
  { commits s with
    status := { valid s.status with done := true, err := false, errCode := .ok }
    phase := .idle, staged := none, draws := s.draws + 1 }

/-- The error completion of a command with code `c`: nothing changes but the valid bits `valid`, STATUS, the phase and
the model's draw counter (43_control.md R365, 60_exceptions.md R404). -/
def failed (valid : Status → Status) (c : ErrCode) (s : State) : State :=
  { s with
    status := { valid s.status with done := true, err := true, errCode := c }
    phase := .idle, staged := none, draws := s.draws + 1 }

/-- The laws of a SCAN group written by a successful SCAN (40_bitstream_scanner.md R221, R222). -/
structure ScanGroup.lawful (g : ScanGroup) : Prop where
  widths : g.pulseWidth0.toNat + g.pulseWidth1.toNat = g.totalSamples.toNat
  counts : g.pulseCount0.toNat + g.pulseCount1.toNat = g.transitions.toNat + 1
  high : g.highCount = g.pulseWidth1
  fewTransitions : g.transitions.toNat + 1 ≤ g.totalSamples.toNat
  zeroWidth0 : g.pulseCount0 = 0 ↔ g.pulseWidth0 = 0
  zeroWidth1 : g.pulseCount1 = 0 ↔ g.pulseWidth1 = 0
  /-- Every run has a length of at least 1 (42_rle_spike_merger.md R302). -/
  longRuns0 : g.pulseCount0.toNat ≤ g.pulseWidth0.toNat
  longRuns1 : g.pulseCount1.toNat ≤ g.pulseWidth1.toNat

/-- The invariant every step keeps. -/
structure State.Inv (s : State) : Prop where
  /-- The sample buffer has its canonical form. -/
  memCanonical : s.mem.wf
  /-- Only sample words of the buffer are stored (20_memory.md R146). -/
  memInWindow : ∀ a, (memGet s.mem a).isSome → 0x10000 ≤ a ∧ a < 0x10000 + 4 * s.params.bufWords
  /-- A word is stored whole or not at all (R158). -/
  memWhole : ∀ i j, j < 4 → (memGet s.mem (sampleAddr i + j)).isSome = (memGet s.mem (sampleAddr i)).isSome
  /-- `ERR = (ERRCODE != 0)` (10_state.md R61). -/
  errIffCode : s.status.err = (s.status.errCode != .ok)
  /-- While BUSY, DONE and ERRCODE are clear and LAST_OP is the accepted opcode (R60, R64, R65). -/
  busyStatus : ∀ op, s.phase = .busy op →
    s.status.done = false ∧ s.status.errCode = .ok ∧ s.status.lastOp = op.word.extractLsb' 0 4
  /-- The latched operands are the registers' values: nothing can change them while BUSY (43_control.md R361). That all of
  them are latched for every command is the model's choice (log 10). -/
  latchHolds : ∀ op, s.phase = .busy op → op = latch op.word s
  /-- Nothing stays staged between events, BUSY or not: the model runs a command in the one step of its completion
  (log 3). -/
  nothingStaged : s.staged = none
  /-- The levels memory has MAX_LEVELS entries (10_state.md R120). -/
  levelsSize : s.levels.length = s.params.maxLevels
  /-- LEVEL_COUNT is at most MAX_LEVELS (R93). -/
  levelCountBound : s.reduce.levelCount.toNat ≤ s.params.maxLevels
  /-- LEVEL_COUNT is at least 1 after a successful REDUCE (R93). -/
  levelCountPositive : s.status.reduceValid = true → 1 ≤ s.reduce.levelCount.toNat
  /-- No entry below LEVEL_COUNT is Empty (R120). -/
  levelsFilled : ∀ j, j < s.reduce.levelCount.toNat → s.levels.getD j .empty ≠ .empty
  /-- MARKERS counts the Indeterminate entries (R94). -/
  markersCounted :
    s.reduce.markers.toNat = (s.levels.take s.reduce.levelCount.toNat).count .indeterminate
  /-- `MERGES = RUNS_BUILT - RUNS_LEFT` always (R92). -/
  mergesCounted : s.reduce.runsLeft.toNat + s.reduce.merges.toNat = s.reduce.runsBuilt.toNat
  /-- The run memory holds at most RUN_CAP entries (R131). -/
  runMemBound : s.runMem.length ≤ s.params.runCap
  /-- SCAN_VALID means a lawful SCAN group (40_bitstream_scanner.md R221, R222). -/
  scanLawful : s.status.scanValid = true → s.scan.lawful
  /-- `T = 32 * n` (10_state.md R77). -/
  totalIsWords : s.scan.totalSamples.toNat = 32 * s.scan.scanWords.toNat
  /-- FIRST_COUNT is `min(10, n)` (R79). -/
  firstCountIsMin : s.scan.firstCount.toNat = min 10 s.scan.scanWords.toNat
  /-- FIRST_WORDj holds 0 at or beyond FIRST_COUNT (R80). -/
  firstWordsZero : ∀ j : Fin 10, s.scan.firstCount.toNat ≤ j.val → s.scan.firstWords[j] = 0
  /-- PROBE_INDEX is 0 when ACTIVE = 0 and at least 1 otherwise (R81, R210). -/
  probeIndexZero : s.probe.active = false ↔ s.probe.index = 0
  /-- While `rst` is asserted the core is in its reset state (70_reset_and_hazards.md R450), whose levels and run memories
  are the model's choice (logs 8, 9). -/
  heldInReset : s.rst = true →
    s = { State.resetWith s.params with rst := true, events := s.events, draws := s.draws }

/-- What each register of 10_state.md section 2 reads, by offset, but for the constants, CTRL and STATUS. -/
def registerMap (s : State) : List (Word × Word) :=
  ([(0x014, 0), (0x01C, s.wordCount), (0x020, s.sampleRateLo), (0x024, s.sampleRateHi), (0x028, s.markHint),
    (0x02C, s.sampleIndex)] : List (Word × Word)) ++
  ([(0x040, s.scan.highCount), (0x044, s.scan.transitions), (0x048, s.scan.pulseWidth0), (0x04C, s.scan.pulseWidth1),
    (0x050, s.scan.pulseCount0), (0x054, s.scan.pulseCount1), (0x058, s.scan.totalSamples),
    (0x05C, s.scan.scanWords), (0x060, s.scan.firstCount)] : List (Word × Word)) ++
  ([(0x064, s.scan.firstWords[0]), (0x068, s.scan.firstWords[1]), (0x06C, s.scan.firstWords[2]),
    (0x070, s.scan.firstWords[3]), (0x074, s.scan.firstWords[4]), (0x078, s.scan.firstWords[5]),
    (0x07C, s.scan.firstWords[6]), (0x080, s.scan.firstWords[7]), (0x084, s.scan.firstWords[8]),
    (0x088, s.scan.firstWords[9])] : List (Word × Word)) ++
  ([(0x090, if s.probe.active then 1 else 0), (0x094, s.probe.index), (0x098, if s.sampleBit then 1 else 0)] : List (Word × Word)) ++
  ([(0x0A0, s.derive.dutyCycle), (0x0A4, s.derive.avgHighPulse), (0x0A8, s.derive.avgLowPulse),
    (0x0AC,
      match s.derive.signalType with
      | .unknown => 0
      | .constant => 1
      | .perfectSquare => 2
      | .periodic => 3),
    (0x0B0, s.derive.durationLo), (0x0B4, s.derive.durationHi), (0x0B8, s.derive.freqLo), (0x0BC, s.derive.freqHi)] : List (Word × Word)) ++
  ([(0x0C0, s.reduce.threshold), (0x0C4, s.reduce.runsBuilt), (0x0C8, s.reduce.runsLeft), (0x0CC, s.reduce.merges),
    (0x0D0, s.reduce.levelCount), (0x0D4, s.reduce.markers)] : List (Word × Word))

/-- The committed results: every result group and the levels memory (43_control.md R364). -/
def committedResults (s : State) : ScanGroup × ProbeGroup × Bool × DeriveGroup × ReduceGroup × List Level :=
  (s.scan, s.probe, s.sampleBit, s.derive, s.reduce, s.levels)

/-- The five valid bits of STATUS: PROBE, SCAN, DERIVE, REDUCE, SAMPLE (10_state.md R66). -/
def validBits (st : Status) : Bool × Bool × Bool × Bool × Bool :=
  (st.probeValid, st.scanValid, st.deriveValid, st.reduceValid, st.sampleValid)

/-- What nothing outside the core can see: the run memory, and the levels at or beyond LEVEL_COUNT (10_state.md R131,
70_reset_and_hazards.md R453). Two states are alike when they agree on everything else. -/
def alike (s t : State) : Prop :=
  t = { s with levels := t.levels, runMem := t.runMem } ∧ ∀ j, levelEntry s j = levelEntry t j

/-- Two outcomes are alike: the same kind, with states alike. -/
def alikeOutcomes (x y : Host.Outcome State Fault Refusal) : Prop :=
  match x, y with
  | .next s, .next t => alike s t
  | .refused r, .refused q => r = q
  | _, _ => False

end Sys2Proof.Machine
end

