-- ==== Sys2Proof/Certificates/Slice0/Obligations.lean ====
section
/-! DEFINITION. The statements about the core, from the numbered rules of spec/. -/

open Sys2Proof Sys2Proof.Machine

/-! ### Encoding -/

/-- R181, R182: a word selects a command exactly when it is that command's word, and every other word selects none. -/
def Obligations.DecodeSelectsExactlyTheSixWords : Prop :=
  (∀ (w : Word) (i : Instr), decode w = .ok i ↔ w = encode i) ∧
    (∀ w : Word, (∀ i, w ≠ encode i) ↔ ∃ e, decode w = .error e) ∧
    (∀ w : Word, 1 ≤ w.toNat ∧ w.toNat ≤ 6 ↔ ∃ i, decode w = .ok i)

/-- R181 and the corner words of R367, written out. -/
def Obligations.SpecWordsDecodeAsWritten : Prop :=
  decode 0x00000001#32 = .ok .probe ∧ decode 0x00000002#32 = .ok .scan ∧ decode 0x00000003#32 = .ok .derive ∧
    decode 0x00000004#32 = .ok .reduce ∧ decode 0x00000005#32 = .ok .sample ∧ decode 0x00000006#32 = .ok .clear ∧
    (∃ e, decode 0x00000000#32 = .error e) ∧ (∃ e, decode 0x0000000F#32 = .error e) ∧
    (∃ e, decode 0x00000011#32 = .error e) ∧ (∃ e, decode 0x80000002#32 = .error e)

/-! ### The step -/

/-- R362: when a command is in flight and the engine moves next, the step is `exec` of the command its word decodes to,
at the state without the engine's turn. -/
def Obligations.StepRunsTheCommandInFlight : Prop :=
  ∀ (s : State) (op : Latched) (i : Instr), s.phase = .busy op → decode op.word = .ok i →
    (s.events = [] → step s = exec i s) ∧
      ∀ es, s.events = .engine :: es → step s = exec i { s with events := es }

/-- R161, R425, R50: every step takes exactly one event of the sequence and keeps the parameters, and an IDLE engine
does nothing on its turn. -/
def Obligations.StepTakesOneEvent : Prop :=
  (∀ s t : State, step s = .next t → t.params = s.params ∧ t.events = s.events.tail) ∧
  ∀ s : State, s.phase = .idle →
    (s.events = [] → step s = .next s) ∧
      ∀ es, s.events = .engine :: es → step s = .next { s with events := es }

/-- R360, R361: an aligned 32-bit write of `w` to CMD while IDLE clears DONE, ERR and ERRCODE, records LAST_OP, latches
the operands and makes the phase BUSY; it changes nothing else. That the whole word is held, and that every operand is
latched whatever the command, is the model's choice (log 10). -/
def Obligations.CommandWriteWhileIdleIsAccepted : Prop :=
  ∀ (s : State) (w : Word) (es : List Event), s.rst = false → s.phase = .idle →
    s.events = .access (.write .w32 0x014 w) :: es →
    step s = .next
      { s with
        events := es
        status := { s.status with done := false, err := false, errCode := .ok, lastOp := w.extractLsb' 0 4 }
        phase := .busy
          { word := w, wordCount := s.wordCount, sampleIndex := s.sampleIndex
            rate := s.sampleRateHi ++ s.sampleRateLo, markEn := s.markEn, markHint := s.markHint
            scanValid := s.status.scanValid, scan := s.scan } }

/-- R367: a reserved word is accepted with its LAST_OP, performs no operation and completes with BAD_OPCODE, so that
ERRCODE reads 7, ERR and DONE set; no result register and no valid bit changes. The draw counter is the model's own
(log 5), and the staging copy is discarded (R365). -/
def Obligations.ReservedWordCompletesWithBadOpcode : Prop :=
  ∀ (s t : State) (w : Word) (es : List Event), s.rst = false → s.phase = .idle → (∀ i, w ≠ encode i) →
    s.events = .access (.write .w32 0x014 w) :: .engine :: es → step s = .next t →
    ∃ u : State, step t = .next u ∧ (readReg u .status).extractLsb' 8 4 = 7#4 ∧
      u =
        { s with
          events := es, staged := none, draws := s.draws + 1
          status := { s.status with done := true, err := true, errCode := .badOpcode, lastOp := w.extractLsb' 0 4 } }

/-- The model's choice (log 4): run outside a command in flight, `exec` is the whole life cycle with latency 0, the CMD
write of R360 and the completion of R363. -/
def Obligations.ExecWhileIdleIsWriteThenCompletion : Prop :=
  ∀ (i : Instr) (s t : State) (es : List Event), s.rst = false → s.phase = .idle →
    s.events = .access (.write .w32 0x014 (encode i)) :: .engine :: es → step s = .next t →
    step t = exec i { s with events := es }

/-- R363, R61: every command completes from every state: the phase is IDLE, DONE is set and ERR says whether ERRCODE is
nonzero. -/
def Obligations.EveryCommandCompletes : Prop :=
  ∀ (i : Instr) (s : State), ∃ t, exec i s = .next t ∧ t.phase = .idle ∧ t.staged = none ∧ t.status.done = true ∧
    t.status.err = (t.status.errCode != .ok)

/-- R363, R472: an accepted command completes after finitely many events, whatever the host does meanwhile short of a
reset: some prefix of the events to come, or all of them and the engine's turn, leads to an IDLE phase. -/
def Obligations.AcceptedCommandCompletesEventually : Prop :=
  ∀ (s : State) (op : Latched), s.phase = .busy op → s.rst = false → (∀ b, Event.reset b ∉ s.events) →
    ∃ (k : Nat) (t : State), k ≤ s.events.length + 1 ∧ Host.Core.run core k s = .next t ∧ t.phase = .idle ∧
      t.status.done = true

/-! ### Host accesses -/

/-- R151: an access that is not 32 bits wide at a multiple of 4 is refused: a read returns 0, a write changes nothing,
AERR is set. -/
def Obligations.OddAccessesAreRefused : Prop :=
  ∀ (s : State) (a : Access) (es : List Event), s.rst = false → s.events = .access a :: es →
    (a.width ≠ .w32 ∨ a.offset.toNat % 4 ≠ 0) →
    step s = .next
      { s with
        events := es, status := { s.status with aerr := true }
        readData := match a with
          | .read _ _ => 0
          | .write _ _ _ => s.readData }

/-- R152, R96: so is an aligned access to a reserved or unmapped offset. -/
def Obligations.UnmappedAccessesAreRefused : Prop :=
  ∀ (s : State) (off v : Word) (es : List Event), s.rst = false → off.toNat % 4 = 0 → noStateAt s.params off.toNat →
    (s.events = .access (.read .w32 off) :: es →
      step s = .next { s with events := es, status := { s.status with aerr := true }, readData := 0 }) ∧
    (s.events = .access (.write .w32 off v) :: es →
      step s = .next { s with events := es, status := { s.status with aerr := true } })

/-- R153, R157: a write to a read-only register is refused in both phases, with AERR and not WERR. -/
def Obligations.ReadOnlyWritesAreRefused : Prop :=
  ∀ (s : State) (off v : Word) (es : List Event), s.rst = false → off.toNat % 4 = 0 → readOnlyAt s.params off.toNat →
    s.events = .access (.write .w32 off v) :: es →
    step s = .next { s with events := es, status := { s.status with aerr := true } }

/-- R155: a write to an RW register, CMD or a sample word while BUSY is dropped and sets WERR. -/
def Obligations.WritesWhileBusyAreDropped : Prop :=
  ∀ (s : State) (op : Latched) (off v : Word) (es : List Event), s.rst = false → s.phase = .busy op →
    off.toNat % 4 = 0 → droppedWhileBusyAt s.params off.toNat → s.events = .access (.write .w32 off v) :: es →
    step s = .next { s with events := es, status := { s.status with werr := true } }

/-- R156, R56: while IDLE a write to an RW register stores the value, CTRL only its low two bits. -/
def Obligations.OperandWritesWhileIdleAreStored : Prop :=
  ∀ (s : State) (off v : Word) (es : List Event), s.rst = false → s.phase = .idle →
    s.events = .access (.write .w32 off v) :: es →
    (off = 0x010 → step s = .next { s with events := es, markEn := v.getLsbD 0, ie := v.getLsbD 1 }) ∧
    (off = 0x01C → step s = .next { s with events := es, wordCount := v }) ∧
    (off = 0x020 → step s = .next { s with events := es, sampleRateLo := v }) ∧
    (off = 0x024 → step s = .next { s with events := es, sampleRateHi := v }) ∧
    (off = 0x028 → step s = .next { s with events := es, markHint := v }) ∧
    (off = 0x02C → step s = .next { s with events := es, sampleIndex := v })

/-- R156, R146, R158: while IDLE a write to SAMPLE_WORD_i stores all 32 bits of it, leaves every other word and every
byte outside it as it was, and keeps the buffer's canonical form. -/
def Obligations.SampleWritesWhileIdleAreStored : Prop :=
  ∀ (s : State) (i : Nat) (v : Word) (es : List Event), s.rst = false → s.phase = .idle → i < s.params.bufWords →
    s.mem.wf → s.events = .access (.write .w32 (BitVec.ofNat 32 (0x10000 + 4 * i)) v) :: es →
    ∃ m, step s = .next { s with events := es, mem := m } ∧ m.wf ∧ loadWord m i = some v ∧
      (∀ j, j ≠ i → loadWord m j = loadWord s.mem j) ∧
      ∀ a, (a < sampleAddr i ∨ sampleAddr i + 4 ≤ a) → memGet m a = memGet s.mem a

/-- R68, R67, R157: a write of `v` to STATUS clears DONE, WERR and AERR where its bits 1, 3 and 4 are 1 and changes
nothing else, in both phases. -/
def Obligations.StatusWritesClearOnlyTheirBits : Prop :=
  ∀ (s : State) (v : Word) (es : List Event), s.rst = false → s.events = .access (.write .w32 0x018 v) :: es →
    step s = .next
      { s with
        events := es
        status :=
          { s.status with
            done := if v.getLsbD 1 then false else s.status.done
            werr := if v.getLsbD 3 then false else s.status.werr
            aerr := if v.getLsbD 4 then false else s.status.aerr } }

/-- R52, R53, R55: the identity registers read their constants in every state. So does PARAM_RUN_CAP (R54) for a RUN_CAP
that fits the register; of a larger one the spec states no reading, and nothing is said here (log 7). -/
def Obligations.IdentityRegistersReadConstants : Prop :=
  ∀ (s : State) (es : List Event), s.rst = false →
    (s.events = .access (.read .w32 0x000) :: es → step s = .next { s with events := es, readData := 0x5A585431 }) ∧
    (s.events = .access (.read .w32 0x004) :: es →
      ∃ d, step s = .next { s with events := es, readData := d } ∧ d.toNat = s.params.bufWords) ∧
    (s.events = .access (.read .w32 0x008) :: es →
      ∃ d, step s = .next { s with events := es, readData := d } ∧
        (s.params.runCap < 2 ^ 32 → d.toNat = s.params.runCap)) ∧
    (s.events = .access (.read .w32 0x00C) :: es →
      ∃ d, step s = .next { s with events := es, readData := d } ∧ d.toNat = s.params.maxLevels ∧
        (d = 32 ∨ d = 128))

/-- R154 over the register map of 10_state.md section 2: an aligned read returns the register's committed value and
changes no state of the core, whatever the phase. CMD reads 0. -/
def Obligations.ReadsReturnTheRegisterMap : Prop :=
  ∀ (s : State) (off d : Word) (es : List Event), s.rst = false → s.events = .access (.read .w32 off) :: es →
    (off, d) ∈ registerMap s →
    step s = .next { s with events := es, readData := d }

/-- R58, R59, R67, R56: the fields of the words STATUS and CTRL read as, bit by bit, ERRCODE with the numbers of R401; the
reserved bits read 0. -/
def Obligations.StatusAndControlWordsHaveTheirFields : Prop :=
  ∀ (s : State) (es : List Event), s.rst = false →
    (s.events = .access (.read .w32 0x018) :: es →
      ∃ d, step s = .next { s with events := es, readData := d } ∧
        (d.getLsbD 0 = true ↔ s.phase ≠ .idle) ∧ d.getLsbD 1 = s.status.done ∧ d.getLsbD 2 = s.status.err ∧
        d.getLsbD 3 = s.status.werr ∧ d.getLsbD 4 = s.status.aerr ∧ d.extractLsb' 5 3 = 0 ∧
        d.extractLsb' 8 4 =
          (match s.status.errCode with
          | .ok => 0#4
          | .emptyBuffer => 1#4
          | .bufferTooSmall => 2#4
          | .wordCountRange => 3#4
          | .noScan => 4#4
          | .badRate => 5#4
          | .runOverflow => 6#4
          | .badOpcode => 7#4) ∧
        d.extractLsb' 12 4 = 0 ∧
        d.extractLsb' 16 4 = s.status.lastOp ∧ d.extractLsb' 20 4 = 0 ∧ d.getLsbD 24 = s.status.probeValid ∧
        d.getLsbD 25 = s.status.scanValid ∧ d.getLsbD 26 = s.status.deriveValid ∧
        d.getLsbD 27 = s.status.reduceValid ∧ d.getLsbD 28 = s.status.sampleValid ∧ d.extractLsb' 29 3 = 0) ∧
    (s.events = .access (.read .w32 0x010) :: es →
      ∃ d, step s = .next { s with events := es, readData := d } ∧
        d.getLsbD 0 = s.markEn ∧ d.getLsbD 1 = s.ie ∧ d.extractLsb' 2 30 = 0)

/-- R121, R147: the LEVELS word `w` holds entries `16w` to `16w + 15`, each in its two bits with the code of R120 (Zero 0,
One 1, Indeterminate 2, Empty 3); positions at or beyond LEVEL_COUNT read Empty, so with LEVEL_COUNT 0 every word reads all ones. -/
def Obligations.LevelsWordsPackTheEntries : Prop :=
  ∀ (s : State) (w : Nat) (es : List Event), s.rst = false → w < s.params.maxLevels / 16 →
    s.events = .access (.read .w32 (BitVec.ofNat 32 (0x400 + 4 * w))) :: es →
    ∃ d, step s = .next { s with events := es, readData := d } ∧
      (∀ k, k < 16 → d.extractLsb' (2 * k) 2 =
        if 16 * w + k < s.reduce.levelCount.toNat then
          match s.levels.getD (16 * w + k) .empty with
          | .zero => 0#2
          | .one => 1#2
          | .indeterminate => 2#2
          | .empty => 3#2
        else 3#2) ∧
      (s.reduce.levelCount = 0 → d = 0xFFFFFFFF)

/-- R154, R156, R452: a host read of a written sample word returns the stored word. A read of a word not written since
reset returns a free value, another one at each read (the model's form of R452's independent draws, log 5). -/
def Obligations.SampleReadsReturnTheStoredWord : Prop :=
  ∀ (s : State) (i : Nat) (es : List Event), s.rst = false → i < s.params.bufWords →
    s.events = .access (.read .w32 (BitVec.ofNat 32 (0x10000 + 4 * i))) :: es →
    (∀ v, loadWord s.mem i = some v → step s = .next { s with events := es, readData := v, draws := s.draws + 1 }) ∧
    (loadWord s.mem i = none →
      step s = .next
        { s with events := es, readData := Config.unspecifiedWord s.draws i, draws := s.draws + 1 })

/-- R155, R165, R403: while BUSY no host access changes anything but DONE, WERR, AERR, the value read and the model's
draw counter: not the command in flight, its operands, the sample buffer or a result. No access sets both AERR and
WERR anew (R157). -/
def Obligations.BusyAccessesLeaveTheCommandAlone : Prop :=
  ∀ (s : State) (op : Latched) (a : Access) (es : List Event), s.rst = false → s.phase = .busy op →
    s.events = .access a :: es →
    ∃ (done werr aerr : Bool) (data : Word) (draws : Nat),
      step s = .next
        { s with
          events := es, readData := data, draws := draws
          status := { s.status with done := done, werr := werr, aerr := aerr } } ∧
      (done = true → s.status.done = true) ∧
      ¬(werr = true ∧ s.status.werr = false ∧ aerr = true ∧ s.status.aerr = false)

/-- R450: a host access while `rst` is asserted is refused by name: the spec defines none. -/
def Obligations.AccessDuringResetIsRefused : Prop :=
  ∀ (s : State) (a : Access) (es : List Event), s.rst = true → s.events = .access a :: es →
    step s = .refused .accessDuringReset

/-! ### Reset and interrupt -/

/-- R450: the reset state, whatever the parameters: every register reads its reset value, every LEVELS word all ones,
IDLE, irq low. PARAM_RUN_CAP is bound to a RUN_CAP that fits the register: the spec states no value for another
(log 7). -/
def Obligations.ResetStateReadsTheTable : Prop :=
  State.reset = State.resetWith Config.params ∧
  ∀ p : Config.Params,
    (∀ r : Reg, (r = .paramRunCap → p.runCap < 2 ^ 32) → readReg (State.resetWith p) r =
      match r with
      | .id => 0x5A585431#32
      | .paramBufWords => BitVec.ofNat 32 p.bufWords
      | .paramRunCap => BitVec.ofNat 32 p.runCap
      | .paramMaxLevels => BitVec.ofNat 32 p.maxLevels
      | _ => 0#32) ∧
    (∀ w, levelsWord (State.resetWith p) w = 0xFFFFFFFF) ∧ (State.resetWith p).phase = .idle ∧
      (State.resetWith p).irq = false ∧ ∀ i, loadWord (State.resetWith p).mem i = none

/-- R451, R450: asserting and releasing `rst` leaves exactly the reset state, a command in flight abandoned; only the
events to come, and the model's draw counter (log 5), go on. -/
def Obligations.ResetAbandonsTheCommand : Prop :=
  ∀ (s t : State) (es : List Event), s.events = .reset true :: .reset false :: es → step s = .next t →
    t.phase = .idle ∧ t.status = Status.zero ∧
      step t = .next { State.resetWith s.params with events := es, draws := s.draws }

/-- R410: irq is high exactly when STATUS.DONE and CTRL.IE read 1; acceptance, the acknowledge, clearing IE and reset
lower it, and a completion, of a command or of a reserved word, raises it while IE is 1. -/
def Obligations.InterruptFollowsDoneAndEnable : Prop :=
  (∀ s : State, s.irq = true ↔ (readReg s .status).getLsbD 1 = true ∧ (readReg s .ctrl).getLsbD 1 = true) ∧
  (∀ (s t : State) (es : List Event) (w : Word), s.rst = false → s.phase = .idle →
    s.events = .access (.write .w32 0x014 w) :: es → step s = .next t → t.irq = false) ∧
  (∀ (s t : State) (es : List Event) (v : Word), s.rst = false → v.getLsbD 1 = true →
    s.events = .access (.write .w32 0x018 v) :: es → step s = .next t → t.irq = false) ∧
  (∀ (s t : State) (es : List Event) (v : Word), s.rst = false → s.phase = .idle →
    s.events = .access (.write .w32 0x010 v) :: es → step s = .next t → t.irq = (s.status.done && v.getLsbD 1)) ∧
  (∀ (s t : State) (es : List Event), s.events = .reset true :: es → step s = .next t → t.irq = false) ∧
  (∀ (i : Instr) (s t : State), exec i s = .next t → t.irq = s.ie) ∧
  ∀ (s t : State) (op : Latched), s.phase = .busy op → (s.events = [] ∨ ∃ es, s.events = .engine :: es) →
    step s = .next t → t.irq = s.ie

/-! ### SAMPLE, PROBE and SCAN -/

/-- R200, R201, R402: SAMPLE commits the sample at SAMPLE_INDEX among the first WORD_COUNT words, or fails with the
first error that holds; it changes nothing else. -/
def Obligations.SampleReadsTheAddressedSample : Prop :=
  ∀ (s : State) (op : Latched), s.phase = .busy op →
    (wordCountLegal op s → op.sampleIndex.toNat < 32 * op.wordCount.toNat →
      exec .sample s = .next (succeeded (fun st => { st with sampleValid := true })
        (fun u => { u with
          sampleBit := (sampleWord s (op.sampleIndex.toNat / 32)).getLsbD (op.sampleIndex.toNat % 32) }) s)) ∧
    (op.wordCount = 0 →
      exec .sample s = .next (failed (fun st => { st with sampleValid := false }) .emptyBuffer s)) ∧
    (s.params.bufWords < op.wordCount.toNat →
      exec .sample s = .next (failed (fun st => { st with sampleValid := false }) .wordCountRange s)) ∧
    (wordCountLegal op s → 32 * op.wordCount.toNat ≤ op.sampleIndex.toNat →
      exec .sample s = .next (failed (fun st => { st with sampleValid := false }) .bufferTooSmall s))

/-- R140, R141, R111: the analyzed samples are the bits of words 0 to n - 1, least significant first. -/
def Obligations.SamplesArePackedLeastSignificantFirst : Prop :=
  ∀ (s : State) (op : Latched),
    (analyzedSamples op s).length = 32 * op.wordCount.toNat ∧
      ∀ i, i < 32 * op.wordCount.toNat →
        sampleAt (analyzedSamples op s) i = (sampleWord s (i / 32)).getLsbD (i % 32)

/-- R210, R211, R212, R402: PROBE commits ACTIVE = 1 and the index of the first sample that differs from sample 0, or
ACTIVE = 0 and index 0 when there is none, or fails with the first error that holds; it changes nothing else. -/
def Obligations.ProbeFindsTheFirstTransition : Prop :=
  ∀ (s : State) (op : Latched), s.phase = .busy op →
    (∀ k, wordCountLegal op s → k < 32 * op.wordCount.toNat →
      sampleAt (analyzedSamples op s) k ≠ sampleAt (analyzedSamples op s) 0 →
      (∀ j, j < k → sampleAt (analyzedSamples op s) j = sampleAt (analyzedSamples op s) 0) →
      ∃ index : Word, index.toNat = k ∧
        exec .probe s = .next (succeeded (fun st => { st with probeValid := true })
          (fun u => { u with probe := { active := true, index := index } }) s)) ∧
    (wordCountLegal op s →
      (∀ j, j < 32 * op.wordCount.toNat →
        sampleAt (analyzedSamples op s) j = sampleAt (analyzedSamples op s) 0) →
      exec .probe s = .next (succeeded (fun st => { st with probeValid := true })
        (fun u => { u with probe := { active := false, index := 0 } }) s)) ∧
    (op.wordCount = 0 →
      exec .probe s = .next (failed (fun st => { st with probeValid := false }) .emptyBuffer s)) ∧
    (s.params.bufWords < op.wordCount.toNat →
      exec .probe s = .next (failed (fun st => { st with probeValid := false }) .wordCountRange s))

/-- R220, R223, R73 to R80, R82, R402: SCAN commits the counts of the analyzed samples, none of them wrapped: the ones,
the transitions by R223's definition, the sums and the numbers of the maximal runs per level, and the first words; or
fails with the first error that holds. It changes nothing else. -/
def Obligations.ScanCommitsTheCountsOfTheSamples : Prop :=
  ∀ (s : State) (op : Latched), s.phase = .busy op →
    (wordCountLegal op s → ∃ g : ScanGroup,
      exec .scan s = .next (succeeded (fun st => { st with scanValid := true, deriveValid := false })
        (fun u => { u with scan := g }) s) ∧
      g.highCount.toNat = (analyzedSamples op s).count true ∧
      g.transitions.toNat = transitionCount (analyzedSamples op s) ∧
      g.pulseWidth0.toNat = (lengthsAt false (buildRuns (analyzedSamples op s))).sum ∧
      g.pulseWidth1.toNat = (lengthsAt true (buildRuns (analyzedSamples op s))).sum ∧
      g.pulseCount0.toNat = (lengthsAt false (buildRuns (analyzedSamples op s))).length ∧
      g.pulseCount1.toNat = (lengthsAt true (buildRuns (analyzedSamples op s))).length ∧
      g.totalSamples.toNat = 32 * op.wordCount.toNat ∧ g.scanWords = op.wordCount ∧
      g.firstCount.toNat = min 10 op.wordCount.toNat ∧
      ∀ j : Fin 10, g.firstWords[j] = if j.val < op.wordCount.toNat then sampleWord s j.val else 0) ∧
    (op.wordCount = 0 →
      exec .scan s = .next (failed (fun st => { st with scanValid := false }) .emptyBuffer s)) ∧
    (s.params.bufWords < op.wordCount.toNat →
      exec .scan s = .next (failed (fun st => { st with scanValid := false }) .wordCountRange s))

/-- R221, R222: the laws of every successful SCAN. -/
def Obligations.SuccessfulScanIsLawful : Prop :=
  ∀ (s t : State) (op : Latched), s.phase = .busy op → exec .scan s = .next t → t.status.err = false →
    t.scan.lawful ∧
      (sampleAt (analyzedSamples op s) 0 = sampleAt (analyzedSamples op s) (32 * op.wordCount.toNat - 1) →
        if sampleAt (analyzedSamples op s) 0 then t.scan.pulseCount1.toNat = t.scan.pulseCount0.toNat + 1
        else t.scan.pulseCount0.toNat = t.scan.pulseCount1.toNat + 1) ∧
      (sampleAt (analyzedSamples op s) 0 ≠ sampleAt (analyzedSamples op s) (32 * op.wordCount.toNat - 1) →
        t.scan.pulseCount0 = t.scan.pulseCount1)

/-- R210: PROBE reports activity exactly when SCAN of the same inputs counts a transition. -/
def Obligations.ProbeAgreesWithScan : Prop :=
  ∀ (s t u : State) (op : Latched), s.phase = .busy op → exec .probe s = .next t → exec .scan s = .next u →
    t.status.err = false → (t.probe.active = true ↔ 1 ≤ u.scan.transitions.toNat)

/-- R111: sample words at index n and above do not affect any result: two states that differ only there complete every
command alike. -/
def Obligations.WordsBeyondTheCountDoNotMatter : Prop :=
  ∀ (i : Instr) (s t : State) (op : Latched) (m : Memory), s.phase = .busy op →
    (∀ k, k < op.wordCount.toNat → loadWord m k = loadWord s.mem k) → exec i s = .next t →
    exec i { s with mem := m } = .next { t with mem := m }

/-! ### DERIVE -/

/-- R250 to R254: DERIVE commits the metrics of the latched SCAN group in the primitives of R17, or fails with NO_SCAN,
then BAD_RATE, the rate being checked only when it is used. -/
def Obligations.DeriveCommitsTheMetrics : Prop :=
  ∀ (s : State) (op : Latched) (h t total pw0 pw1 pc0 pc1 : Nat), s.phase = .busy op →
    h = op.scan.highCount.toNat → t = op.scan.transitions.toNat → total = op.scan.totalSamples.toNat →
    pw0 = op.scan.pulseWidth0.toNat → pw1 = op.scan.pulseWidth1.toNat → pc0 = op.scan.pulseCount0.toNat →
    pc1 = op.scan.pulseCount1.toNat →
    (op.scanValid = true → (1 < t → isFinitePos op.rate = true) → ∃ dur freq : DWord,
      dur = (if 1 < t then div64 (to64 total) op.rate else 0) ∧
      freq = (if 1 < t then div64 (half64 t) dur else 0) ∧
      exec .derive s = .next (succeeded (fun st => { st with deriveValid := true })
        (fun u => { u with
          derive :=
            { dutyCycle := if 0 < total then rnd32 (100 * h) total else 0
              avgHighPulse := if 0 < pc1 then rnd32 pw1 pc1 else 0
              avgLowPulse := if 0 < pc0 then rnd32 pw0 pc0 else 0
              signalType :=
                if t = 0 then .constant else if t = 2 ∧ h = total / 2 then .perfectSquare
                else if 4 ≤ t then .periodic else .unknown
              durationLo := dur.extractLsb' 0 32, durationHi := dur.extractLsb' 32 32
              freqLo := freq.extractLsb' 0 32, freqHi := freq.extractLsb' 32 32 } }) s)) ∧
    (op.scanValid = false →
      exec .derive s = .next (failed (fun st => { st with deriveValid := false }) .noScan s)) ∧
    (op.scanValid = true → 1 < t → isFinitePos op.rate = false →
      exec .derive s = .next (failed (fun st => { st with deriveValid := false }) .badRate s))

/-- R251: a rate passes exactly when its sign is clear, its exponent is not all ones and it is not zero: +0.0, -0.0,
negative values, infinities and NaNs fail. -/
def Obligations.RateCheckAcceptsFinitePositive : Prop :=
  ∀ r : DWord, isFinitePos r = true ↔
    r.getLsbD 63 = false ∧ r.extractLsb' 52 11 ≠ 0x7FF ∧ r.extractLsb' 0 63 ≠ 0

/-- R17, R252, R254: the binary32 quotient is the nearest finite value, ties to even, unless it is +infinity; it is
+infinity exactly from the midpoint between the largest finite value and `2^128` up, and a quotient of at most 100 is at
most 100.0. -/
def Obligations.SingleQuotientIsNearestEven : Prop :=
  ∀ num den : Nat, 0 < den →
    ((rnd32 num den).toNat ≠ 0x7F800000 → isNearest 24 149 0x7F800000 (rnd32 num den).toNat num den) ∧
      ((rnd32 num den).toNat = 0x7F800000 ↔ (2 ^ 25 - 1) * 2 ^ 103 * den ≤ num) ∧
      (num ≤ 100 * den → (rnd32 num den).toNat ≤ 0x42C80000)

/-- R17, R253: the binary64 division of finite positive values is the nearest finite value, ties to even, unless it is
+infinity; it is +infinity exactly when the quotient reaches the midpoint between the largest finite value and `2^1024`;
and a count is converted exactly. -/
def Obligations.DoubleDivisionIsNearestEven : Prop :=
  (∀ a b : DWord, isFinitePos a = true → isFinitePos b = true →
    (div64 a b ≠ inf64 →
      isNearest 53 1074 0x7FF0000000000000 (div64 a b).toNat (magnitudeOf 53 a.toNat) (magnitudeOf 53 b.toNat)) ∧
    (div64 a b = inf64 ↔ (2 ^ 54 - 1) * 2 ^ 970 * magnitudeOf 53 b.toNat ≤ magnitudeOf 53 a.toNat)) ∧
  ∀ n : Nat, n < 2 ^ 53 →
    magnitudeOf 53 (to64 n).toNat = n * 2 ^ 1074 ∧ 2 * magnitudeOf 53 (half64 n).toNat = n * 2 ^ 1074

/-- R252, R255, R257: laws of the metrics of a lawful SCAN group: the duty cycle lies in [0, 100] and reaches both ends,
an average is +0.0 exactly when its level has no sample and at least 1.0 otherwise, DURATION and FREQ are +0.0 without
two transitions, the type is Constant exactly without transitions. -/
def Obligations.DerivedMetricsObeyTheirLaws : Prop :=
  ∀ (g : ScanGroup) (rate : DWord), g.lawful →
    (deriveMetrics g rate).dutyCycle.toNat ≤ 0x42C80000 ∧
    (g.highCount = 0 → (deriveMetrics g rate).dutyCycle = 0) ∧
    (g.highCount = g.totalSamples → (deriveMetrics g rate).dutyCycle = 0x42C80000) ∧
    ((deriveMetrics g rate).avgHighPulse = 0 ↔ g.highCount = 0) ∧
    ((deriveMetrics g rate).avgLowPulse = 0 ↔ g.highCount = g.totalSamples) ∧
    (g.highCount ≠ 0 → 0x3F800000 ≤ (deriveMetrics g rate).avgHighPulse.toNat) ∧
    (g.highCount ≠ g.totalSamples → 0x3F800000 ≤ (deriveMetrics g rate).avgLowPulse.toNat) ∧
    (g.transitions.toNat ≤ 1 → captureDuration g rate = 0 ∧ estimatedFreq g rate = 0) ∧
    ((deriveMetrics g rate).signalType = .constant ↔ g.transitions = 0)

/-- R257, R253 (conflict C13): with at least two transitions and a finite positive rate, DURATION is positive or
+infinity; FREQ is positive and finite when DURATION is finite, and +0.0 when it is +infinity. -/
def Obligations.FrequencyIsNeverInfinite : Prop :=
  ∀ (g : ScanGroup) (rate : DWord), g.lawful → 32 ≤ g.totalSamples.toNat → 2 ≤ g.transitions.toNat →
    isFinitePos rate = true →
    0 < (captureDuration g rate).toNat ∧ (captureDuration g rate).toNat ≤ inf64.toNat ∧
      (captureDuration g rate = inf64 → estimatedFreq g rate = 0) ∧
      (captureDuration g rate ≠ inf64 → isFinitePos (estimatedFreq g rate) = true)

/-! ### REDUCE -/

/-- R302: the run build: the list stands for the samples, every run has a length of at least 1, adjacent runs differ in
level, the lengths sum to T, and there is one run more than transitions. -/
def Obligations.RunBuildIsTheMaximalRuns : Prop :=
  ∀ bits : List Bool, expandRuns (buildRuns bits) = bits ∧ (∀ r ∈ buildRuns bits, 1 ≤ r.length) ∧
    (buildRuns bits).IsChain (fun a b => a.level ≠ b.level) ∧ totalLength (buildRuns bits) = bits.length ∧
    (bits ≠ [] → (buildRuns bits).length = transitionCount bits + 1)

/-- R304, R306: one merge: the first run into the next, the last into the previous, any other into the larger neighbour,
a tie to the previous; the neighbour keeps its level and grows by the absorbed length, the others are untouched, and
runs of one level left side by side are not joined. The run taken is the first below the threshold. -/
def Obligations.OneMergeFollowsTheNeighbourRule : Prop :=
  (∀ (x q : Run) (post : List Run),
    mergeRun (x :: q :: post) 0 = { level := q.level, length := q.length + x.length } :: post) ∧
  (∀ (pre : List Run) (p x : Run),
    mergeRun (pre ++ [p, x]) (pre.length + 1) = pre ++ [{ level := p.level, length := p.length + x.length }]) ∧
  (∀ (pre post : List Run) (p x q : Run),
    mergeRun (pre ++ p :: x :: q :: post) (pre.length + 1) =
      if q.length ≤ p.length then pre ++ { level := p.level, length := p.length + x.length } :: q :: post
      else pre ++ p :: { level := q.level, length := q.length + x.length } :: post) ∧
  (∀ (thr i : Nat) (runs : List Run), firstSpike thr runs = some i ↔
    i < runs.length ∧ lengthAt runs i < thr ∧ ∀ j, j < i → thr ≤ lengthAt runs j)

/-- R305, R92: the loop restarts from the beginning after each merge and ends when no run is below the threshold or one
is left; each merge removes one run and the lengths keep their sum. -/
def Obligations.MergeLoopRestartsUntilNoSpike : Prop :=
  ∀ (thr : Nat) (runs : List Run), runs ≠ [] →
    (runs.length = 1 ∨ firstSpike thr runs = none → mergeSpikes thr runs = (runs, 0)) ∧
    (∀ i, runs.length ≠ 1 → firstSpike thr runs = some i →
      mergeSpikes thr runs =
        ((mergeSpikes thr (mergeRun runs i)).1, (mergeSpikes thr (mergeRun runs i)).2 + 1)) ∧
    ((mergeSpikes thr runs).1.length = 1 ∨ ∀ r ∈ (mergeSpikes thr runs).1, thr ≤ r.length) ∧
    (mergeSpikes thr runs).1.length + (mergeSpikes thr runs).2 = runs.length ∧
    (mergeSpikes thr runs).2 ≤ runs.length - 1 ∧
    totalLength (mergeSpikes thr runs).1 = totalLength runs

/-- R310: the single left-to-right pass gives the same surviving runs and the same number of merges as the loop that
restarts after each merge. -/
def Obligations.SinglePassEqualsRestartLoop : Prop :=
  ∀ (thr : Nat) (runs : List Run), singlePass thr (2 * runs.length) 0 runs 0 = mergeSpikes thr runs

/-- R307: the emitted entries: each surviving run's level, and before run k >= 1 one Indeterminate entry exactly when
the mode is on, its level differs from run k - 1's and twice its length is below the hint; without the markers the level
sequence is left, and with the mode off or hint 0 there is none. -/
def Obligations.MarkersPrecedeShortLevelChanges : Prop :=
  (∀ (markEn : Bool) (hint : Nat) (r : Run), emitRuns markEn hint [r] = [levelOf r.level]) ∧
  (∀ (markEn : Bool) (hint : Nat) (pre : List Run) (p r : Run),
    emitRuns markEn hint (pre ++ [p, r]) =
      emitRuns markEn hint (pre ++ [p]) ++
        (if markEn = true ∧ r.level ≠ p.level ∧ 2 * r.length < hint then [.indeterminate, levelOf r.level]
         else [levelOf r.level])) ∧
  (∀ (markEn : Bool) (hint : Nat) (runs : List Run),
    (emitRuns markEn hint runs).filter (· ≠ .indeterminate) = runs.map fun r => levelOf r.level) ∧
  ∀ (markEn : Bool) (hint : Nat) (runs : List Run), markEn = false ∨ hint = 0 →
    Level.indeterminate ∉ emitRuns markEn hint runs

/-- R300, R303, R308, R301, R402: REDUCE on samples with a transition commits the threshold `max(1, T div 5t)`, the
counts of the merge loop, and the emitted entries cut to MAX_LEVELS with their count and their number of markers, none
of the counts wrapped; LEVEL[j] takes entry j. It fails with the first error that holds, RUN_OVERFLOW when the build
exceeds RUN_CAP. It changes nothing else the spec lets anyone see (the run memory is R131's). -/
def Obligations.ReduceCommitsTheReducedWaveform : Prop :=
  ∀ (s : State) (op : Latched) (runs out : List Run) (merges thr : Nat) (entries : List Level),
    s.phase = .busy op → runs = buildRuns (analyzedSamples op s) →
    thr = max 1 ((32 * op.wordCount.toNat) / (5 * (runs.length - 1))) → (out, merges) = mergeSpikes thr runs →
    entries = (emitRuns op.markEn op.markHint.toNat out).take s.params.maxLevels →
    (wordCountLegal op s → runs.length ≤ s.params.runCap → 2 ≤ runs.length →
      ∃ (g : ReduceGroup) (levels : List Level) (runMem : List RunEntry),
        exec .reduce s = .next (succeeded (fun st => { st with reduceValid := true })
          (fun u => { u with reduce := g, levels := levels, runMem := runMem }) s) ∧
        g.threshold.toNat = thr ∧ g.runsBuilt.toNat = runs.length ∧ g.runsLeft.toNat = out.length ∧
        g.merges.toNat = merges ∧ g.levelCount.toNat = entries.length ∧
        g.markers.toNat = entries.count .indeterminate ∧ 1 ≤ entries.length ∧
        (∀ j, j < entries.length → levels[j]? = entries[j]?) ∧
        (∀ j, entries.length ≤ j → levels[j]? = s.levels[j]?)) ∧
    (wordCountLegal op s → s.params.runCap < runs.length →
      exec .reduce s = .next (failed (fun st => { st with reduceValid := false }) .runOverflow s)) ∧
    (op.wordCount = 0 →
      exec .reduce s = .next (failed (fun st => { st with reduceValid := false }) .emptyBuffer s)) ∧
    (s.params.bufWords < op.wordCount.toNat →
      exec .reduce s = .next (failed (fun st => { st with reduceValid := false }) .wordCountRange s))

/-- R309: on constant samples REDUCE emits the one level and computes no threshold. -/
def Obligations.ReduceOfConstantSamplesEmitsOneLevel : Prop :=
  ∀ (s : State) (op : Latched) (level : Bool), s.phase = .busy op → wordCountLegal op s →
    (∀ j, j < 32 * op.wordCount.toNat → sampleAt (analyzedSamples op s) j = level) →
    ∃ (levels : List Level) (runMem : List RunEntry),
      exec .reduce s = .next (succeeded (fun st => { st with reduceValid := true })
        (fun u => { u with
          reduce := { threshold := 0, runsBuilt := 1, runsLeft := 1, merges := 0, levelCount := 1, markers := 0 }
          levels := levels, runMem := runMem }) s) ∧
      levels[0]? = some (if level then .one else .zero) ∧ ∀ j, 1 ≤ j → levels[j]? = s.levels[j]?

/-- R311: laws of a REDUCE with a transition: `1 <= thr <= T div 5`; when no run of the build is short nothing merges
and the entries are the run levels in order; without markers there is one entry per surviving run, cut to MAX_LEVELS. -/
def Obligations.ReductionObeysItsLaws : Prop :=
  ∀ (bits : List Bool) (runs : List Run) (thr maxLevels hint : Nat), runs = buildRuns bits → 32 ≤ bits.length →
    2 ≤ runs.length → thr = spikeThreshold bits.length (runs.length - 1) →
    1 ≤ thr ∧ thr ≤ bits.length / 5 ∧
    ((∀ r ∈ runs, thr ≤ r.length) → (mergeSpikes thr runs).2 = 0 ∧
      emitRuns false hint (mergeSpikes thr runs).1 = runs.map fun r => levelOf r.level) ∧
    ((emitRuns false hint (mergeSpikes thr runs).1).take maxLevels).length =
      min (mergeSpikes thr runs).1.length maxLevels

/-! ### CLEAR, errors, flags, frames -/

/-- R366: CLEAR returns every result group to its reset values and clears all five valid bits; it changes nothing else
and cannot fail. -/
def Obligations.ClearReturnsEveryResultToReset : Prop :=
  ∀ (s : State) (op : Latched), s.phase = .busy op →
    exec .clear s = .next (succeeded
      (fun st => { st with
        probeValid := false, scanValid := false, deriveValid := false, reduceValid := false, sampleValid := false })
      (fun u => { u with
        probe := { active := false, index := 0 }, sampleBit := false
        scan :=
          { highCount := 0, transitions := 0, pulseWidth0 := 0, pulseWidth1 := 0, pulseCount0 := 0, pulseCount1 := 0
            totalSamples := 0, scanWords := 0, firstCount := 0, firstWords := Vector.replicate 10 0 }
        derive :=
          { dutyCycle := 0, avgHighPulse := 0, avgLowPulse := 0, signalType := .unknown, durationLo := 0
            durationHi := 0, freqLo := 0, freqHi := 0 }
        reduce :=
          { threshold := 0, runsBuilt := 0, runsLeft := 0, merges := 0, levelCount := 0, markers := 0 } }) s)

/-- R404, R365: a failed command leaves every register and memory as it was, except the STATUS fields and the command's
own valid bit. -/
def Obligations.ErrorsArePrecise : Prop :=
  ∀ (i : Instr) (s t : State) (op : Latched), s.phase = .busy op → exec i s = .next t → t.status.errCode ≠ .ok →
    t = { s with status := t.status, phase := .idle, staged := none, draws := s.draws + 1 } ∧
      t.status =
        { s.status with
          done := true, err := true, errCode := t.status.errCode
          probeValid := if i = .probe then false else s.status.probeValid
          scanValid := if i = .scan then false else s.status.scanValid
          deriveValid := if i = .derive then false else s.status.deriveValid
          reduceValid := if i = .reduce then false else s.status.reduceValid
          sampleValid := if i = .sample then false else s.status.sampleValid }

/-- R66: the valid bits after each event of the table: reset, each command's success and failure, CLEAR, BAD_OPCODE; and
no host access changes one. -/
def Obligations.ValidBitsFollowTheTable : Prop :=
  validBits State.reset.status = (false, false, false, false, false) ∧
  (∀ (i : Instr) (s t : State) (p c d r b : Bool), exec i s = .next t → validBits s.status = (p, c, d, r, b) →
    validBits t.status =
      if t.status.err = false then
        match i with
        | .probe => (true, c, d, r, b)
        | .scan => (p, true, false, r, b)
        | .derive => (p, c, true, r, b)
        | .reduce => (p, c, d, true, b)
        | .sample => (p, c, d, r, true)
        | .clear => (false, false, false, false, false)
      else
        match i with
        | .probe => (false, c, d, r, b)
        | .scan => (p, false, d, r, b)
        | .derive => (p, c, false, r, b)
        | .reduce => (p, c, d, false, b)
        | .sample => (p, c, d, r, false)
        | .clear => (p, c, d, r, b)) ∧
  (∀ (s t : State) (op : Latched) (es : List Event), s.phase = .busy op → (∀ i, op.word ≠ encode i) →
    s.events = .engine :: es → step s = .next t → validBits t.status = validBits s.status) ∧
  ∀ (s t : State) (a : Access) (es : List Event), s.events = .access a :: es → step s = .next t →
    validBits t.status = validBits s.status

/-- R364, R313: a command writes its own result group only. Every operand register, CTRL, WERR, AERR, LAST_OP of the
accepted word, every byte of the sample buffer and the groups of other commands stay as they are; the levels memory and
the run memory are REDUCE's alone. -/
def Obligations.CommandsWriteOnlyTheirGroup : Prop :=
  ∀ (i : Instr) (s t : State) (op : Latched), s.phase = .busy op → exec i s = .next t →
    t.params = s.params ∧ t.markEn = s.markEn ∧ t.ie = s.ie ∧ t.wordCount = s.wordCount ∧
    t.sampleRateLo = s.sampleRateLo ∧ t.sampleRateHi = s.sampleRateHi ∧ t.markHint = s.markHint ∧
    t.sampleIndex = s.sampleIndex ∧ t.rst = s.rst ∧ t.events = s.events ∧ t.readData = s.readData ∧
    t.status.werr = s.status.werr ∧ t.status.aerr = s.status.aerr ∧ t.status.lastOp = s.status.lastOp ∧
    (∀ a, memGet t.mem a = memGet s.mem a) ∧
    (i ≠ .probe → i ≠ .clear → t.probe = s.probe) ∧ (i ≠ .scan → i ≠ .clear → t.scan = s.scan) ∧
    (i ≠ .derive → i ≠ .clear → t.derive = s.derive) ∧ (i ≠ .reduce → i ≠ .clear → t.reduce = s.reduce) ∧
    (i ≠ .sample → i ≠ .clear → t.sampleBit = s.sampleBit) ∧
    (i ≠ .reduce → t.levels = s.levels ∧ t.runMem = s.runMem)

/-! ### Whole-machine statements -/

/-- R62, R63, R403: the sticky flags. AERR rises only on an access R151 to R153 refuse and falls only by a STATUS write
with bit 4 set or a reset; WERR rises only on a write R155 drops and falls only by a STATUS write with bit 3 set or a
reset. Acceptance and completion change neither. -/
def Obligations.StickyFlagsHaveTheirOnlyCauses : Prop :=
  ∀ s t : State, step s = .next t →
    (s.status.aerr = false → t.status.aerr = true → ∃ a es, s.events = .access a :: es ∧
      (a.width ≠ .w32 ∨ a.offset.toNat % 4 ≠ 0 ∨ noStateAt s.params a.offset.toNat ∨
        ∃ w off v, a = .write w off v ∧ readOnlyAt s.params off.toNat)) ∧
    (s.status.aerr = true → t.status.aerr = false →
      (∃ v es, s.events = .access (.write .w32 0x018 v) :: es ∧ v.getLsbD 4 = true) ∨
        ∃ es, s.events = .reset true :: es) ∧
    (s.status.werr = false → t.status.werr = true → ∃ off v es, s.events = .access (.write .w32 off v) :: es ∧
      s.phase ≠ .idle ∧ droppedWhileBusyAt s.params off.toNat) ∧
    (s.status.werr = true → t.status.werr = false →
      (∃ v es, s.events = .access (.write .w32 0x018 v) :: es ∧ v.getLsbD 3 = true) ∨
        ∃ es, s.events = .reset true :: es)

/-- R60, R65, R59: DONE rises only at the completion of a command in flight and falls only at an acceptance, a STATUS
write with bit 1 set or a reset; LAST_OP changes only at an acceptance, to bits 3:0 of the word, or a reset. -/
def Obligations.DoneAndLastOpHaveTheirOnlyCauses : Prop :=
  ∀ s t : State, step s = .next t →
    (s.status.done = false → t.status.done = true → s.phase ≠ .idle ∧ t.phase = .idle ∧
      (s.events = [] ∨ ∃ es, s.events = .engine :: es)) ∧
    (s.status.done = true → t.status.done = false →
      (∃ w es, s.events = .access (.write .w32 0x014 w) :: es ∧ s.phase = .idle) ∨
      (∃ v es, s.events = .access (.write .w32 0x018 v) :: es ∧ v.getLsbD 1 = true) ∨
      ∃ es, s.events = .reset true :: es) ∧
    (t.status.lastOp ≠ s.status.lastOp →
      (∃ w es, s.events = .access (.write .w32 0x014 w) :: es ∧ s.phase = .idle ∧
        t.status.lastOp = w.extractLsb' 0 4) ∨
      ∃ es, s.events = .reset true :: es)

/-- R364, R470, R154, R110: the committed results change only when a command in flight completes or at a reset: no host
access changes one, in either phase. The sample buffer changes only by a host write to a sample word while IDLE or at a
reset: the engine never writes it. -/
def Obligations.ResultsAndSamplesHaveTheirOnlyWriters : Prop :=
  ∀ s t : State, step s = .next t →
    (committedResults t ≠ committedResults s →
      (s.phase ≠ .idle ∧ t.phase = .idle ∧ t.status.done = true ∧
        (s.events = [] ∨ ∃ es, s.events = .engine :: es)) ∨
      ∃ es, s.events = .reset true :: es) ∧
    (t.mem ≠ s.mem →
      (s.phase = .idle ∧ ∃ off v es, s.events = .access (.write .w32 off v) :: es ∧ 0x10000 ≤ off.toNat ∧
        off.toNat < 0x10000 + 4 * s.params.bufWords) ∨
      ∃ es, s.events = .reset true :: es)

/-- The reset state meets the invariant, whatever the parameters. -/
def Obligations.ResetMeetsTheInvariant : Prop := State.reset.Inv ∧ ∀ p, (State.resetWith p).Inv

/-- Every step keeps the invariant: the buffer's canonical form (R110), ERR against ERRCODE (R61), the latched operands
against the registers (R361), the levels and run memories' bounds (R120, R131), the laws of the SCAN and REDUCE groups
(R221, R222, R92 to R94, R77 to R81), and the reset state while `rst` is asserted (R450). Clauses of the invariant rest
on the model's choices: nothing is staged between events, even while BUSY (log 3); every command latches every operand
and the whole word (log 10); and while `rst` is asserted the levels memory is all Empty (log 8) and the run memory holds
nothing (log 9). -/
def Obligations.StepKeepsTheInvariant : Prop :=
  ∀ s t : State, s.Inv → step s = .next t → t.Inv

/-- R131, R453, R121: the run memory and the levels at or beyond LEVEL_COUNT affect nothing that can be seen: two states
alike in everything else step to states alike in everything else. -/
def Obligations.HiddenMemoriesNeverShow : Prop :=
  ∀ s t : State, alike s t → alikeOutcomes (step s) (step t)

/-- R190, R188, R363: `RUN op` from an IDLE core, in any place of a host program. Whatever the latency, the poll ends at its
first read after the completion; under every order of turns it cannot end before the command it started has completed,
with DONE = 1 and LAST_OP its own; and a poll of any register goes on exactly until the value read meets its condition.
The order of turns is the model's form of R472 (log 14). -/
def Obligations.RunEndsWithDoneSet : Prop :=
  (∀ (s : State) (w : Word) (waits : Nat) (rest : List HostOp) (bus : List Transfer), s.rst = false → s.phase = .idle →
    ∃ r : HostRun,
      runProgram (.host :: List.replicate waits .host ++ [.engine, .host])
        { todo := (Pseudo.run w).expand ++ rest, core := s, bus := bus } = .next r ∧
      r.todo = rest ∧ r.core.phase = .idle ∧ r.core.status.done = true ∧ r.core.status.lastOp = w.extractLsb' 0 4 ∧
      r.core.readData &&& 2 = 2 ∧ r.bus.length = bus.length + waits + 2) ∧
  (∀ (s : State) (w : Word) (turns : List Turn) (r : HostRun), s.rst = false → s.phase = .idle →
    runProgram turns { todo := (Pseudo.run w).expand, core := s, bus := [] } = .next r → r.todo = [] →
    r.core.phase = .idle ∧ r.core.status.done = true ∧ r.core.status.lastOp = w.extractLsb' 0 4) ∧
  ∀ (s : State) (off mask val : Word) (rest : List HostOp) (bus : List Transfer) (r : HostRun),
    runProgram [.host] { todo := .poll off mask val :: rest, core := s, bus := bus } = .next r →
    r.bus = bus ++ [{ write := false, offset := off, data := r.core.readData }] ∧
      r.todo = if r.core.readData &&& mask = val then rest else .poll off mask val :: rest

/-- R472, R155, R361, programs P5: the latency does not change a result. Whatever list of accesses the host makes between
acceptance and completion, reads and writes of any offset and width, dropped and refused ones too, the completion of the
command or reserved word in flight leaves everything as an immediate completion (latency 0) leaves it, but for the value
last read, the model's draw counter and the sticky flags WERR and AERR; these too are the same when every access is a
read that is performed. Words not written since reset are left out: they are new draws. -/
def Obligations.LatencyDoesNotChangeResults : Prop :=
  ∀ (s t u : State) (op : Latched) (accesses : List Access), s.phase = .busy op → s.rst = false →
    (∀ k, k < op.wordCount.toNat → (loadWord s.mem k).isSome = true) →
    Host.Core.run core (accesses.length + 1) { s with events := accesses.map Event.access ++ [.engine] } = .next t →
    step { s with events := [.engine] } = .next u →
    t =
      { u with
        readData := t.readData, draws := t.draws
        status := { u.status with werr := t.status.werr, aerr := t.status.aerr } } ∧
    ((∀ a ∈ accesses, ∃ off : Word, a = .read .w32 off ∧ off.toNat % 4 = 0 ∧ ¬noStateAt s.params off.toNat) →
      t.status.werr = u.status.werr ∧ t.status.aerr = u.status.aerr)

/-- R190, R146: `LOAD i, v0, v1, ...` from an IDLE core, in any place of a host program, stores the words from SAMPLE_WORD_i
up and leaves every other word and every other field as it was. -/
def Obligations.LoadStoresTheWords : Prop :=
  ∀ (s : State) (i : Nat) (vs : List Word) (rest : List HostOp) (bus : List Transfer), s.rst = false → s.phase = .idle →
    s.mem.wf → i + vs.length ≤ s.params.bufWords →
    ∃ (r : HostRun) (m : Memory),
      runProgram (List.replicate vs.length .host)
        { todo := (Pseudo.load i vs).expand ++ rest, core := s, bus := bus } = .next r ∧
      r.todo = rest ∧ r.core = { s with mem := m } ∧ m.wf ∧
      (∀ j, j < vs.length → loadWord m (i + j) = vs[j]?) ∧
      ∀ j, (j < i ∨ i + vs.length ≤ j) → loadWord m j = loadWord s.mem j
end

