-- ==== Sys2Proof/Laws/State.lean ====
section
/-! SUPPORT. One lemma per field per update of the state, each true by rfl, so that no later proof unfolds a record
update. -/

namespace Sys2Proof.Machine

@[simp] theorem accept_params (w : Word) (s : State) : (accept w s).params = s.params := rfl
@[simp] theorem accept_markEn (w : Word) (s : State) : (accept w s).markEn = s.markEn := rfl
@[simp] theorem accept_ie (w : Word) (s : State) : (accept w s).ie = s.ie := rfl
@[simp] theorem accept_status (w : Word) (s : State) : (accept w s).status = statusAccept w s.status := rfl
@[simp] theorem accept_wordCount (w : Word) (s : State) : (accept w s).wordCount = s.wordCount := rfl
@[simp] theorem accept_sampleRateLo (w : Word) (s : State) : (accept w s).sampleRateLo = s.sampleRateLo := rfl
@[simp] theorem accept_sampleRateHi (w : Word) (s : State) : (accept w s).sampleRateHi = s.sampleRateHi := rfl
@[simp] theorem accept_markHint (w : Word) (s : State) : (accept w s).markHint = s.markHint := rfl
@[simp] theorem accept_sampleIndex (w : Word) (s : State) : (accept w s).sampleIndex = s.sampleIndex := rfl
@[simp] theorem accept_scan (w : Word) (s : State) : (accept w s).scan = s.scan := rfl
@[simp] theorem accept_probe (w : Word) (s : State) : (accept w s).probe = s.probe := rfl
@[simp] theorem accept_sampleBit (w : Word) (s : State) : (accept w s).sampleBit = s.sampleBit := rfl
@[simp] theorem accept_derive (w : Word) (s : State) : (accept w s).derive = s.derive := rfl
@[simp] theorem accept_reduce (w : Word) (s : State) : (accept w s).reduce = s.reduce := rfl
@[simp] theorem accept_levels (w : Word) (s : State) : (accept w s).levels = s.levels := rfl
@[simp] theorem accept_mem (w : Word) (s : State) : (accept w s).mem = s.mem := rfl
@[simp] theorem accept_phase (w : Word) (s : State) : (accept w s).phase = .busy (latch w s) := rfl
@[simp] theorem accept_staged (w : Word) (s : State) : (accept w s).staged = s.staged := rfl
@[simp] theorem accept_runMem (w : Word) (s : State) : (accept w s).runMem = s.runMem := rfl
@[simp] theorem accept_rst (w : Word) (s : State) : (accept w s).rst = s.rst := rfl
@[simp] theorem accept_events (w : Word) (s : State) : (accept w s).events = s.events := rfl
@[simp] theorem accept_readData (w : Word) (s : State) : (accept w s).readData = s.readData := rfl
@[simp] theorem accept_draws (w : Word) (s : State) : (accept w s).draws = s.draws := rfl

@[simp] theorem stage_params (st : Staged) (s : State) : (stage st s).params = s.params := rfl
@[simp] theorem stage_markEn (st : Staged) (s : State) : (stage st s).markEn = s.markEn := rfl
@[simp] theorem stage_ie (st : Staged) (s : State) : (stage st s).ie = s.ie := rfl
@[simp] theorem stage_status (st : Staged) (s : State) : (stage st s).status = s.status := rfl
@[simp] theorem stage_wordCount (st : Staged) (s : State) : (stage st s).wordCount = s.wordCount := rfl
@[simp] theorem stage_sampleRateLo (st : Staged) (s : State) : (stage st s).sampleRateLo = s.sampleRateLo := rfl
@[simp] theorem stage_sampleRateHi (st : Staged) (s : State) : (stage st s).sampleRateHi = s.sampleRateHi := rfl
@[simp] theorem stage_markHint (st : Staged) (s : State) : (stage st s).markHint = s.markHint := rfl
@[simp] theorem stage_sampleIndex (st : Staged) (s : State) : (stage st s).sampleIndex = s.sampleIndex := rfl
@[simp] theorem stage_scan (st : Staged) (s : State) : (stage st s).scan = s.scan := rfl
@[simp] theorem stage_probe (st : Staged) (s : State) : (stage st s).probe = s.probe := rfl
@[simp] theorem stage_sampleBit (st : Staged) (s : State) : (stage st s).sampleBit = s.sampleBit := rfl
@[simp] theorem stage_derive (st : Staged) (s : State) : (stage st s).derive = s.derive := rfl
@[simp] theorem stage_reduce (st : Staged) (s : State) : (stage st s).reduce = s.reduce := rfl
@[simp] theorem stage_levels (st : Staged) (s : State) : (stage st s).levels = s.levels := rfl
@[simp] theorem stage_mem (st : Staged) (s : State) : (stage st s).mem = s.mem := rfl
@[simp] theorem stage_phase (st : Staged) (s : State) : (stage st s).phase = s.phase := rfl
@[simp] theorem stage_staged (st : Staged) (s : State) : (stage st s).staged = some st := rfl
@[simp] theorem stage_runMem (st : Staged) (s : State) : (stage st s).runMem = s.runMem := rfl
@[simp] theorem stage_rst (st : Staged) (s : State) : (stage st s).rst = s.rst := rfl
@[simp] theorem stage_events (st : Staged) (s : State) : (stage st s).events = s.events := rfl
@[simp] theorem stage_readData (st : Staged) (s : State) : (stage st s).readData = s.readData := rfl
@[simp] theorem stage_draws (st : Staged) (s : State) : (stage st s).draws = s.draws := rfl

@[simp] theorem discard_params (s : State) : (discard s).params = s.params := rfl
@[simp] theorem discard_markEn (s : State) : (discard s).markEn = s.markEn := rfl
@[simp] theorem discard_ie (s : State) : (discard s).ie = s.ie := rfl
@[simp] theorem discard_status (s : State) : (discard s).status = s.status := rfl
@[simp] theorem discard_wordCount (s : State) : (discard s).wordCount = s.wordCount := rfl
@[simp] theorem discard_sampleRateLo (s : State) : (discard s).sampleRateLo = s.sampleRateLo := rfl
@[simp] theorem discard_sampleRateHi (s : State) : (discard s).sampleRateHi = s.sampleRateHi := rfl
@[simp] theorem discard_markHint (s : State) : (discard s).markHint = s.markHint := rfl
@[simp] theorem discard_sampleIndex (s : State) : (discard s).sampleIndex = s.sampleIndex := rfl
@[simp] theorem discard_scan (s : State) : (discard s).scan = s.scan := rfl
@[simp] theorem discard_probe (s : State) : (discard s).probe = s.probe := rfl
@[simp] theorem discard_sampleBit (s : State) : (discard s).sampleBit = s.sampleBit := rfl
@[simp] theorem discard_derive (s : State) : (discard s).derive = s.derive := rfl
@[simp] theorem discard_reduce (s : State) : (discard s).reduce = s.reduce := rfl
@[simp] theorem discard_levels (s : State) : (discard s).levels = s.levels := rfl
@[simp] theorem discard_mem (s : State) : (discard s).mem = s.mem := rfl
@[simp] theorem discard_phase (s : State) : (discard s).phase = s.phase := rfl
@[simp] theorem discard_staged (s : State) : (discard s).staged = none := rfl
@[simp] theorem discard_runMem (s : State) : (discard s).runMem = s.runMem := rfl
@[simp] theorem discard_rst (s : State) : (discard s).rst = s.rst := rfl
@[simp] theorem discard_events (s : State) : (discard s).events = s.events := rfl
@[simp] theorem discard_readData (s : State) : (discard s).readData = s.readData := rfl
@[simp] theorem discard_draws (s : State) : (discard s).draws = s.draws := rfl

@[simp] theorem conclude_params (c : ErrCode) (s : State) : (conclude c s).params = s.params := rfl
@[simp] theorem conclude_markEn (c : ErrCode) (s : State) : (conclude c s).markEn = s.markEn := rfl
@[simp] theorem conclude_ie (c : ErrCode) (s : State) : (conclude c s).ie = s.ie := rfl
@[simp] theorem conclude_status (c : ErrCode) (s : State) : (conclude c s).status = statusConclude c s.status := rfl
@[simp] theorem conclude_wordCount (c : ErrCode) (s : State) : (conclude c s).wordCount = s.wordCount := rfl
@[simp] theorem conclude_sampleRateLo (c : ErrCode) (s : State) : (conclude c s).sampleRateLo = s.sampleRateLo := rfl
@[simp] theorem conclude_sampleRateHi (c : ErrCode) (s : State) : (conclude c s).sampleRateHi = s.sampleRateHi := rfl
@[simp] theorem conclude_markHint (c : ErrCode) (s : State) : (conclude c s).markHint = s.markHint := rfl
@[simp] theorem conclude_sampleIndex (c : ErrCode) (s : State) : (conclude c s).sampleIndex = s.sampleIndex := rfl
@[simp] theorem conclude_scan (c : ErrCode) (s : State) : (conclude c s).scan = s.scan := rfl
@[simp] theorem conclude_probe (c : ErrCode) (s : State) : (conclude c s).probe = s.probe := rfl
@[simp] theorem conclude_sampleBit (c : ErrCode) (s : State) : (conclude c s).sampleBit = s.sampleBit := rfl
@[simp] theorem conclude_derive (c : ErrCode) (s : State) : (conclude c s).derive = s.derive := rfl
@[simp] theorem conclude_reduce (c : ErrCode) (s : State) : (conclude c s).reduce = s.reduce := rfl
@[simp] theorem conclude_levels (c : ErrCode) (s : State) : (conclude c s).levels = s.levels := rfl
@[simp] theorem conclude_mem (c : ErrCode) (s : State) : (conclude c s).mem = s.mem := rfl
@[simp] theorem conclude_phase (c : ErrCode) (s : State) : (conclude c s).phase = .idle := rfl
@[simp] theorem conclude_staged (c : ErrCode) (s : State) : (conclude c s).staged = s.staged := rfl
@[simp] theorem conclude_runMem (c : ErrCode) (s : State) : (conclude c s).runMem = s.runMem := rfl
@[simp] theorem conclude_rst (c : ErrCode) (s : State) : (conclude c s).rst = s.rst := rfl
@[simp] theorem conclude_events (c : ErrCode) (s : State) : (conclude c s).events = s.events := rfl
@[simp] theorem conclude_readData (c : ErrCode) (s : State) : (conclude c s).readData = s.readData := rfl
@[simp] theorem conclude_draws (c : ErrCode) (s : State) : (conclude c s).draws = s.draws + 1 := rfl

@[simp] theorem dropWrite_params (s : State) : (dropWrite s).params = s.params := rfl
@[simp] theorem dropWrite_markEn (s : State) : (dropWrite s).markEn = s.markEn := rfl
@[simp] theorem dropWrite_ie (s : State) : (dropWrite s).ie = s.ie := rfl
@[simp] theorem dropWrite_status (s : State) : (dropWrite s).status = statusDropped s.status := rfl
@[simp] theorem dropWrite_wordCount (s : State) : (dropWrite s).wordCount = s.wordCount := rfl
@[simp] theorem dropWrite_sampleRateLo (s : State) : (dropWrite s).sampleRateLo = s.sampleRateLo := rfl
@[simp] theorem dropWrite_sampleRateHi (s : State) : (dropWrite s).sampleRateHi = s.sampleRateHi := rfl
@[simp] theorem dropWrite_markHint (s : State) : (dropWrite s).markHint = s.markHint := rfl
@[simp] theorem dropWrite_sampleIndex (s : State) : (dropWrite s).sampleIndex = s.sampleIndex := rfl
@[simp] theorem dropWrite_scan (s : State) : (dropWrite s).scan = s.scan := rfl
@[simp] theorem dropWrite_probe (s : State) : (dropWrite s).probe = s.probe := rfl
@[simp] theorem dropWrite_sampleBit (s : State) : (dropWrite s).sampleBit = s.sampleBit := rfl
@[simp] theorem dropWrite_derive (s : State) : (dropWrite s).derive = s.derive := rfl
@[simp] theorem dropWrite_reduce (s : State) : (dropWrite s).reduce = s.reduce := rfl
@[simp] theorem dropWrite_levels (s : State) : (dropWrite s).levels = s.levels := rfl
@[simp] theorem dropWrite_mem (s : State) : (dropWrite s).mem = s.mem := rfl
@[simp] theorem dropWrite_phase (s : State) : (dropWrite s).phase = s.phase := rfl
@[simp] theorem dropWrite_staged (s : State) : (dropWrite s).staged = s.staged := rfl
@[simp] theorem dropWrite_runMem (s : State) : (dropWrite s).runMem = s.runMem := rfl
@[simp] theorem dropWrite_rst (s : State) : (dropWrite s).rst = s.rst := rfl
@[simp] theorem dropWrite_events (s : State) : (dropWrite s).events = s.events := rfl
@[simp] theorem dropWrite_readData (s : State) : (dropWrite s).readData = s.readData := rfl
@[simp] theorem dropWrite_draws (s : State) : (dropWrite s).draws = s.draws := rfl

@[simp] theorem completeReserved_params (s : State) : (completeReserved s).params = s.params := rfl
@[simp] theorem completeReserved_markEn (s : State) : (completeReserved s).markEn = s.markEn := rfl
@[simp] theorem completeReserved_ie (s : State) : (completeReserved s).ie = s.ie := rfl
@[simp] theorem completeReserved_status (s : State) : (completeReserved s).status = statusConclude .badOpcode s.status := rfl
@[simp] theorem completeReserved_wordCount (s : State) : (completeReserved s).wordCount = s.wordCount := rfl
@[simp] theorem completeReserved_sampleRateLo (s : State) : (completeReserved s).sampleRateLo = s.sampleRateLo := rfl
@[simp] theorem completeReserved_sampleRateHi (s : State) : (completeReserved s).sampleRateHi = s.sampleRateHi := rfl
@[simp] theorem completeReserved_markHint (s : State) : (completeReserved s).markHint = s.markHint := rfl
@[simp] theorem completeReserved_sampleIndex (s : State) : (completeReserved s).sampleIndex = s.sampleIndex := rfl
@[simp] theorem completeReserved_scan (s : State) : (completeReserved s).scan = s.scan := rfl
@[simp] theorem completeReserved_probe (s : State) : (completeReserved s).probe = s.probe := rfl
@[simp] theorem completeReserved_sampleBit (s : State) : (completeReserved s).sampleBit = s.sampleBit := rfl
@[simp] theorem completeReserved_derive (s : State) : (completeReserved s).derive = s.derive := rfl
@[simp] theorem completeReserved_reduce (s : State) : (completeReserved s).reduce = s.reduce := rfl
@[simp] theorem completeReserved_levels (s : State) : (completeReserved s).levels = s.levels := rfl
@[simp] theorem completeReserved_mem (s : State) : (completeReserved s).mem = s.mem := rfl
@[simp] theorem completeReserved_phase (s : State) : (completeReserved s).phase = .idle := rfl
@[simp] theorem completeReserved_staged (s : State) : (completeReserved s).staged = none := rfl
@[simp] theorem completeReserved_runMem (s : State) : (completeReserved s).runMem = s.runMem := rfl
@[simp] theorem completeReserved_rst (s : State) : (completeReserved s).rst = s.rst := rfl
@[simp] theorem completeReserved_events (s : State) : (completeReserved s).events = s.events := rfl
@[simp] theorem completeReserved_readData (s : State) : (completeReserved s).readData = s.readData := rfl
@[simp] theorem completeReserved_draws (s : State) : (completeReserved s).draws = s.draws + 1 := rfl

@[simp] theorem placeCommand_params (w : Word) (s : State) : (placeCommand w s).params = s.params := rfl
@[simp] theorem placeCommand_markEn (w : Word) (s : State) : (placeCommand w s).markEn = s.markEn := rfl
@[simp] theorem placeCommand_ie (w : Word) (s : State) : (placeCommand w s).ie = s.ie := rfl
@[simp] theorem placeCommand_status (w : Word) (s : State) : (placeCommand w s).status = statusAccept w s.status := rfl
@[simp] theorem placeCommand_wordCount (w : Word) (s : State) : (placeCommand w s).wordCount = s.wordCount := rfl
@[simp] theorem placeCommand_sampleRateLo (w : Word) (s : State) : (placeCommand w s).sampleRateLo = s.sampleRateLo := rfl
@[simp] theorem placeCommand_sampleRateHi (w : Word) (s : State) : (placeCommand w s).sampleRateHi = s.sampleRateHi := rfl
@[simp] theorem placeCommand_markHint (w : Word) (s : State) : (placeCommand w s).markHint = s.markHint := rfl
@[simp] theorem placeCommand_sampleIndex (w : Word) (s : State) : (placeCommand w s).sampleIndex = s.sampleIndex := rfl
@[simp] theorem placeCommand_scan (w : Word) (s : State) : (placeCommand w s).scan = s.scan := rfl
@[simp] theorem placeCommand_probe (w : Word) (s : State) : (placeCommand w s).probe = s.probe := rfl
@[simp] theorem placeCommand_sampleBit (w : Word) (s : State) : (placeCommand w s).sampleBit = s.sampleBit := rfl
@[simp] theorem placeCommand_derive (w : Word) (s : State) : (placeCommand w s).derive = s.derive := rfl
@[simp] theorem placeCommand_reduce (w : Word) (s : State) : (placeCommand w s).reduce = s.reduce := rfl
@[simp] theorem placeCommand_levels (w : Word) (s : State) : (placeCommand w s).levels = s.levels := rfl
@[simp] theorem placeCommand_mem (w : Word) (s : State) : (placeCommand w s).mem = s.mem := rfl
@[simp] theorem placeCommand_phase (w : Word) (s : State) : (placeCommand w s).phase = .busy (latch w s) := rfl
@[simp] theorem placeCommand_staged (w : Word) (s : State) : (placeCommand w s).staged = s.staged := rfl
@[simp] theorem placeCommand_runMem (w : Word) (s : State) : (placeCommand w s).runMem = s.runMem := rfl
@[simp] theorem placeCommand_rst (w : Word) (s : State) : (placeCommand w s).rst = false := rfl
@[simp] theorem placeCommand_events (w : Word) (s : State) : (placeCommand w s).events = engineNext s.events := rfl
@[simp] theorem placeCommand_readData (w : Word) (s : State) : (placeCommand w s).readData = s.readData := rfl
@[simp] theorem placeCommand_draws (w : Word) (s : State) : (placeCommand w s).draws = s.draws := rfl

@[simp] theorem statusAccept_done (w : Word) (st : Status) : (statusAccept w st).done = false := rfl
@[simp] theorem statusAccept_err (w : Word) (st : Status) : (statusAccept w st).err = false := rfl
@[simp] theorem statusAccept_werr (w : Word) (st : Status) : (statusAccept w st).werr = st.werr := rfl
@[simp] theorem statusAccept_aerr (w : Word) (st : Status) : (statusAccept w st).aerr = st.aerr := rfl
@[simp] theorem statusAccept_errCode (w : Word) (st : Status) : (statusAccept w st).errCode = .ok := rfl
@[simp] theorem statusAccept_lastOp (w : Word) (st : Status) : (statusAccept w st).lastOp = w.extractLsb' 0 4 := rfl
@[simp] theorem statusAccept_probeValid (w : Word) (st : Status) : (statusAccept w st).probeValid = st.probeValid := rfl
@[simp] theorem statusAccept_scanValid (w : Word) (st : Status) : (statusAccept w st).scanValid = st.scanValid := rfl
@[simp] theorem statusAccept_deriveValid (w : Word) (st : Status) : (statusAccept w st).deriveValid = st.deriveValid := rfl
@[simp] theorem statusAccept_reduceValid (w : Word) (st : Status) : (statusAccept w st).reduceValid = st.reduceValid := rfl
@[simp] theorem statusAccept_sampleValid (w : Word) (st : Status) : (statusAccept w st).sampleValid = st.sampleValid := rfl

@[simp] theorem statusConclude_done (c : ErrCode) (st : Status) : (statusConclude c st).done = true := rfl
@[simp] theorem statusConclude_err (c : ErrCode) (st : Status) : (statusConclude c st).err = (c != .ok) := rfl
@[simp] theorem statusConclude_werr (c : ErrCode) (st : Status) : (statusConclude c st).werr = st.werr := rfl
@[simp] theorem statusConclude_aerr (c : ErrCode) (st : Status) : (statusConclude c st).aerr = st.aerr := rfl
@[simp] theorem statusConclude_errCode (c : ErrCode) (st : Status) : (statusConclude c st).errCode = c := rfl
@[simp] theorem statusConclude_lastOp (c : ErrCode) (st : Status) : (statusConclude c st).lastOp = st.lastOp := rfl
@[simp] theorem statusConclude_probeValid (c : ErrCode) (st : Status) : (statusConclude c st).probeValid = st.probeValid := rfl
@[simp] theorem statusConclude_scanValid (c : ErrCode) (st : Status) : (statusConclude c st).scanValid = st.scanValid := rfl
@[simp] theorem statusConclude_deriveValid (c : ErrCode) (st : Status) : (statusConclude c st).deriveValid = st.deriveValid := rfl
@[simp] theorem statusConclude_reduceValid (c : ErrCode) (st : Status) : (statusConclude c st).reduceValid = st.reduceValid := rfl
@[simp] theorem statusConclude_sampleValid (c : ErrCode) (st : Status) : (statusConclude c st).sampleValid = st.sampleValid := rfl

@[simp] theorem statusRefused_done (st : Status) : (statusRefused st).done = st.done := rfl
@[simp] theorem statusRefused_err (st : Status) : (statusRefused st).err = st.err := rfl
@[simp] theorem statusRefused_werr (st : Status) : (statusRefused st).werr = st.werr := rfl
@[simp] theorem statusRefused_aerr (st : Status) : (statusRefused st).aerr = true := rfl
@[simp] theorem statusRefused_errCode (st : Status) : (statusRefused st).errCode = st.errCode := rfl
@[simp] theorem statusRefused_lastOp (st : Status) : (statusRefused st).lastOp = st.lastOp := rfl
@[simp] theorem statusRefused_probeValid (st : Status) : (statusRefused st).probeValid = st.probeValid := rfl
@[simp] theorem statusRefused_scanValid (st : Status) : (statusRefused st).scanValid = st.scanValid := rfl
@[simp] theorem statusRefused_deriveValid (st : Status) : (statusRefused st).deriveValid = st.deriveValid := rfl
@[simp] theorem statusRefused_reduceValid (st : Status) : (statusRefused st).reduceValid = st.reduceValid := rfl
@[simp] theorem statusRefused_sampleValid (st : Status) : (statusRefused st).sampleValid = st.sampleValid := rfl

@[simp] theorem statusDropped_done (st : Status) : (statusDropped st).done = st.done := rfl
@[simp] theorem statusDropped_err (st : Status) : (statusDropped st).err = st.err := rfl
@[simp] theorem statusDropped_werr (st : Status) : (statusDropped st).werr = true := rfl
@[simp] theorem statusDropped_aerr (st : Status) : (statusDropped st).aerr = st.aerr := rfl
@[simp] theorem statusDropped_errCode (st : Status) : (statusDropped st).errCode = st.errCode := rfl
@[simp] theorem statusDropped_lastOp (st : Status) : (statusDropped st).lastOp = st.lastOp := rfl
@[simp] theorem statusDropped_probeValid (st : Status) : (statusDropped st).probeValid = st.probeValid := rfl
@[simp] theorem statusDropped_scanValid (st : Status) : (statusDropped st).scanValid = st.scanValid := rfl
@[simp] theorem statusDropped_deriveValid (st : Status) : (statusDropped st).deriveValid = st.deriveValid := rfl
@[simp] theorem statusDropped_reduceValid (st : Status) : (statusDropped st).reduceValid = st.reduceValid := rfl
@[simp] theorem statusDropped_sampleValid (st : Status) : (statusDropped st).sampleValid = st.sampleValid := rfl

@[simp] theorem statusWriteOneToClear_done (v : Word) (st : Status) : (statusWriteOneToClear v st).done = (st.done && !v.getLsbD 1) := rfl
@[simp] theorem statusWriteOneToClear_err (v : Word) (st : Status) : (statusWriteOneToClear v st).err = st.err := rfl
@[simp] theorem statusWriteOneToClear_werr (v : Word) (st : Status) : (statusWriteOneToClear v st).werr = (st.werr && !v.getLsbD 3) := rfl
@[simp] theorem statusWriteOneToClear_aerr (v : Word) (st : Status) : (statusWriteOneToClear v st).aerr = (st.aerr && !v.getLsbD 4) := rfl
@[simp] theorem statusWriteOneToClear_errCode (v : Word) (st : Status) : (statusWriteOneToClear v st).errCode = st.errCode := rfl
@[simp] theorem statusWriteOneToClear_lastOp (v : Word) (st : Status) : (statusWriteOneToClear v st).lastOp = st.lastOp := rfl
@[simp] theorem statusWriteOneToClear_probeValid (v : Word) (st : Status) : (statusWriteOneToClear v st).probeValid = st.probeValid := rfl
@[simp] theorem statusWriteOneToClear_scanValid (v : Word) (st : Status) : (statusWriteOneToClear v st).scanValid = st.scanValid := rfl
@[simp] theorem statusWriteOneToClear_deriveValid (v : Word) (st : Status) : (statusWriteOneToClear v st).deriveValid = st.deriveValid := rfl
@[simp] theorem statusWriteOneToClear_reduceValid (v : Word) (st : Status) : (statusWriteOneToClear v st).reduceValid = st.reduceValid := rfl
@[simp] theorem statusWriteOneToClear_sampleValid (v : Word) (st : Status) : (statusWriteOneToClear v st).sampleValid = st.sampleValid := rfl

@[simp] theorem refuseAccess_params (a : Access) (s : State) : (refuseAccess a s).params = s.params := by
  cases a <;> rfl
@[simp] theorem refuseAccess_markEn (a : Access) (s : State) : (refuseAccess a s).markEn = s.markEn := by
  cases a <;> rfl
@[simp] theorem refuseAccess_ie (a : Access) (s : State) : (refuseAccess a s).ie = s.ie := by
  cases a <;> rfl
@[simp] theorem refuseAccess_wordCount (a : Access) (s : State) : (refuseAccess a s).wordCount = s.wordCount := by
  cases a <;> rfl
@[simp] theorem refuseAccess_sampleRateLo (a : Access) (s : State) : (refuseAccess a s).sampleRateLo = s.sampleRateLo := by
  cases a <;> rfl
@[simp] theorem refuseAccess_sampleRateHi (a : Access) (s : State) : (refuseAccess a s).sampleRateHi = s.sampleRateHi := by
  cases a <;> rfl
@[simp] theorem refuseAccess_markHint (a : Access) (s : State) : (refuseAccess a s).markHint = s.markHint := by
  cases a <;> rfl
@[simp] theorem refuseAccess_sampleIndex (a : Access) (s : State) : (refuseAccess a s).sampleIndex = s.sampleIndex := by
  cases a <;> rfl
@[simp] theorem refuseAccess_scan (a : Access) (s : State) : (refuseAccess a s).scan = s.scan := by
  cases a <;> rfl
@[simp] theorem refuseAccess_probe (a : Access) (s : State) : (refuseAccess a s).probe = s.probe := by
  cases a <;> rfl
@[simp] theorem refuseAccess_sampleBit (a : Access) (s : State) : (refuseAccess a s).sampleBit = s.sampleBit := by
  cases a <;> rfl
@[simp] theorem refuseAccess_derive (a : Access) (s : State) : (refuseAccess a s).derive = s.derive := by
  cases a <;> rfl
@[simp] theorem refuseAccess_reduce (a : Access) (s : State) : (refuseAccess a s).reduce = s.reduce := by
  cases a <;> rfl
@[simp] theorem refuseAccess_levels (a : Access) (s : State) : (refuseAccess a s).levels = s.levels := by
  cases a <;> rfl
@[simp] theorem refuseAccess_mem (a : Access) (s : State) : (refuseAccess a s).mem = s.mem := by
  cases a <;> rfl
@[simp] theorem refuseAccess_phase (a : Access) (s : State) : (refuseAccess a s).phase = s.phase := by
  cases a <;> rfl
@[simp] theorem refuseAccess_staged (a : Access) (s : State) : (refuseAccess a s).staged = s.staged := by
  cases a <;> rfl
@[simp] theorem refuseAccess_runMem (a : Access) (s : State) : (refuseAccess a s).runMem = s.runMem := by
  cases a <;> rfl
@[simp] theorem refuseAccess_rst (a : Access) (s : State) : (refuseAccess a s).rst = s.rst := by
  cases a <;> rfl
@[simp] theorem refuseAccess_events (a : Access) (s : State) : (refuseAccess a s).events = s.events := by
  cases a <;> rfl
@[simp] theorem refuseAccess_draws (a : Access) (s : State) : (refuseAccess a s).draws = s.draws := by
  cases a <;> rfl
@[simp] theorem refuseAccess_status (a : Access) (s : State) :
    (refuseAccess a s).status = statusRefused s.status := by
  cases a <;> rfl

@[simp] theorem performRead_params (x : Target) (s : State) : (performRead x s).params = s.params := by
  cases x <;> rfl
@[simp] theorem performRead_markEn (x : Target) (s : State) : (performRead x s).markEn = s.markEn := by
  cases x <;> rfl
@[simp] theorem performRead_ie (x : Target) (s : State) : (performRead x s).ie = s.ie := by
  cases x <;> rfl
@[simp] theorem performRead_status (x : Target) (s : State) : (performRead x s).status = s.status := by
  cases x <;> rfl
@[simp] theorem performRead_wordCount (x : Target) (s : State) : (performRead x s).wordCount = s.wordCount := by
  cases x <;> rfl
@[simp] theorem performRead_sampleRateLo (x : Target) (s : State) : (performRead x s).sampleRateLo = s.sampleRateLo := by
  cases x <;> rfl
@[simp] theorem performRead_sampleRateHi (x : Target) (s : State) : (performRead x s).sampleRateHi = s.sampleRateHi := by
  cases x <;> rfl
@[simp] theorem performRead_markHint (x : Target) (s : State) : (performRead x s).markHint = s.markHint := by
  cases x <;> rfl
@[simp] theorem performRead_sampleIndex (x : Target) (s : State) : (performRead x s).sampleIndex = s.sampleIndex := by
  cases x <;> rfl
@[simp] theorem performRead_scan (x : Target) (s : State) : (performRead x s).scan = s.scan := by
  cases x <;> rfl
@[simp] theorem performRead_probe (x : Target) (s : State) : (performRead x s).probe = s.probe := by
  cases x <;> rfl
@[simp] theorem performRead_sampleBit (x : Target) (s : State) : (performRead x s).sampleBit = s.sampleBit := by
  cases x <;> rfl
@[simp] theorem performRead_derive (x : Target) (s : State) : (performRead x s).derive = s.derive := by
  cases x <;> rfl
@[simp] theorem performRead_reduce (x : Target) (s : State) : (performRead x s).reduce = s.reduce := by
  cases x <;> rfl
@[simp] theorem performRead_levels (x : Target) (s : State) : (performRead x s).levels = s.levels := by
  cases x <;> rfl
@[simp] theorem performRead_mem (x : Target) (s : State) : (performRead x s).mem = s.mem := by
  cases x <;> rfl
@[simp] theorem performRead_phase (x : Target) (s : State) : (performRead x s).phase = s.phase := by
  cases x <;> rfl
@[simp] theorem performRead_staged (x : Target) (s : State) : (performRead x s).staged = s.staged := by
  cases x <;> rfl
@[simp] theorem performRead_runMem (x : Target) (s : State) : (performRead x s).runMem = s.runMem := by
  cases x <;> rfl
@[simp] theorem performRead_rst (x : Target) (s : State) : (performRead x s).rst = s.rst := by
  cases x <;> rfl
@[simp] theorem performRead_events (x : Target) (s : State) : (performRead x s).events = s.events := by
  cases x <;> rfl
@[simp] theorem performRead_readData (x : Target) (s : State) : (performRead x s).readData = readTarget s x := by
  cases x <;> rfl

@[simp] theorem commitGroup_params (st : Staged) (s : State) : (commitGroup st s).params = s.params := by
  cases st <;> rfl
@[simp] theorem commitGroup_markEn (st : Staged) (s : State) : (commitGroup st s).markEn = s.markEn := by
  cases st <;> rfl
@[simp] theorem commitGroup_ie (st : Staged) (s : State) : (commitGroup st s).ie = s.ie := by
  cases st <;> rfl
@[simp] theorem commitGroup_status (st : Staged) (s : State) : (commitGroup st s).status = s.status := by
  cases st <;> rfl
@[simp] theorem commitGroup_wordCount (st : Staged) (s : State) : (commitGroup st s).wordCount = s.wordCount := by
  cases st <;> rfl
@[simp] theorem commitGroup_sampleRateLo (st : Staged) (s : State) : (commitGroup st s).sampleRateLo = s.sampleRateLo := by
  cases st <;> rfl
@[simp] theorem commitGroup_sampleRateHi (st : Staged) (s : State) : (commitGroup st s).sampleRateHi = s.sampleRateHi := by
  cases st <;> rfl
@[simp] theorem commitGroup_markHint (st : Staged) (s : State) : (commitGroup st s).markHint = s.markHint := by
  cases st <;> rfl
@[simp] theorem commitGroup_sampleIndex (st : Staged) (s : State) : (commitGroup st s).sampleIndex = s.sampleIndex := by
  cases st <;> rfl
@[simp] theorem commitGroup_mem (st : Staged) (s : State) : (commitGroup st s).mem = s.mem := by
  cases st <;> rfl
@[simp] theorem commitGroup_phase (st : Staged) (s : State) : (commitGroup st s).phase = s.phase := by
  cases st <;> rfl
@[simp] theorem commitGroup_staged (st : Staged) (s : State) : (commitGroup st s).staged = s.staged := by
  cases st <;> rfl
@[simp] theorem commitGroup_rst (st : Staged) (s : State) : (commitGroup st s).rst = s.rst := by
  cases st <;> rfl
@[simp] theorem commitGroup_events (st : Staged) (s : State) : (commitGroup st s).events = s.events := by
  cases st <;> rfl
@[simp] theorem commitGroup_readData (st : Staged) (s : State) : (commitGroup st s).readData = s.readData := by
  cases st <;> rfl
@[simp] theorem commitGroup_draws (st : Staged) (s : State) : (commitGroup st s).draws = s.draws := by
  cases st <;> rfl

@[simp] theorem commit_stage (st : Staged) (s : State) :
    commit (stage st s) = { commitGroup st (stage st s) with staged := none } := rfl

end Sys2Proof.Machine
end

