-- ==== Sys2Proof/Laws/Ops.lean ====
section
/-! SUPPORT. What each shared operation can do, said once: running and completing a command, the word-count checks,
the events of a step. -/

namespace Sys2Proof.Machine

/-- The pseudocode of a command. -/
def bodyOf (i : Instr) : Latched → State → Except ErrCode Staged :=
  match i with
  | .probe => probeBody
  | .scan => scanBody
  | .derive => deriveBody
  | .reduce => reduceBody
  | .sample => sampleBody
  | .clear => clearBody

theorem exec_eq (i : Instr) (s : State) :
    exec i s = .next (complete i (bodyOf i (operandsOf i s) (started i s)) (started i s)) := by
  cases i <;> rfl

theorem operandsOf_busy {s : State} {op : Latched} (i : Instr) (h : s.phase = .busy op) : operandsOf i s = op := by
  simp [operandsOf, h]

theorem operandsOf_idle {s : State} (i : Instr) (h : s.phase = .idle) : operandsOf i s = latch (encode i) s := by
  simp [operandsOf, h]

theorem started_busy {s : State} {op : Latched} (i : Instr) (h : s.phase = .busy op) : started i s = s := by
  simp [started, h]

theorem started_idle {s : State} (i : Instr) (h : s.phase = .idle) : started i s = accept (encode i) s := by
  simp [started, h]

/-- A command in flight runs its pseudocode on the latched operands and completes. -/
theorem exec_busy {s : State} {op : Latched} (i : Instr) (h : s.phase = .busy op) :
    exec i s = .next (complete i (bodyOf i op s) s) := by
  rw [exec_eq, operandsOf_busy i h, started_busy i h]

/-- Outside a command in flight the command is accepted first. -/
theorem exec_idle {s : State} (i : Instr) (h : s.phase = .idle) :
    exec i s = exec i (accept (encode i) s) := by
  rw [exec_busy i (accept_phase (encode i) s), exec_eq, operandsOf_idle i h, started_idle i h]

/-- A successful completion commits its group and sets the valid bits; nothing else changes but STATUS, the phase and
the draw counter. -/
theorem completeSuccess_eq (i : Instr) (st : Staged) (s : State) :
    completeSuccess i st s = succeeded (validOnSuccess i) (commitGroup st) s := by
  cases st <;> rfl

/-- An error completion changes only STATUS, the phase and the draw counter. -/
theorem completeError_eq (i : Instr) (c : ErrCode) (s : State) (h : c ≠ .ok) :
    completeError i c s = failed (validOnFailure i) c s := by
  have hc : (c != .ok) = true := by simpa using h
  simp only [completeError, conclude, statusConclude, discard, failed, hc]

theorem completeReserved_eq (s : State) : completeReserved s = failed id .badOpcode s := rfl

/-- The checks of R402 on the word count: EMPTY_BUFFER, then WORD_COUNT_RANGE, then the command's own result. -/
theorem wordCountChecked_legal (p : Config.Params) (op : Latched) (k : Except ErrCode Staged)
    (h0 : op.wordCount ≠ 0) (h1 : op.wordCount.toNat ≤ p.bufWords) : wordCountChecked p op k = k := by
  rw [wordCountChecked, if_neg h0, if_neg (Nat.not_lt.2 h1)]

theorem wordCountChecked_empty (p : Config.Params) (op : Latched) (k : Except ErrCode Staged)
    (h : op.wordCount = 0) : wordCountChecked p op k = .error .emptyBuffer := by
  rw [wordCountChecked, if_pos h]

theorem wordCountChecked_range (p : Config.Params) (op : Latched) (k : Except ErrCode Staged)
    (h : p.bufWords < op.wordCount.toNat) : wordCountChecked p op k = .error .wordCountRange := by
  have h0 : op.wordCount ≠ 0 := by rintro h0; simp [h0] at h
  rw [wordCountChecked, if_neg h0, if_pos h]

/-- Everything the checks can answer. -/
theorem wordCountChecked_cases (p : Config.Params) (op : Latched) (k : Except ErrCode Staged) :
    (op.wordCount = 0 ∧ wordCountChecked p op k = .error .emptyBuffer) ∨
      (p.bufWords < op.wordCount.toNat ∧ wordCountChecked p op k = .error .wordCountRange) ∨
      (op.wordCount ≠ 0 ∧ op.wordCount.toNat ≤ p.bufWords ∧ wordCountChecked p op k = k) := by
  by_cases h0 : op.wordCount = 0
  · exact .inl ⟨h0, wordCountChecked_empty p op k h0⟩
  · by_cases h1 : p.bufWords < op.wordCount.toNat
    · exact .inr (.inl ⟨h1, wordCountChecked_range p op k h1⟩)
    · exact .inr (.inr ⟨h0, Nat.le_of_not_lt h1, wordCountChecked_legal p op k h0 (Nat.le_of_not_lt h1)⟩)

theorem wordCountChecked_error_ok {p : Config.Params} {op : Latched} {k : Except ErrCode Staged}
    (h : wordCountChecked p op k = .error .ok) : k = .error .ok := by
  rcases wordCountChecked_cases p op k with ⟨_, e⟩ | ⟨_, e⟩ | ⟨_, _, e⟩ <;> rw [e] at h
  · simp at h
  · simp at h
  · exact h

/-- No command's pseudocode raises OK as an error. -/
theorem bodyOf_error_ne_ok {i : Instr} {op : Latched} {s : State} {c : ErrCode} (h : bodyOf i op s = .error c) :
    c ≠ .ok := by
  rintro rfl
  cases i
  · simpa using wordCountChecked_error_ok h
  · simpa using wordCountChecked_error_ok h
  · simp only [bodyOf, deriveBody] at h
    split_ifs at h <;> simp at h
  · have hr := wordCountChecked_error_ok h
    simp only [reduceSamples] at hr
    split_ifs at hr
    simp at hr
  · have hr := wordCountChecked_error_ok h
    split_ifs at hr
    simp at hr
  · simp [bodyOf, clearBody] at h

/-- Everything a command in flight can do: commit its group, or fail with a nonzero code. -/
theorem exec_busy_cases {s t : State} {op : Latched} (i : Instr) (h : s.phase = .busy op) (he : exec i s = .next t) :
    (∃ st, bodyOf i op s = .ok st ∧ t = succeeded (validOnSuccess i) (commitGroup st) s) ∨
      (∃ c, bodyOf i op s = .error c ∧ c ≠ .ok ∧ t = failed (validOnFailure i) c s) := by
  rw [exec_busy i h] at he
  injection he with he
  subst he
  cases hb : bodyOf i op s with
  | ok st => exact .inl ⟨st, rfl, completeSuccess_eq i st s⟩
  | error c => exact .inr ⟨c, rfl, bodyOf_error_ne_ok hb, completeError_eq i c s (bodyOf_error_ne_ok hb)⟩

/-! The events of a step. -/

theorem step_nil {s : State} (h : s.events = []) : step s = engineTurn s := by
  simp only [step, nextEvent, h]

theorem step_cons {s : State} {e : Event} {es : List Event} (h : s.events = e :: es) :
    step s = event e { s with events := es } := by
  simp only [step, nextEvent, h]

theorem step_access {s : State} {a : Access} {es : List Event} (hr : s.rst = false) (h : s.events = .access a :: es) :
    step s = .next (hostAccess a { s with events := es }) := by
  rw [step_cons h]
  simp [event, accessEvent, hr]

theorem step_engine {s : State} {es : List Event} (h : s.events = .engine :: es) :
    step s = engineTurn { s with events := es } := step_cons h

theorem step_reset {s : State} {b : Bool} {es : List Event} (h : s.events = .reset b :: es) :
    step s = .next (resetLine b { s with events := es }) := step_cons h

/-- Everything an engine's turn can do. -/
theorem engineTurn_cases {s t : State} (h : engineTurn s = .next t) :
    (s.phase = .idle ∧ t = s) ∨
      (∃ op i, s.phase = .busy op ∧ decode op.word = .ok i ∧ exec i s = .next t) ∨
      (∃ op e, s.phase = .busy op ∧ decode op.word = .error e ∧ t = completeReserved s) := by
  unfold engineTurn at h
  split at h
  · rename_i hp
    injection h with h
    exact .inl ⟨hp, h.symm⟩
  · rename_i op hp
    unfold runWord at h
    split at h
    · rename_i i hd
      exact .inr (.inl ⟨op, i, hp, hd, h⟩)
    · rename_i e hd
      injection h with h
      exact .inr (.inr ⟨op, e, hp, hd, h.symm⟩)

/-- Everything a step can do: an engine's turn, a host access, or a change of the reset line. -/
theorem step_cases {s t : State} (h : step s = .next t) :
    (s.events = [] ∧ engineTurn s = .next t) ∨
      (∃ es, s.events = .engine :: es ∧ engineTurn { s with events := es } = .next t) ∨
      (∃ a es, s.events = .access a :: es ∧ s.rst = false ∧ t = hostAccess a { s with events := es }) ∨
      (∃ b es, s.events = .reset b :: es ∧ t = resetLine b { s with events := es }) := by
  cases hev : s.events with
  | nil => exact .inl ⟨rfl, by rw [step_nil hev] at h; exact h⟩
  | cons e es =>
    cases e with
    | engine => exact .inr (.inl ⟨es, rfl, by rw [step_engine hev] at h; exact h⟩)
    | access a =>
      by_cases hr : s.rst = true
      · rw [step_cons hev] at h
        simp [event, accessEvent, hr] at h
      · have hr' : s.rst = false := by simpa using hr
        rw [step_access hr' hev] at h
        injection h with h
        exact .inr (.inr (.inl ⟨a, es, rfl, hr', h.symm⟩))
    | reset b =>
      rw [step_reset hev] at h
      injection h with h
      exact .inr (.inr (.inr ⟨b, es, rfl, h.symm⟩))

/-- A run of several steps, its first step taken. -/
theorem run_succ {k : Nat} {s t : State} (h : step s = .next t) :
    Host.Core.run core (k + 1) s = Host.Core.run core k t := by
  have h' : core.step s = .next t := h
  simp only [Host.Core.run, h']

end Sys2Proof.Machine
end

