-- ==== Sys2Proof/Laws/Bus.lean ====
section
/-! SUPPORT. What a host access can do, and where the register map puts things. -/

namespace Sys2Proof.Machine

theorem regAt_offset (r : Reg) : regAt r.offset = some r := by
  cases r <;> first | decide | (rename_i j; revert j; decide)

theorem regAt_eq_some {off : Nat} {r : Reg} (h : regAt off = some r) : r.offset = off := by
  have := List.find?_some h
  simpa using this

theorem regAt_none_of_large {off : Nat} (h : 0xD4 < off) : regAt off = none := by
  rw [regAt, List.find?_eq_none]
  intro r _
  have hr : r.offset ≤ 0xD4 := by
    cases r <;> simp only [Reg.offset] <;> omega
  simp only [beq_iff_eq]
  omega

theorem maxLevels_eq (p : Config.Params) : p.maxLevels = 32 ∨ p.maxLevels = 128 := by
  unfold Config.Params.maxLevels
  split <;> simp

theorem bufWords_pos (p : Config.Params) : 1 ≤ p.bufWords := Nat.succ_le_succ (Nat.zero_le _)

theorem bufWords_lt (p : Config.Params) : p.bufWords < 2 ^ 27 := by
  have := p.bufWordsLessOne.isLt
  unfold Config.Params.bufWords
  omega

theorem runCap_pos (p : Config.Params) : 1 ≤ p.runCap := Nat.succ_le_succ (Nat.zero_le _)

theorem targetAt_reg (p : Config.Params) (r : Reg) : targetAt p r.offset = some (.reg r) := by
  simp [targetAt, regAt_offset]

theorem targetAt_levels (p : Config.Params) (w : Nat) (h : w < p.maxLevels / 16) :
    targetAt p (0x400 + 4 * w) = some (.levels w) := by
  have h1 : 0x400 ≤ 0x400 + 4 * w ∧ 0x400 + 4 * w < 0x400 + 4 * (p.maxLevels / 16) := by omega
  rw [targetAt, regAt_none_of_large (by omega)]
  simp only [h1, and_self, if_true]
  congr 2
  omega

theorem targetAt_sample (p : Config.Params) (i : Nat) (h : i < p.bufWords) :
    targetAt p (0x10000 + 4 * i) = some (.sampleWord i) := by
  have hm := maxLevels_eq p
  have h1 : ¬(0x400 ≤ 0x10000 + 4 * i ∧ 0x10000 + 4 * i < 0x400 + 4 * (p.maxLevels / 16)) := by omega
  have h2 : 0x10000 ≤ 0x10000 + 4 * i ∧ 0x10000 + 4 * i < 0x10000 + 4 * p.bufWords := by omega
  rw [targetAt, regAt_none_of_large (by omega)]
  simp only [h1, if_false, h2, and_self, if_true]
  congr 2
  omega

/-- What a mapped offset reaches. -/
theorem targetAt_cases {p : Config.Params} {off : Nat} {x : Target} (h : targetAt p off = some x) :
    (∃ r, x = .reg r ∧ r.offset = off) ∨
      (∃ w, x = .levels w ∧ 0x400 ≤ off ∧ off < 0x400 + 4 * (p.maxLevels / 16)) ∨
      (∃ i, x = .sampleWord i ∧ i = (off - 0x10000) / 4 ∧ i < p.bufWords ∧ 0x10000 ≤ off ∧
        off < 0x10000 + 4 * p.bufWords) := by
  unfold targetAt at h
  split at h
  · rename_i r hr
    injection h with h
    exact .inl ⟨r, h.symm, regAt_eq_some hr⟩
  · split at h
    · rename_i h1
      injection h with h
      exact .inr (.inl ⟨_, h.symm, h1⟩)
    · split at h
      · rename_i h2
        injection h with h
        exact .inr (.inr ⟨_, h.symm, rfl, by omega, h2⟩)
      · simp at h

theorem accessCode_w1c {x : Target} (h : x.accessCode = .w1c) : x = .reg .status := by
  cases x with
  | reg r => cases r <;> simp_all [Target.accessCode, Reg.accessCode]
  | levels _ => simp [Target.accessCode] at h
  | sampleWord _ => simp [Target.accessCode] at h

/-- Everything a write to a mapped target can do: refused, dropped, or performed. -/
theorem writeTarget_cases (a : Access) (x : Target) (v : Word) (s : State) :
    (x.accessCode = .ro ∧ writeTarget a x v s = refuseAccess a s) ∨
      (s.phase.isBusy = true ∧ (x.accessCode = .rw ∨ x.accessCode = .wo) ∧ writeTarget a x v s = dropWrite s) ∨
      ((s.phase.isBusy = false ∨ x = .reg .status) ∧ x.accessCode ≠ .ro ∧
        writeTarget a x v s = performWrite x v s) := by
  cases hb : s.phase.isBusy <;> cases hc : x.accessCode
  · exact .inl ⟨rfl, by simp [writeTarget, hc]⟩
  · exact .inr (.inr ⟨.inl rfl, by simp, by simp [writeTarget, hc, hb]⟩)
  · exact .inr (.inr ⟨.inl rfl, by simp, by simp [writeTarget, hc, hb]⟩)
  · exact .inr (.inr ⟨.inl rfl, by simp, by simp [writeTarget, hc]⟩)
  · exact .inl ⟨rfl, by simp [writeTarget, hc]⟩
  · exact .inr (.inl ⟨rfl, .inl rfl, by simp [writeTarget, hc, hb]⟩)
  · exact .inr (.inl ⟨rfl, .inr rfl, by simp [writeTarget, hc, hb]⟩)
  · exact .inr (.inr ⟨.inr (accessCode_w1c hc), by simp, by simp [writeTarget, hc]⟩)

/-- An accepted access is 32 bits wide at a multiple of 4 (R150). -/
theorem aligned_iff (a : Access) : a.aligned = true ↔ a.width = .w32 ∧ a.offset.toNat % 4 = 0 := by
  simp [Access.aligned]

/-- A performed or dropped write: the width and alignment checks passed and the offset is mapped. -/
theorem hostAccess_write {s : State} {off v : Word} {x : Target} (ha : off.toNat % 4 = 0)
    (hx : targetAt s.params off.toNat = some x) :
    hostAccess (.write .w32 off v) s = writeTarget (.write .w32 off v) x v s := by
  simp [hostAccess, Access.aligned, Access.width, Access.offset, ha, hx]

/-- A performed read. -/
theorem hostAccess_read {s : State} {off : Word} {x : Target} (ha : off.toNat % 4 = 0)
    (hx : targetAt s.params off.toNat = some x) : hostAccess (.read .w32 off) s = performRead x s := by
  simp [hostAccess, Access.aligned, Access.width, Access.offset, ha, hx]

/-- Everything a host access can do (20_memory.md R157): it is refused, it is a read, it is dropped, or it is a write
that is performed, IDLE or to STATUS. -/
theorem hostAccess_cases (a : Access) (s : State) :
    hostAccess a s = refuseAccess a s ∨
      (∃ off x, a = .read .w32 off ∧ off.toNat % 4 = 0 ∧ targetAt s.params off.toNat = some x ∧
        hostAccess a s = performRead x s) ∨
      (s.phase.isBusy = true ∧ ∃ off v x, a = .write .w32 off v ∧ off.toNat % 4 = 0 ∧
        targetAt s.params off.toNat = some x ∧ (x.accessCode = .rw ∨ x.accessCode = .wo) ∧
        hostAccess a s = dropWrite s) ∨
      (∃ off v x, a = .write .w32 off v ∧ off.toNat % 4 = 0 ∧ targetAt s.params off.toNat = some x ∧
        (s.phase.isBusy = false ∨ x = .reg .status) ∧ x.accessCode ≠ .ro ∧
        hostAccess a s = performWrite x v s) := by
  by_cases hal : a.aligned = true
  · obtain ⟨hw, ho⟩ := (aligned_iff a).1 hal
    cases hx : targetAt s.params a.offset.toNat with
    | none => exact .inl (by simp [hostAccess, hal, hx])
    | some x =>
      cases a with
      | read w off =>
        obtain rfl : w = .w32 := hw
        exact .inr (.inl ⟨off, x, rfl, ho, hx, hostAccess_read ho hx⟩)
      | write w off v =>
        obtain rfl : w = .w32 := hw
        have h := hostAccess_write (s := s) (v := v) ho hx
        rcases writeTarget_cases (.write .w32 off v) x v s with ⟨_, e⟩ | ⟨hb, hc, e⟩ | ⟨hb, hc, e⟩
        · exact .inl (h.trans e)
        · exact .inr (.inr (.inl ⟨hb, off, v, x, rfl, ho, hx, hc, h.trans e⟩))
        · exact .inr (.inr (.inr ⟨off, v, x, rfl, ho, hx, hb, hc, h.trans e⟩))
  · exact .inl (by simp [hostAccess, hal])

/-- What no host access changes: the results, the levels and run memories, the parameters, the reset line. -/
theorem hostAccess_frame (a : Access) (s : State) :
    committedResults (hostAccess a s) = committedResults s ∧ (hostAccess a s).runMem = s.runMem ∧
      (hostAccess a s).params = s.params ∧ (hostAccess a s).staged = s.staged ∧ (hostAccess a s).rst = s.rst ∧
      (hostAccess a s).events = s.events ∧ validBits (hostAccess a s).status = validBits s.status := by
  rcases hostAccess_cases a s with e | ⟨_, x, _, _, _, e⟩ | ⟨_, _, _, _, _, _, _, _, e⟩ | ⟨_, v, x, _, _, _, _, _, e⟩ <;>
    rw [e]
  · cases a <;> exact ⟨rfl, rfl, rfl, rfl, rfl, rfl, rfl⟩
  · cases x <;> exact ⟨rfl, rfl, rfl, rfl, rfl, rfl, rfl⟩
  · exact ⟨rfl, rfl, rfl, rfl, rfl, rfl, rfl⟩
  · cases x with
    | reg r => cases r <;> exact ⟨rfl, rfl, rfl, rfl, rfl, rfl, rfl⟩
    | levels _ => exact ⟨rfl, rfl, rfl, rfl, rfl, rfl, rfl⟩
    | sampleWord _ => exact ⟨rfl, rfl, rfl, rfl, rfl, rfl, rfl⟩

/-- The STATUS word with its width written as the sum of the fields' widths, so that the fields can be peeled off one by
one. -/
theorem statusWord_getLsbD (busy : Bool) (st : Status) (k : Nat) :
    (statusWord busy st).getLsbD k =
      ((0 : BitVec 3) ++ BitVec.ofBool st.sampleValid ++ BitVec.ofBool st.reduceValid ++ BitVec.ofBool st.deriveValid ++
        BitVec.ofBool st.scanValid ++ BitVec.ofBool st.probeValid ++ (0 : BitVec 4) ++ st.lastOp ++ (0 : BitVec 4) ++
        st.errCode.code ++ (0 : BitVec 3) ++ BitVec.ofBool st.aerr ++ BitVec.ofBool st.werr ++
        BitVec.ofBool st.err ++ BitVec.ofBool st.done ++ BitVec.ofBool busy).getLsbD k := rfl

/-- Two bits of a packed LEVELS word hold one code (R121). -/
theorem packLevels_getLsbD (ls : List Level) (k b : Nat) (hb : b < 2) (hk : 2 * k + b < 32) :
    (packLevels ls).getLsbD (2 * k + b) = ((ls[k]?).map fun l => l.code.getLsbD b).getD false := by
  induction ls generalizing k b with
  | nil => simp [packLevels]
  | cons l ls ih =>
    have e : packLevels (l :: ls) = (packLevels ls <<< 2) ||| l.code.setWidth 32 := rfl
    rw [e]
    simp only [BitVec.getLsbD_or, BitVec.getLsbD_shiftLeft, BitVec.getLsbD_setWidth]
    cases k with
    | zero => simp [hb, show b < 32 by omega]
    | succ k =>
      have h1 := ih k b hb (by omega)
      have h2 : l.code.getLsbD (2 * (k + 1) + b) = false := BitVec.getLsbD_of_ge _ _ (by omega)
      rw [show 2 * (k + 1) + b - 2 = 2 * k + b by omega, h1]
      simp [h2, show ¬2 * (k + 1) + b < 2 by omega, hk]

end Sys2Proof.Machine
end

