-- ==== Sys2Proof/Laws/Floats.lean ====
section
/-! SUPPORT. What rounding to an integer and the encoding of a quotient are bounded by. -/

namespace Sys2Proof.Machine

/-- Rounding gives the integer part or one more (R17). -/
theorem roundNearestEven_cases (a b : Nat) :
    (roundNearestEven a b = a / b ∧ 2 * (a % b) ≤ b) ∨ (roundNearestEven a b = a / b + 1 ∧ b ≤ 2 * (a % b)) := by
  unfold roundNearestEven
  simp only
  split_ifs with h
  · exact .inl ⟨rfl, by omega⟩
  · exact .inr ⟨rfl, by omega⟩

/-- A tie rounds to the even integer (R17). -/
theorem roundNearestEven_tie (a b : Nat) (h : 2 * (a % b) = b) : roundNearestEven a b % 2 = 0 := by
  unfold roundNearestEven
  simp only
  split_ifs with h1 <;> omega

/-- A quotient without a remainder is not rounded. -/
theorem roundNearestEven_exact (q b : Nat) (hb : 0 < b) : roundNearestEven (q * b) b = q := by
  unfold roundNearestEven
  simp [Nat.mul_div_cancel _ hb, hb]

/-- No encoding exceeds that of +infinity. -/
theorem encodeQuotient_le (p u inf num den : Nat) : encodeQuotient p u inf num den ≤ inf := Nat.min_le_right _ _

theorem rnd32_toNat (num den : Nat) : (rnd32 num den).toNat = encodeQuotient 24 149 0x7F800000 num den := by
  have := encodeQuotient_le 24 149 0x7F800000 num den
  rw [rnd32, BitVec.toNat_ofNat, Nat.mod_eq_of_lt (by omega)]

theorem rnd64_toNat (num den : Nat) : (rnd64 num den).toNat = encodeQuotient 53 1074 0x7FF0000000000000 num den := by
  have := encodeQuotient_le 53 1074 0x7FF0000000000000 num den
  rw [rnd64, BitVec.toNat_ofNat, Nat.mod_eq_of_lt (by omega)]

/-- The magnitude of a finite encoding is its value in units of the smallest one. -/
theorem magnitude64_eq (b : DWord) (h : isFinitePos b = true) : magnitude64 b = magnitudeOf 53 b.toNat := by
  have hlt : b.toNat < 0x7FF0000000000000 := by
    have h' : decide (0 < b.toNat) = true ∧ decide (b.toNat < inf64.toNat) = true := by
      simpa only [isFinitePos, Bool.and_eq_true] using h
    exact of_decide_eq_true h'.2
  have he : (b.extractLsb' 52 11).toNat = b.toNat / 2 ^ 52 := by
    simp only [BitVec.extractLsb'_toNat, Nat.shiftRight_eq_div_pow]
    omega
  have hf : (b.extractLsb' 0 52).toNat = b.toNat % 2 ^ 52 := by simp [BitVec.extractLsb'_toNat]
  unfold magnitude64 magnitudeOf
  simp only [he, hf]
  by_cases hs : b.toNat < 2 ^ 52
  · rw [if_pos (by omega), if_pos (by simpa using hs), Nat.mod_eq_of_lt hs]
  · rw [if_neg (by omega), if_neg (by simpa using hs)]

end Sys2Proof.Machine
end

