-- ==== Sys2Proof/Laws/Memory.lean ====
section
/-! SUPPORT. What the sample buffer's operations do: read after write, the frame of a write, and the canonical form. -/

namespace Sys2Proof.Machine

@[simp] theorem memGet_nil (a : Nat) : memGet [] a = none := rfl

theorem memGet_memPut (m : Memory) (a : Nat) (b : Byte) (x : Nat) (h : m.wf) :
    memGet (memPut m a b) x = if x = a then some b else memGet m x := by
  induction m with
  | nil => simp [memPut, memGet, eq_comm]
  | cons c cs ih =>
    have hcs : Memory.wf cs := (List.pairwise_cons.1 h).2
    unfold memPut
    split
    · simp [memGet, eq_comm]
    · split
      · rename_i h1 h2
        subst h2
        by_cases hx : x = c.1 <;> simp [memGet, hx, eq_comm]
      · rename_i h1 h2
        simp only [memGet, ih hcs]
        by_cases hx : x = a
        · subst hx; simp [Ne.symm h2]
        · simp [hx]

theorem memPut_fst_mem (m : Memory) (a : Nat) (b : Byte) (x : Nat) (h : x ∈ (memPut m a b).map Prod.fst) :
    x = a ∨ x ∈ m.map Prod.fst := by
  induction m with
  | nil => simpa [memPut] using h
  | cons c cs ih =>
    unfold memPut at h
    split at h
    · simpa using h
    · split at h
      · rename_i h1 h2
        simp only [List.map_cons, List.mem_cons] at h ⊢
        tauto
      · simp only [List.map_cons, List.mem_cons] at h ⊢
        rcases h with h | h
        · exact .inr (.inl h)
        · rcases ih h with h | h
          · exact .inl h
          · exact .inr (.inr h)

/-- Writing a byte keeps the canonical form. -/
theorem memPut_wf (m : Memory) (a : Nat) (b : Byte) (h : m.wf) : (memPut m a b).wf := by
  induction m with
  | nil => simp [memPut, Memory.wf]
  | cons c cs ih =>
    obtain ⟨hc, hcs⟩ := List.pairwise_cons.1 h
    unfold memPut
    split
    · rename_i h1
      refine List.pairwise_cons.2 ⟨?_, h⟩
      intro x hx
      rcases List.mem_cons.1 hx with rfl | hx
      · exact h1
      · exact Nat.lt_trans h1 (hc x hx)
    · split
      · rename_i h1 h2
        refine List.pairwise_cons.2 ⟨?_, hcs⟩
        intro x hx
        exact h2 ▸ hc x hx
      · rename_i h1 h2
        refine List.pairwise_cons.2 ⟨?_, ih hcs⟩
        intro x hx
        rcases memPut_fst_mem cs a b x hx with rfl | hx
        · exact Nat.lt_of_le_of_ne (Nat.le_of_not_lt h1) (Ne.symm h2)
        · exact hc x hx

/-- Storing a word keeps the canonical form. -/
theorem storeWord_wf (m : Memory) (i : Nat) (v : Word) (h : m.wf) : (storeWord m i v).wf :=
  memPut_wf _ _ _ (memPut_wf _ _ _ (memPut_wf _ _ _ (memPut_wf _ _ _ h)))

/-- Everything storing a word does to a byte: the four cells of the word hold its bytes, every other byte is as
before. -/
theorem memGet_storeWord (m : Memory) (i : Nat) (v : Word) (x : Nat) (h : m.wf) :
    memGet (storeWord m i v) x =
      if x = sampleAddr i then some (byteOf v 0)
      else if x = sampleAddr i + 1 then some (byteOf v 1)
      else if x = sampleAddr i + 2 then some (byteOf v 2)
      else if x = sampleAddr i + 3 then some (byteOf v 3)
      else memGet m x := by
  have h1 := memPut_wf m (sampleAddr i) (byteOf v 0) h
  have h2 := memPut_wf _ (sampleAddr i + 1) (byteOf v 1) h1
  have h3 := memPut_wf _ (sampleAddr i + 2) (byteOf v 2) h2
  rw [storeWord, memGet_memPut _ _ _ _ h3, memGet_memPut _ _ _ _ h2, memGet_memPut _ _ _ _ h1,
    memGet_memPut _ _ _ _ h]
  split_ifs <;> first | rfl | omega

/-- A byte outside the stored word reads as before. -/
theorem memGet_storeWord_outside (m : Memory) (i : Nat) (v : Word) (x : Nat) (h : m.wf)
    (hx : x < sampleAddr i ∨ sampleAddr i + 4 ≤ x) : memGet (storeWord m i v) x = memGet m x := by
  rw [memGet_storeWord m i v x h]
  split_ifs <;> first | rfl | omega

theorem bytes_append (v : Word) :
    (byteOf v 3 ++ byteOf v 2 ++ byteOf v 1 ++ byteOf v 0 : BitVec 32) = v := by
  apply BitVec.eq_of_getLsbD_eq
  intro k hk
  simp only [byteOf, BitVec.getLsbD_append, BitVec.getLsbD_extractLsb']
  split_ifs with h1 h2 h3
  · simp [h1]
  · rw [show 8 * 1 + (k - 8) = k by omega]; simp [h2]
  · rw [show 8 * 2 + (k - 8 - 8) = k by omega]; simp [h3]
  · rw [show 8 * 3 + (k - 8 - 8 - 8) = k by omega]
    have h4 : k - 8 - 8 - 8 < 8 := by omega
    simp [h4]

/-- Read after write: the stored word. -/
theorem loadWord_storeWord_same (m : Memory) (i : Nat) (v : Word) (h : m.wf) :
    loadWord (storeWord m i v) i = some v := by
  have hb := bytes_append v
  simp only [loadWord, memGet_storeWord m i v _ h]
  simpa using hb

/-- Storing one word leaves every other word as it was. -/
theorem loadWord_storeWord_ne (m : Memory) (i j : Nat) (v : Word) (h : m.wf) (hij : j ≠ i) :
    loadWord (storeWord m i v) j = loadWord m j := by
  have hx (k : Nat) (hk : k < 4) :
      memGet (storeWord m i v) (sampleAddr j + k) = memGet m (sampleAddr j + k) :=
    memGet_storeWord_outside m i v _ h (by unfold sampleAddr; omega)
  have h0 : memGet (storeWord m i v) (sampleAddr j) = memGet m (sampleAddr j) := hx 0 (by omega)
  rw [loadWord, loadWord, h0, hx 1 (by omega), hx 2 (by omega), hx 3 (by omega)]

end Sys2Proof.Machine
end

