-- ==== Sys2Proof/Laws/PerInstr.lean ====
section
/-! SUPPORT. Facts about every command as syntax, one lemma per constructor of Instr. -/

namespace Sys2Proof.Laws

/-- A command's word is well formed, carries the opcode of R181 in OP and 0 in RSV (R180), and is what a row of the opcode
table numbers. -/
def CommandWord.Statement (i : Instr) : Prop :=
  i.wellFormed = true ∧ wellFormedWord (encode i) = true ∧ opField (encode i) = opcode i ∧ rsvField (encode i) = 0 ∧
    decodeTableWord 32 (encode i).toNat = some i

theorem CommandWord.probe : CommandWord.Statement .probe := ⟨rfl, rfl, rfl, rfl, rfl⟩

theorem CommandWord.scan : CommandWord.Statement .scan := ⟨rfl, rfl, rfl, rfl, rfl⟩

theorem CommandWord.derive : CommandWord.Statement .derive := ⟨rfl, rfl, rfl, rfl, rfl⟩

theorem CommandWord.reduce : CommandWord.Statement .reduce := ⟨rfl, rfl, rfl, rfl, rfl⟩

theorem CommandWord.sample : CommandWord.Statement .sample := ⟨rfl, rfl, rfl, rfl, rfl⟩

theorem CommandWord.clear : CommandWord.Statement .clear := ⟨rfl, rfl, rfl, rfl, rfl⟩

end Sys2Proof.Laws
end

