-- ==== Sys2Proof/Laws/Programs.lean ====
section
/-! SUPPORT. What a turn of a host program does, said once, and that a program's run is a run of the core. -/

namespace Sys2Proof.Machine

@[simp] theorem pollEnds_iff (mask val value : Word) : pollEnds mask val value = true ↔ value &&& mask = val := by
  simp [pollEnds]

@[simp] theorem runProgram_nil (r : HostRun) : runProgram [] r = .next r := rfl

/-- A run of several turns that goes through is a first turn that goes through and a run of the others. -/
theorem runProgram_cons_next {t : Turn} {ts : List Turn} {r r' : HostRun} :
    runProgram (t :: ts) r = .next r' ↔ ∃ m, programTurn t r = .next m ∧ runProgram ts m = .next r' := by
  rw [runProgram]
  cases programTurn t r <;> simp

theorem runProgram_append_next {ts us : List Turn} {r r' : HostRun} :
    runProgram (ts ++ us) r = .next r' ↔ ∃ m, runProgram ts r = .next m ∧ runProgram us m = .next r' := by
  induction ts generalizing r with
  | nil => simp
  | cons t ts ih =>
    simp only [List.cons_append, runProgram_cons_next, ih]
    constructor
    · rintro ⟨m, h, k, h', h''⟩
      exact ⟨k, ⟨m, h, h'⟩, h''⟩
    · rintro ⟨k, ⟨m, h, h'⟩, h''⟩
      exact ⟨m, h, k, h', h''⟩

/-- All that a turn which goes through can do: an ended program waits, or the core takes the step of the turn's event. -/
theorem programTurn_cases {t : Turn} {r r' : HostRun} (h : programTurn t r = .next r') :
    (turnEvent t r.todo = none ∧ r' = r) ∨
      ∃ e s, turnEvent t r.todo = some e ∧ step { r.core with events := e :: r.core.events } = .next s ∧
        r' = afterTurn t r s := by
  unfold programTurn at h
  split at h
  · exact .inl ⟨‹_›, by simpa using h.symm⟩
  · rename_i e he
    split at h
    · exact .inr ⟨e, _, he, ‹_›, by simpa using h.symm⟩
    · cases h
    · cases h

@[simp] theorem afterTurn_core (t : Turn) (r : HostRun) (s : State) : (afterTurn t r s).core = s := by
  unfold afterTurn
  split <;> rfl

/-- The engine's turn moves no line and makes no access. -/
@[simp] theorem afterTurn_engine (r : HostRun) (s : State) : afterTurn .engine r s = { r with core := s } := rfl

/-- The host's turn makes the access of the first line, and ends it where it is over. -/
theorem afterTurn_host {r : HostRun} {o : HostOp} {ops : List HostOp} (s : State) (h : r.todo = o :: ops) :
    afterTurn .host r s =
      { todo := if o.over s.readData then ops else o :: ops, core := s, bus := r.bus ++ [o.transfer s.readData] } := by
  simp [afterTurn, h]

/-- What the events to come are does not matter to an access. -/
theorem hostAccess_events (a : Access) (s : State) (es : List Event) :
    hostAccess a { s with events := es } = { hostAccess a s with events := es } := by
  simp only [hostAccess]
  split_ifs
  · cases a <;> rfl
  · split
    · cases a <;> rfl
    · rename_i t _
      cases a with
      | read w off => cases t <;> rfl
      | write w off v =>
        simp only [writeTarget]
        split
        · rfl
        · cases t with
          | reg r => cases r <;> rfl
          | levels w => rfl
          | sampleWord i => rfl
        · split_ifs
          · rfl
          · cases t with
            | reg r => cases r <;> rfl
            | levels w => rfl
            | sampleWord i => rfl
        · split_ifs
          · rfl
          · cases t with
            | reg r => cases r <;> rfl
            | levels w => rfl
            | sampleWord i => rfl

/-- Nor to a completion. -/
theorem complete_events (i : Instr) (x : Except ErrCode Staged) (s : State) (es : List Event) :
    complete i x { s with events := es } = { complete i x s with events := es } := by
  cases x with
  | error c => rfl
  | ok st => cases st <;> rfl

/-- Nor to the engine's turn. -/
theorem engineTurn_events {s t : State} (es : List Event) (h : engineTurn s = .next t) :
    engineTurn { s with events := es } = .next { t with events := es } := by
  obtain hp | ⟨op, hp⟩ : s.phase = .idle ∨ ∃ op, s.phase = .busy op := by cases s.phase <;> simp
  · have ht : ∀ u : State, u.phase = .idle → engineTurn u = .next u := fun u hu => by simp [engineTurn, hu]
    rw [ht s hp] at h
    cases h
    exact ht _ hp
  · have ht : ∀ u : State, u.phase = .busy op → engineTurn u = runWord op.word u := fun u hu => by
      simp [engineTurn, hu]
    rw [ht s hp] at h
    rw [ht { s with events := es } hp]
    unfold runWord at h ⊢
    split at h
    · rename_i i _
      rw [exec_busy i hp] at h
      rw [exec_busy (s := { s with events := es }) i hp]
      cases h
      rw [← complete_events]
      cases i <;> rfl
    · cases h
      rfl

/-- A step on an event of a program does not depend on what comes after it. -/
theorem step_turnEvent {t : Turn} {todo : List HostOp} {e : Event} {s u : State} {es : List Event}
    (he : turnEvent t todo = some e) (h : step { s with events := e :: es } = .next u) (fs : List Event) :
    u.events = es ∧ step { s with events := e :: fs } = .next { u with events := fs } := by
  have key : ∀ e : Event, (∃ a, e = .access a) ∨ e = .engine →
      step { s with events := e :: es } = .next u →
      u.events = es ∧ step { s with events := e :: fs } = .next { u with events := fs } := by
    rintro e (⟨a, rfl⟩ | rfl) h
    · change accessEvent a { s with events := es } = .next u at h
      change u.events = es ∧ accessEvent a { s with events := fs } = .next { u with events := fs }
      unfold accessEvent at h ⊢
      split_ifs at h ⊢ with hr
      cases h
      simp only [hostAccess_events, and_self]
    · change engineTurn { s with events := es } = .next u at h
      change u.events = es ∧ engineTurn { s with events := fs } = .next { u with events := fs }
      have h0 := engineTurn_events es h
      have hu : u = { u with events := es } := by
        have := h.symm.trans h0
        injection this
      exact ⟨by rw [hu], engineTurn_events (s := { s with events := es }) fs h⟩
  cases t with
  | engine => cases todo <;> (cases he; exact key _ (.inr rfl) h)
  | host =>
    cases todo with
    | nil => cases he
    | cons o ops => cases he; exact key _ (.inl ⟨_, rfl⟩) h

/-- A program's run is a run of the core: on the events the program makes, the core goes from the run's first state to
its last, whatever comes after them (20_memory.md R161). -/
theorem runProgram_is_core_run {turns : List Turn} {r r' : HostRun} (h : runProgram turns r = .next r')
    (es : List Event) :
    Host.Core.run core (programEvents turns r).length { r.core with events := programEvents turns r ++ es } =
      .next { r'.core with events := es } := by
  induction turns generalizing r with
  | nil => cases h; rfl
  | cons t ts ih =>
    obtain ⟨m, hm, hr⟩ := runProgram_cons_next.1 h
    rw [programEvents, hm]
    obtain ⟨hn, rfl⟩ | ⟨e, s, he, hs, rfl⟩ := programTurn_cases hm
    · simpa [hn] using ih hr
    · have hstep := (step_turnEvent he hs (programEvents ts (afterTurn t r s) ++ es)).2
      have := ih hr
      rw [afterTurn_core] at this
      simp only [he, Option.toList_some, List.singleton_append]
      exact (run_succ hstep).trans this

end Sys2Proof.Machine
end

