-- ==== Sys2Proof/Laws/Samples.lean ====
section
/-! SUPPORT. What the samples, the counts and the scanning pass are: lengths, positions, and one lemma for the whole
SCAN fold. -/

namespace Sys2Proof.Machine

/-- A count below `2^32` is held exactly by its register. -/
theorem toReg_toNat {n : Nat} (h : n < 2 ^ 32) : (toReg n).toNat = n := by
  rw [toReg, BitVec.toNat_ofNat, Nat.mod_eq_of_lt h]

@[simp] theorem sampleWords_length (s : State) (n : Nat) : (sampleWords s n).length = n := by simp [sampleWords]

@[simp] theorem wordSamples_length (w : Word) : (wordSamples w).length = 32 := by simp [wordSamples]

theorem samplesOf_cons (w : Word) (ws : List Word) : samplesOf (w :: ws) = wordSamples w ++ samplesOf ws := rfl

@[simp] theorem samplesOf_length (ws : List Word) : (samplesOf ws).length = 32 * ws.length := by
  induction ws with
  | nil => rfl
  | cons w ws ih => rw [samplesOf_cons, List.length_append, ih, wordSamples_length, List.length_cons]; omega

/-- Word `i` of the scanned words, 0 past the last. -/
theorem sampleWords_getD (s : State) (n i : Nat) :
    (sampleWords s n).getD i 0 = if i < n then sampleWord s i else 0 := by
  rw [List.getD_eq_getElem?_getD]
  split_ifs with h
  · simp [sampleWords, List.getElem?_range h]
  · simp [sampleWords, h]

/-- A command's word-count checks passed, if it succeeded. -/
theorem wordCountChecked_ok {p : Config.Params} {op : Latched} {k : Except ErrCode Staged} {st : Staged}
    (h : wordCountChecked p op k = .ok st) : k = .ok st ∧ op.wordCount ≠ 0 ∧ op.wordCount.toNat ≤ p.bufWords := by
  rcases wordCountChecked_cases p op k with ⟨_, e⟩ | ⟨_, e⟩ | ⟨h0, h1, e⟩ <;> rw [e] at h
  · simp at h
  · simp at h
  · exact ⟨h, h0, h1⟩

/-- With a legal word count there are at least 32 samples and fewer than `2^32`, so no count wraps (R9). -/
theorem legal_bounds {op : Latched} {s : State} (h : wordCountLegal op s) :
    32 ≤ 32 * op.wordCount.toNat ∧ 32 * op.wordCount.toNat < 2 ^ 32 := by
  have hb := bufWords_lt s.params
  have hn : op.wordCount.toNat ≠ 0 := fun h0 => h.1 (BitVec.eq_of_toNat_eq h0)
  have h2 := h.2
  omega

/-- A sample at the level of the open run lengthens it (R220). -/
theorem scanBit_same (a : ScanAcc) :
    scanBit a a.lastState =
      { a with high := a.high + (if a.lastState then 1 else 0), runLength := a.runLength + 1 } := by
  cases h : a.lastState <;> simp [scanBit, countHigh, h]

/-- A sample at the other level closes the open run, is a transition and starts a run of length 1 (R220). -/
theorem scanBit_other (a : ScanAcc) :
    scanBit a (!a.lastState) =
      { closeRun a with
        high := a.high + (if a.lastState then 0 else 1), trans := a.trans + 1, runLength := 1
        lastState := !a.lastState } := by
  cases h : a.lastState <;> simp [scanBit, countHigh, closeRun, h]

/-- The group a command stages is its own. -/
theorem bodyOf_group {i : Instr} {op : Latched} {s : State} {st : Staged} (h : bodyOf i op s = .ok st) :
    (i = .probe ∧ ∃ g, st = .probe g) ∨ (i = .scan ∧ ∃ g, st = .scan g) ∨ (i = .derive ∧ ∃ g, st = .derive g) ∨
      (i = .reduce ∧ ∃ g entries runs, st = .reduce g entries runs) ∨ (i = .sample ∧ ∃ b, st = .sample b) ∨
      (i = .clear ∧ st = .clear) := by
  cases i
  · have := (wordCountChecked_ok h).1
    simp at this
    simp [← this]
  · have := (wordCountChecked_ok h).1
    simp at this
    simp [← this]
  · simp only [bodyOf, deriveBody] at h
    split_ifs at h
    simp at h
    simp [← h]
  · have := (wordCountChecked_ok h).1
    simp only [reduceSamples] at this
    split_ifs at this <;> simp at this <;> simp [← this, reduceConstant, reduceMerged]
  · have := (wordCountChecked_ok h).1
    split_ifs at this
    simp at this
    simp [← this]
  · simp [bodyOf, clearBody] at h
    simp [← h]

end Sys2Proof.Machine
end

