-- ==== Sys2Proof/Laws/Runs.lean ====
section
/-! SUPPORT. What the run build, one merge, the merge loop and the emission do, step by step. -/

namespace Sys2Proof.Machine

theorem buildRuns_cons (b : Bool) (bits : List Bool) : buildRuns (b :: bits) = consSample b (buildRuns bits) := rfl

/-- Putting a sample before a run list: it lengthens a first run of its level, or it starts one. -/
theorem consSample_cases (b : Bool) (runs : List Run) :
    (∃ r rest, runs = r :: rest ∧ r.level = b ∧ consSample b runs = { r with length := r.length + 1 } :: rest) ∨
      ((∀ r ∈ runs.head?, r.level ≠ b) ∧ consSample b runs = { level := b, length := 1 } :: runs) := by
  cases runs with
  | nil => exact .inr ⟨by simp, rfl⟩
  | cons r rest =>
    by_cases h : r.level = b
    · exact .inl ⟨r, rest, rfl, h, by simp [consSample, h]⟩
    · exact .inr ⟨by simpa using h, by simp [consSample, h]⟩

theorem lengthsAt_cons (level : Bool) (r : Run) (runs : List Run) :
    lengthsAt level (r :: runs) = if r.level = level then r.length :: lengthsAt level runs else lengthsAt level runs := by
  unfold lengthsAt
  by_cases h : r.level = level <;> simp [h]

theorem totalLength_cons (r : Run) (runs : List Run) : totalLength (r :: runs) = r.length + totalLength runs := by
  simp [totalLength]

theorem totalLength_append (a b : List Run) : totalLength (a ++ b) = totalLength a + totalLength b := by
  simp [totalLength]

/-- The lengths and counts of the two levels make up the list. -/
theorem lengthsAt_split (runs : List Run) :
    (lengthsAt false runs).sum + (lengthsAt true runs).sum = totalLength runs ∧
      (lengthsAt false runs).length + (lengthsAt true runs).length = runs.length := by
  induction runs with
  | nil => simp [lengthsAt, totalLength]
  | cons r runs ih =>
    rcases r with ⟨b, k⟩
    simp only [lengthsAt_cons, totalLength_cons]
    cases b <;> simp <;> omega

/-- A transition count, one sample at a time. -/
theorem transitionCount_cons (a b : Bool) (l : List Bool) :
    transitionCount (a :: b :: l) = (if a ≠ b then 1 else 0) + transitionCount (b :: l) := by
  have h0 : isTransition (a :: b :: l) 0 = false := by simp [isTransition]
  have h1 : isTransition (b :: l) 0 = false := by simp [isTransition]
  have h2 : (isTransition (a :: b :: l) ∘ Nat.succ) 0 = decide (a ≠ b) := by
    simp [isTransition, sampleAt]; cases a <;> cases b <;> simp
  have h3 : (isTransition (a :: b :: l) ∘ Nat.succ) ∘ Nat.succ = isTransition (b :: l) ∘ Nat.succ := by
    funext i; simp [isTransition, sampleAt]
  unfold transitionCount
  rw [List.length_cons, List.range_succ_eq_map, List.countP_cons, List.countP_map, h0, List.length_cons,
    List.range_succ_eq_map, List.countP_cons, List.countP_cons, List.countP_map, List.countP_map, h1, h2, h3]
  by_cases h : a = b <;> simp [h]
  omega

@[simp] theorem mergeRun_length (runs : List Run) (i : Nat) (h : i < runs.length) :
    (mergeRun runs i).length = runs.length - 1 := by
  simp [mergeRun, growRun, List.length_eraseIdx, h]

/-- The merge counter is an accumulator. -/
theorem mergeLoop_acc (thr fuel : Nat) (runs : List Run) (merges : Nat) :
    mergeLoop thr fuel runs merges = ((mergeLoop thr fuel runs 0).1, (mergeLoop thr fuel runs 0).2 + merges) := by
  induction fuel generalizing runs merges with
  | zero => simp [mergeLoop]
  | succ fuel ih =>
    simp only [mergeLoop]
    split_ifs
    · simp
    · split
      · simp
      · rw [ih _ (merges + 1), ih _ (0 + 1)]
        simp
        omega

/-- Fuel beyond the number of runs changes nothing. -/
theorem mergeLoop_fuel (thr fuel : Nat) (runs : List Run) (merges : Nat) (h : runs.length ≤ fuel) :
    mergeLoop thr fuel runs merges = mergeLoop thr runs.length runs merges := by
  induction fuel generalizing runs merges with
  | zero => rw [Nat.le_zero.1 h]
  | succ fuel ih =>
    cases runs with
    | nil => simp [mergeLoop, firstSpike]
    | cons r rs =>
      rw [List.length_cons, mergeLoop, mergeLoop]
      split_ifs
      · rfl
      · split
        · rfl
        · rename_i i hi
          have hi' := (List.findIdx?_eq_some_iff_getElem.1 hi).1
          have hm := mergeRun_length _ _ hi'
          simp only [List.length_cons, Nat.add_sub_cancel] at hm h
          rw [ih _ _ (by omega), hm]

theorem levelOf_ne_indeterminate (b : Bool) : levelOf b ≠ .indeterminate := by cases b <;> simp [levelOf]

theorem levelOf_ne_empty (b : Bool) : levelOf b ≠ .empty := by cases b <;> simp [levelOf]

/-- There is at least one entry per run. -/
theorem emitAfter_length (markEn : Bool) (hint : Nat) (prev : Run) (runs : List Run) :
    runs.length ≤ (emitAfter markEn hint prev runs).length := by
  induction runs generalizing prev with
  | nil => simp [emitAfter]
  | cons r rest ih =>
    have := ih r
    simp only [emitAfter]
    split <;> simp <;> omega

/-- No emitted entry is Empty (R120). -/
theorem emitAfter_ne_empty (markEn : Bool) (hint : Nat) (prev : Run) (runs : List Run) :
    ∀ x ∈ emitAfter markEn hint prev runs, x ≠ Level.empty := by
  induction runs generalizing prev with
  | nil => simp [emitAfter]
  | cons r rest ih =>
    intro x hx
    simp only [emitAfter, List.mem_append, List.mem_cons] at hx
    rcases hx with hx | rfl | hx
    · split at hx
      · simp at hx; simp [hx]
      · simp at hx
    · exact levelOf_ne_empty _
    · exact ih r x hx

/-- Overwriting: the entries from LEVEL[0] up, the rest as before (R300). -/
theorem overwriteLevels_getElem? (entries old : List Level) (j : Nat) :
    (overwriteLevels entries old)[j]? = if j < entries.length then entries[j]? else old[j]? := by
  unfold overwriteLevels
  split_ifs with h
  · rw [List.getElem?_append_left h]
  · rw [List.getElem?_append_right (by omega), List.getElem?_drop]
    congr 1
    omega

end Sys2Proof.Machine
end

