-- ==== Sys2Proof/Tests/Slice0.lean ====
section
/-! SUPPORT. Tests: the decoder and the well-formedness checks, single steps with the expected results of
spec/95_test_vectors.md, and for every statement with hypotheses a concrete state that meets them. -/

namespace Sys2Proof.Tests

open Sys2Proof Sys2Proof.Machine

/-! ### Well-formedness and decoding (30_encoding.md R180 to R182) -/

/-- An ill-formed word for the check of RSV: OP is 1 but bit 4 is set (95_test_vectors.md 2.6, word 0x00000011). -/
theorem test_wellFormed_refuses_rsv : wellFormedWord 0x00000011 = false ∧ opcodeAssigned 0x00000011 = true := by decide

/-- The highest bit of RSV is checked too. -/
theorem test_wellFormed_refuses_rsv_top : wellFormedWord 0x80000002 = false ∧ opcodeAssigned 0x80000002 = true := by
  decide

/-- Ill-formed words for the check of OP: 0, 7 and 15. -/
theorem test_wellFormed_refuses_op :
    wellFormedWord 0x00000000 = false ∧ wellFormedWord 0x00000007 = false ∧ wellFormedWord 0x0000000F = false ∧
      reservedFieldZero 0x00000000 = true ∧ reservedFieldZero 0x00000007 = true ∧ reservedFieldZero 0x0000000F = true := by
  decide

/-- The six words of R181, bit by bit: 28 bits of RSV, then OP. -/
theorem test_decode_probe : decode 0b0000000000000000000000000000_0001#32 = .ok .probe := rfl
theorem test_decode_scan : decode 0b0000000000000000000000000000_0010#32 = .ok .scan := rfl
theorem test_decode_derive : decode 0b0000000000000000000000000000_0011#32 = .ok .derive := rfl
theorem test_decode_reduce : decode 0b0000000000000000000000000000_0100#32 = .ok .reduce := rfl
theorem test_decode_sample : decode 0b0000000000000000000000000000_0101#32 = .ok .sample := rfl
theorem test_decode_clear : decode 0b0000000000000000000000000000_0110#32 = .ok .clear := rfl

/-- The reserved words of R182 are refused by name. -/
theorem test_decode_reserved :
    decode 0x00000000 = .error (.reservedOpcode 0) ∧ decode 0x0000000F = .error (.reservedOpcode 15) ∧
      decode 0x00000011 = .error (.reservedBits 1) ∧ decode 0x80000002 = .error (.reservedBits 0x8000000) :=
  ⟨rfl, rfl, rfl, rfl⟩

/-- The words of spec/opcode_table.json. -/
theorem test_decodeTableWord :
    decodeTableWord 32 1 = some .probe ∧ decodeTableWord 32 2 = some .scan ∧ decodeTableWord 32 3 = some .derive ∧
      decodeTableWord 32 4 = some .reduce ∧ decodeTableWord 32 5 = some .sample ∧ decodeTableWord 32 6 = some .clear ∧
      decodeTableWord 32 0x11 = none :=
  ⟨rfl, rfl, rfl, rfl, rfl, rfl, rfl⟩

/-- The step after `withFetchWord` runs the word, as the first instruction after reset. -/
theorem test_fetch_runs_clear : step (State.reset.withFetchWord 32 6) = exec .clear (State.reset.withFetchWord 32 6) := rfl

/-- Right after reset there is no sample word to scan: EMPTY_BUFFER (60_exceptions.md R401). -/
theorem test_fetch_runs_scan :
    (match step (State.reset.withFetchWord 32 2) with
      | .next t => t.status.errCode
      | _ => .ok) = .emptyBuffer := rfl

/-! ### A small core: BUF_WORDS 2, RUN_CAP 8, MAX_LEVELS 32 -/

/-- The parameters of the test core. -/
def small : Config.Params := { bufWordsLessOne := 1, runCapLessOne := 7, depth := .levels32 }

/-- An IDLE core with two stored words, the word count `n` and nothing to come. -/
def loaded (n w0 w1 : Word) : State :=
  { State.resetWith small with wordCount := n, mem := storeWord (storeWord [] 0 w0) 1 w1 }

/-- The core with a command word accepted. -/
def flying (w : Word) (s : State) : State := accept w s

/-- The core with events to come. -/
def facing (es : List Event) (s : State) : State := { s with events := es }

/-- A 32-bit host read and a 32-bit host write. -/
def rd (off : Word) : Event := .access (.read .w32 off)
def wr (off v : Word) : Event := .access (.write .w32 off v)

/-- A fact about the state a step leads to. -/
def afterStep (s : State) (f : State → Bool) : Bool :=
  match step s with
  | .next t => f t
  | _ => false

/-- The STATUS word the host reads. -/
def statusOf (s : State) : Word := readReg s .status

/-! ### One step of each command, against 95_test_vectors.md section 2 -/

/-- 2.1: [0x00000001, 0x80000000], index 63. -/
theorem test_sample_last : afterStep (flying 5 { loaded 2 0x00000001 0x80000000 with sampleIndex := 63 })
    (fun t => t.sampleBit && statusOf t == 0x10050002) = true := by decide +kernel

/-- 2.1: the same buffer, index 64: BUFFER_TOO_SMALL. -/
theorem test_sample_too_small : afterStep (flying 5 { loaded 2 0x00000001 0x80000000 with sampleIndex := 64 })
    (fun t => !t.sampleBit && statusOf t == 0x00050206) = true := by decide +kernel

/-- 2.2: [0, 0x00000010] has its first transition at 36. -/
theorem test_probe_second_word : afterStep (flying 1 (loaded 2 0 0x00000010))
    (fun t => t.probe == { active := true, index := 36 } && statusOf t == 0x01010002) = true := by decide +kernel

/-- 2.2: WORD_COUNT = BUF_WORDS + 1: WORD_COUNT_RANGE. -/
theorem test_probe_range : afterStep (flying 1 (loaded 3 0 0)) (fun t => statusOf t == 0x00010306) = true := by
  decide +kernel

/-- 2.3: [0xFFFFFFFF, 0x7FFFFFFF]. -/
theorem test_scan_unequal : afterStep (flying 2 (loaded 2 0xFFFFFFFF 0x7FFFFFFF))
    (fun t => t.scan.highCount == 63 && t.scan.transitions == 1 && t.scan.pulseWidth0 == 1 && t.scan.pulseWidth1 == 63 &&
      t.scan.pulseCount0 == 1 && t.scan.pulseCount1 == 1 && t.scan.totalSamples == 64 && t.scan.firstCount == 2 &&
      statusOf t == 0x02020002) = true := by decide +kernel

/-- 2.3: [0x000FFF00], 12 ones of 32: the unused FIRST_WORDs are 0. -/
theorem test_scan_first_words : afterStep (flying 2 (loaded 1 0x000FFF00 0xFFFFFFFF))
    (fun t => t.scan.highCount == 12 && t.scan.pulseWidth0 == 20 && t.scan.pulseCount0 == 2 && t.scan.pulseCount1 == 1 &&
      t.scan.firstWords == #v[0x000FFF00, 0, 0, 0, 0, 0, 0, 0, 0, 0]) = true := by decide +kernel

/-- The SCAN group of [0x00FFFF00] (2.3), in a core with SCAN_VALID set and a rate. -/
def scanned (rate : DWord) : State :=
  { State.resetWith small with
    status := { Status.zero with scanValid := true }
    sampleRateLo := rate.extractLsb' 0 32, sampleRateHi := rate.extractLsb' 32 32
    scan :=
      { ScanGroup.zero with
        highCount := 16, transitions := 2, pulseWidth0 := 16, pulseWidth1 := 16, pulseCount0 := 2, pulseCount1 := 1
        totalSamples := 32, scanWords := 1, firstCount := 1 } }

/-- 2.4: rate 3.5e6 (0x414AB3F000000000): a rounded duration and a frequency that is not exactly 109375. -/
theorem test_derive_rounds : afterStep (flying 3 (scanned 0x414AB3F000000000))
    (fun t => t.derive.dutyCycle == 0x42480000 && t.derive.avgHighPulse == 0x41800000 &&
      t.derive.avgLowPulse == 0x41000000 && t.derive.signalType == .perfectSquare &&
      t.derive.durationHi ++ t.derive.durationLo == 0x3EE32C88B7AB58A1#64 &&
      t.derive.freqHi ++ t.derive.freqLo == 0x40FAB3F000000001#64) = true := by decide +kernel

/-- 2.4: -0.0 is no rate: BAD_RATE, SCAN_VALID stays. -/
theorem test_derive_bad_rate : afterStep (flying 3 (scanned 0x8000000000000000))
    (fun t => t.derive == DeriveGroup.zero && statusOf t == 0x02030506) = true := by decide +kernel

/-- 2.5: [0x00FFFF00] with MARK_EN 1 and MARK_HINT 33: two markers. -/
theorem test_reduce_markers : afterStep (flying 4 { loaded 1 0x00FFFF00 0 with markEn := true, markHint := 33 })
    (fun t => t.reduce.threshold == 3 && t.reduce.markers == 2 && levelsWord t 0 == 0xFFFFFC98 &&
      statusOf t == 0x08040002) = true := by decide +kernel

/-- 2.5: [0x00008000], a spike whose next run is larger. -/
theorem test_reduce_spike : afterStep (flying 4 (loaded 1 0x00008000 0))
    (fun t => t.reduce.runsBuilt == 3 && t.reduce.merges == 1 && levelsWord t 0 == 0xFFFFFFF0 &&
      t.runMem == [{ level := false, length := 15 }, { level := false, length := 17 }]) = true := by decide +kernel

/-- 2.6: CLEAR after a SCAN: STATUS 0x00060002, every count 0. -/
theorem test_clear_after_scan : afterStep (flying 6 (scanned 0))
    (fun t => t.scan == ScanGroup.zero && statusOf t == 0x00060002) = true := by decide +kernel

/-- 2.6: the word 0x11 after a SCAN: BAD_OPCODE, LAST_OP 1, the SCAN group stays. -/
theorem test_reserved_word : afterStep (flying 0x11 (scanned 0))
    (fun t => t.scan.highCount == 16 && statusOf t == 0x02010706) = true := by decide +kernel

/-- 2.7: RD 0x012 is misaligned: 0 and AERR. -/
theorem test_bus_misaligned : afterStep (facing [rd 0x012] { loaded 1 0 0 with readData := 5 })
    (fun t => t.readData == 0 && t.status.aerr) = true := by decide +kernel

/-- 2.7: while BUSY a write to HIGH_COUNT sets AERR, not WERR. -/
theorem test_bus_read_only_busy : afterStep (facing [wr 0x040 7] (flying 2 (loaded 1 0 0)))
    (fun t => t.status.aerr && !t.status.werr) = true := by decide +kernel

/-- 2.7: while BUSY a write to WORD_COUNT is dropped and sets WERR. -/
theorem test_bus_dropped : afterStep (facing [wr 0x01C 7] (flying 2 (loaded 1 0 0)))
    (fun t => t.wordCount == 1 && t.status.werr && !t.status.aerr) = true := by decide +kernel

/-- 2.7: RD 0x408 is reserved with MAX_LEVELS 32. -/
theorem test_bus_levels_end : targetAt small 0x404 = some (.levels 1) ∧ targetAt small 0x408 = none := by decide +kernel

/-! ### Witnesses: hypotheses of the statements met by concrete states -/

/-- The operands a test command latches. -/
def opsOf (w : Word) (s : State) : Latched := latch w s

/-- StepRunsTheCommandInFlight, EveryCommandCompletes, CommandsWriteOnlyTheirGroup. -/
theorem test_witness_step_runs :
    (flying 2 (loaded 2 1 2)).phase = .busy (opsOf 2 (loaded 2 1 2)) ∧ decode (opsOf 2 (loaded 2 1 2)).word = .ok .scan ∧
      (flying 2 (loaded 2 1 2)).events = [] ∧
      (facing [.engine, rd 0] (flying 2 (loaded 2 1 2))).events = .engine :: [rd 0] := ⟨rfl, rfl, rfl, rfl⟩

/-- StepTakesOneEvent. -/
theorem test_witness_one_event :
    (loaded 2 1 2).phase = .idle ∧ (loaded 2 1 2).events = [] ∧
      (facing [.engine, rd 0] (loaded 2 1 2)).events = .engine :: [rd 0] ∧
      ∃ t, step (facing [rd 0] (loaded 2 1 2)) = .next t := ⟨rfl, rfl, rfl, _, rfl⟩

/-- CommandWriteWhileIdleIsAccepted. -/
theorem test_witness_accepted :
    (facing [wr 0x014 0x80000002, .engine] (scanned 7)).rst = false ∧
      (facing [wr 0x014 0x80000002, .engine] (scanned 7)).phase = .idle ∧
      (facing [wr 0x014 0x80000002, .engine] (scanned 7)).events =
        .access (.write .w32 0x014 0x80000002) :: [.engine] := ⟨rfl, rfl, rfl⟩

/-- ReservedWordCompletesWithBadOpcode: the smallest and the largest reserved word. -/
theorem test_witness_reserved :
    (∀ i, (0 : Word) ≠ encode i) ∧ (∀ i, (0xFFFFFFFF : Word) ≠ encode i) ∧
      ∃ t, step (facing [wr 0x014 0, .engine] (scanned 7)) = .next t :=
  ⟨fun i => by cases i <;> decide, fun i => by cases i <;> decide, _, rfl⟩

/-- ExecWhileIdleIsWriteThenCompletion. -/
theorem test_witness_exec_idle :
    (facing [wr 0x014 (encode .scan), .engine] (loaded 2 1 2)).rst = false ∧
      (facing [wr 0x014 (encode .scan), .engine] (loaded 2 1 2)).phase = .idle ∧
      ∃ t, step (facing [wr 0x014 (encode .scan), .engine] (loaded 2 1 2)) = .next t := ⟨rfl, rfl, _, rfl⟩

/-- AcceptedCommandCompletesEventually. -/
theorem test_witness_eventually :
    (facing [rd 0x018, wr 0x01C 5, .engine] (flying 4 (loaded 1 1 2))).phase = .busy (opsOf 4 (loaded 1 1 2)) ∧
      (facing [rd 0x018, wr 0x01C 5, .engine] (flying 4 (loaded 1 1 2))).rst = false ∧
      ∀ b, Event.reset b ∉ (facing [rd 0x018, wr 0x01C 5, .engine] (flying 4 (loaded 1 1 2))).events :=
  ⟨rfl, rfl, by decide⟩

/-- OddAccessesAreRefused: each ground of R151, a width and an alignment. -/
theorem test_witness_odd :
    (facing [.access (.read .w8 0x018)] (scanned 7)).rst = false ∧
      (facing [.access (.read .w8 0x018)] (scanned 7)).events = .access (.read .w8 0x018) :: [] ∧
      (Access.read .w8 0x018).width ≠ .w32 ∧ (Access.write .w64 0x018 1).width ≠ .w32 ∧
      (Access.read .w32 0x012).offset.toNat % 4 ≠ 0 ∧ (Access.write .w32 0xFFFFFFFF 1).offset.toNat % 4 ≠ 0 :=
  ⟨rfl, rfl, by decide, by decide, by decide, by decide⟩

/-- UnmappedAccessesAreRefused: both ends of each reserved or unmapped range of the test core (R96), and the ends of the
mapped ranges beside them. -/
theorem test_witness_unmapped :
    noStateAt small 0x030 ∧ noStateAt small 0x03C ∧ noStateAt small 0x08C ∧ noStateAt small 0x09C ∧
      noStateAt small 0x0D8 ∧ noStateAt small 0x3FC ∧ noStateAt small 0x408 ∧ noStateAt small 0xFFFC ∧
      noStateAt small 0x10008 ∧ noStateAt small 0xFFFFFFFC ∧ ¬noStateAt small 0x02C ∧ ¬noStateAt small 0x040 ∧
      ¬noStateAt small 0x0D4 ∧ ¬noStateAt small 0x400 ∧ ¬noStateAt small 0x404 ∧ ¬noStateAt small 0x10000 ∧
      ¬noStateAt small 0x10004 := by
  and_intros <;> unfold noStateAt <;> decide

/-- UnmappedAccessesAreRefused: a read and a write of the last unmapped offset, with all the hypotheses. -/
theorem test_witness_unmapped_access :
    (facing [rd 0xFFFFFFFC] (scanned 7)).rst = false ∧ (0xFFFFFFFC : Word).toNat % 4 = 0 ∧
      noStateAt (facing [rd 0xFFFFFFFC] (scanned 7)).params (0xFFFFFFFC : Word).toNat ∧
      (facing [rd 0xFFFFFFFC] (scanned 7)).events = .access (.read .w32 0xFFFFFFFC) :: [] ∧
      (facing [wr 0xFFFFFFFC 5] (scanned 7)).events = .access (.write .w32 0xFFFFFFFC 5) :: [] := by
  refine ⟨rfl, by decide, ?_, rfl, rfl⟩
  unfold noStateAt
  decide

/-- ReadOnlyWritesAreRefused: both ends of each read-only range of the test core (R153). -/
theorem test_witness_read_only :
    readOnlyAt small 0x000 ∧ readOnlyAt small 0x00C ∧ readOnlyAt small 0x040 ∧ readOnlyAt small 0x088 ∧
      readOnlyAt small 0x090 ∧ readOnlyAt small 0x098 ∧ readOnlyAt small 0x0A0 ∧ readOnlyAt small 0x0D4 ∧
      readOnlyAt small 0x400 ∧ readOnlyAt small 0x404 ∧ ¬readOnlyAt small 0x408 := by
  and_intros <;> unfold readOnlyAt <;> decide

/-- ReadOnlyWritesAreRefused and WritesWhileBusyAreDropped: a command in flight and a write, with all the hypotheses. -/
theorem test_witness_busy_writes :
    (facing [wr 0x404 5] (flying 2 (loaded 2 1 2))).rst = false ∧ (0x404 : Word).toNat % 4 = 0 ∧
      readOnlyAt (facing [wr 0x404 5] (flying 2 (loaded 2 1 2))).params (0x404 : Word).toNat ∧
      (facing [wr 0x404 5] (flying 2 (loaded 2 1 2))).events = .access (.write .w32 0x404 5) :: [] ∧
      (facing [wr 0x014 5] (flying 2 (loaded 2 1 2))).phase = .busy (opsOf 2 (loaded 2 1 2)) ∧
      (0x014 : Word).toNat % 4 = 0 ∧
      droppedWhileBusyAt (facing [wr 0x014 5] (flying 2 (loaded 2 1 2))).params (0x014 : Word).toNat ∧
      (facing [wr 0x014 5] (flying 2 (loaded 2 1 2))).events = .access (.write .w32 0x014 5) :: [] := by
  refine ⟨rfl, by decide, ?_, rfl, rfl, by decide, ?_, rfl⟩
  · unfold readOnlyAt
    decide
  · unfold droppedWhileBusyAt
    decide

/-- WritesWhileBusyAreDropped: both ends of each range of R155. -/
theorem test_witness_dropped :
    droppedWhileBusyAt small 0x010 ∧ droppedWhileBusyAt small 0x014 ∧ droppedWhileBusyAt small 0x01C ∧
      droppedWhileBusyAt small 0x02C ∧ droppedWhileBusyAt small 0x10000 ∧ droppedWhileBusyAt small 0x10004 ∧
      ¬droppedWhileBusyAt small 0x018 ∧ ¬droppedWhileBusyAt small 0x10008 ∧
      (facing [wr 0x10004 3] (flying 2 (loaded 2 1 2))).phase = .busy (opsOf 2 (loaded 2 1 2)) := by
  refine ⟨?_, ?_, ?_, ?_, ?_, ?_, ?_, ?_, rfl⟩ <;> unfold droppedWhileBusyAt <;> decide

/-- OperandWritesWhileIdleAreStored. -/
theorem test_witness_idle_writes :
    (facing [wr 0x02C 9] (loaded 2 1 2)).rst = false ∧ (facing [wr 0x02C 9] (loaded 2 1 2)).phase = .idle ∧
      (facing [wr 0x010 0xFFFFFFFF] (loaded 2 1 2)).events = .access (.write .w32 0x010 0xFFFFFFFF) :: [] ∧
      (facing [wr 0x02C 9] (loaded 2 1 2)).events = .access (.write .w32 0x02C 9) :: [] := ⟨rfl, rfl, rfl, rfl⟩

/-- SampleWritesWhileIdleAreStored: the first and the last sample word. -/
theorem test_witness_sample_write :
    (loaded 2 1 2).mem.wf ∧ 0 < (loaded 2 1 2).params.bufWords ∧ 1 < (loaded 2 1 2).params.bufWords ∧
      (facing [wr 0x10000 7] (loaded 2 1 2)).events = .access (.write .w32 (BitVec.ofNat 32 (0x10000 + 4 * 0)) 7) :: [] ∧
      (facing [wr 0x10004 7] (loaded 2 1 2)).events = .access (.write .w32 (BitVec.ofNat 32 (0x10000 + 4 * 1)) 7) :: [] :=
  ⟨by decide, by decide, by decide, rfl, rfl⟩

/-- StatusWritesClearOnlyTheirBits. -/
theorem test_witness_status_write :
    (facing [wr 0x018 0xFFFFFFFF] (flying 2 (loaded 2 1 2))).rst = false ∧
      (facing [wr 0x018 0xFFFFFFFF] (flying 2 (loaded 2 1 2))).events =
        .access (.write .w32 0x018 0xFFFFFFFF) :: [] := ⟨rfl, rfl⟩

/-- IdentityRegistersReadConstants, ReadsReturnTheRegisterMap, StatusAndControlWordsHaveTheirFields. -/
theorem test_witness_reads :
    (facing [rd 0x000] (scanned 7)).rst = false ∧ (facing [rd 0x000] (scanned 7)).events = .access (.read .w32 0x000) :: [] ∧
      (facing [rd 0x00C] (scanned 7)).events = .access (.read .w32 0x00C) :: [] ∧
      (facing [rd 0x008] (scanned 7)).events = .access (.read .w32 0x008) :: [] ∧
      (facing [rd 0x008] (scanned 7)).params.runCap < 2 ^ 32 ∧
      (facing [rd 0x018] (scanned 7)).events = .access (.read .w32 0x018) :: [] ∧
      (facing [rd 0x010] (scanned 7)).events = .access (.read .w32 0x010) :: [] ∧
      ((0x014 : Word), (0 : Word)) ∈ registerMap (facing [rd 0x014] (scanned 7)) ∧
      ((0x040 : Word), (16 : Word)) ∈ registerMap (facing [rd 0x040] (scanned 7)) ∧
      ((0x0D4 : Word), (0 : Word)) ∈ registerMap (facing [rd 0x0D4] (scanned 7)) := by
  refine ⟨rfl, rfl, rfl, rfl, ?_, rfl, rfl, ?_, ?_, ?_⟩ <;> decide

/-- The largest RUN_CAP that fits PARAM_RUN_CAP: IdentityRegistersReadConstants, ResetStateReadsTheTable (R54). -/
theorem test_witness_run_cap :
    ({ small with runCapLessOne := 4294967294 } : Config.Params).runCap < 2 ^ 32 ∧
      runCapWord ({ small with runCapLessOne := 4294967294 } : Config.Params).runCap = 0xFFFFFFFF := by decide +kernel

/-- LevelsWordsPackTheEntries: the first and the last LEVELS word of the test core. -/
theorem test_witness_levels :
    0 < small.maxLevels / 16 ∧ 1 < small.maxLevels / 16 ∧
      (facing [rd 0x404] (loaded 2 1 2)).events = .access (.read .w32 (BitVec.ofNat 32 (0x400 + 4 * 1))) :: [] :=
  ⟨by decide, by decide, rfl⟩

/-- SampleReadsReturnTheStoredWord: a written word and a word not written since reset. -/
theorem test_witness_sample_reads :
    (facing [rd 0x10004] (loaded 2 1 2)).events = .access (.read .w32 (BitVec.ofNat 32 (0x10000 + 4 * 1))) :: [] ∧
      loadWord (loaded 2 1 2).mem 1 = some 2 ∧ loadWord (State.resetWith small).mem 1 = none :=
  ⟨rfl, by decide +kernel, rfl⟩

/-- BusyAccessesLeaveTheCommandAlone. -/
theorem test_witness_busy_access :
    (facing [wr 0x01C 5] (flying 2 (loaded 2 1 2))).phase = .busy (opsOf 2 (loaded 2 1 2)) ∧
      (facing [wr 0x01C 5] (flying 2 (loaded 2 1 2))).rst = false ∧
      (facing [wr 0x01C 5] (flying 2 (loaded 2 1 2))).events = .access (.write .w32 0x01C 5) :: [] := ⟨rfl, rfl, rfl⟩

/-- AccessDuringResetIsRefused, ResetAbandonsTheCommand. -/
theorem test_witness_reset_line :
    (facing [rd 0x018] { loaded 2 1 2 with rst := true }).rst = true ∧
      (facing [rd 0x018] { loaded 2 1 2 with rst := true }).events = .access (.read .w32 0x018) :: [] ∧
      ∃ t, step (facing [.reset true, .reset false] (flying 2 (loaded 2 1 2))) = .next t := ⟨rfl, rfl, _, rfl⟩

/-- InterruptFollowsDoneAndEnable: an acceptance, an acknowledge, a CTRL write, a reset, a completion, and the completion
of a reserved word with IE 1. -/
theorem test_witness_irq :
    (∃ t, step (facing [wr 0x014 2] (loaded 2 1 2)) = .next t) ∧
      ((2 : Word).getLsbD 1 = true ∧ ∃ t, step (facing [wr 0x018 2] (loaded 2 1 2)) = .next t) ∧
      (∃ t, step (facing [wr 0x010 0] (loaded 2 1 2)) = .next t) ∧
      (∃ t, step (facing [.reset true] (loaded 2 1 2)) = .next t) ∧ (∃ t, exec .clear (loaded 2 1 2) = .next t) ∧
      (flying 0x11 { loaded 2 1 2 with ie := true }).events = [] ∧
      ∃ t, step (flying 0x11 { loaded 2 1 2 with ie := true }) = .next t :=
  ⟨⟨_, rfl⟩, ⟨by decide, _, rfl⟩, ⟨_, rfl⟩, ⟨_, rfl⟩, ⟨_, rfl⟩, rfl, _, rfl⟩

/-- The commands in flight of the functional statements: word counts 1, BUF_WORDS, 0 and BUF_WORDS + 1. -/
theorem test_witness_word_counts :
    (flying 5 (loaded 1 1 2)).phase = .busy (opsOf 5 (loaded 1 1 2)) ∧
      wordCountLegal (opsOf 5 (loaded 1 1 2)) (flying 5 (loaded 1 1 2)) ∧
      wordCountLegal (opsOf 5 (loaded 2 1 2)) (flying 5 (loaded 2 1 2)) ∧ (opsOf 5 (loaded 0 1 2)).wordCount = 0 ∧
      (flying 5 (loaded 3 1 2)).params.bufWords < (opsOf 5 (loaded 3 1 2)).wordCount.toNat := by
  refine ⟨rfl, ⟨?_, ?_⟩, ⟨?_, ?_⟩, rfl, ?_⟩ <;> decide

/-- SampleReadsTheAddressedSample: the last index that is a sample and the first that is not. -/
theorem test_witness_sample :
    (flying 5 { loaded 2 1 2 with sampleIndex := 63 }).phase = .busy (opsOf 5 { loaded 2 1 2 with sampleIndex := 63 }) ∧
      wordCountLegal (opsOf 5 { loaded 2 1 2 with sampleIndex := 63 }) (flying 5 { loaded 2 1 2 with sampleIndex := 63 }) ∧
      (opsOf 5 { loaded 2 1 2 with sampleIndex := 63 }).sampleIndex.toNat <
        32 * (opsOf 5 { loaded 2 1 2 with sampleIndex := 63 }).wordCount.toNat ∧
      wordCountLegal (opsOf 5 { loaded 2 1 2 with sampleIndex := 64 }) (flying 5 { loaded 2 1 2 with sampleIndex := 64 }) ∧
      32 * (opsOf 5 { loaded 2 1 2 with sampleIndex := 64 }).wordCount.toNat ≤
        (opsOf 5 { loaded 2 1 2 with sampleIndex := 64 }).sampleIndex.toNat := by
  refine ⟨rfl, ⟨?_, ?_⟩, ?_, ⟨?_, ?_⟩, ?_⟩ <;> decide

/-- ProbeFindsTheFirstTransition: a first transition at the last sample, and samples without one. -/
theorem test_witness_probe :
    (flying 1 (loaded 2 0 0x80000000)).phase = .busy (opsOf 1 (loaded 2 0 0x80000000)) ∧
      wordCountLegal (opsOf 1 (loaded 2 0 0x80000000)) (flying 1 (loaded 2 0 0x80000000)) ∧
      63 < 32 * (opsOf 1 (loaded 2 0 0x80000000)).wordCount.toNat ∧
      sampleAt (analyzedSamples (opsOf 1 (loaded 2 0 0x80000000)) (flying 1 (loaded 2 0 0x80000000))) 63 ≠
        sampleAt (analyzedSamples (opsOf 1 (loaded 2 0 0x80000000)) (flying 1 (loaded 2 0 0x80000000))) 0 ∧
      (∀ j, j < 63 →
        sampleAt (analyzedSamples (opsOf 1 (loaded 2 0 0x80000000)) (flying 1 (loaded 2 0 0x80000000))) j =
          sampleAt (analyzedSamples (opsOf 1 (loaded 2 0 0x80000000)) (flying 1 (loaded 2 0 0x80000000))) 0) ∧
      wordCountLegal (opsOf 1 (loaded 1 0xFFFFFFFF 0)) (flying 1 (loaded 1 0xFFFFFFFF 0)) ∧
      ∀ j, j < 32 * (opsOf 1 (loaded 1 0xFFFFFFFF 0)).wordCount.toNat →
        sampleAt (analyzedSamples (opsOf 1 (loaded 1 0xFFFFFFFF 0)) (flying 1 (loaded 1 0xFFFFFFFF 0))) j =
          sampleAt (analyzedSamples (opsOf 1 (loaded 1 0xFFFFFFFF 0)) (flying 1 (loaded 1 0xFFFFFFFF 0))) 0 := by
  refine ⟨rfl, ⟨?_, ?_⟩, ?_, ?_, ?_, ⟨?_, ?_⟩, ?_⟩ <;> decide +kernel

/-- SuccessfulScanIsLawful, ProbeAgreesWithScan: a success, with the first and the last sample equal, and different. -/
theorem test_witness_scan :
    (∃ t, exec .scan (flying 2 (loaded 2 1 2)) = .next t) ∧
      (match exec .scan (flying 2 (loaded 2 1 2)) with | .next t => t.status.err | _ => true) = false ∧
      (match exec .probe (flying 2 (loaded 2 1 2)) with | .next t => t.status.err | _ => true) = false ∧
      sampleAt (analyzedSamples (opsOf 2 (loaded 1 0x80000001 2)) (flying 2 (loaded 1 0x80000001 2))) 0 =
        sampleAt (analyzedSamples (opsOf 2 (loaded 1 0x80000001 2)) (flying 2 (loaded 1 0x80000001 2))) 31 ∧
      sampleAt (analyzedSamples (opsOf 2 (loaded 1 1 2)) (flying 2 (loaded 1 1 2))) 0 ≠
        sampleAt (analyzedSamples (opsOf 2 (loaded 1 1 2)) (flying 2 (loaded 1 1 2))) 31 := by
  refine ⟨⟨_, rfl⟩, ?_, ?_, ?_, ?_⟩ <;> decide +kernel

/-- WordsBeyondTheCountDoNotMatter: a buffer that differs only beyond the word count. -/
theorem test_witness_words_beyond :
    (∀ k, k < (opsOf 2 (loaded 1 5 6)).wordCount.toNat →
      loadWord (loaded 1 5 7).mem k = loadWord (flying 2 (loaded 1 5 6)).mem k) ∧
      (loaded 1 5 7).mem ≠ (loaded 1 5 6).mem ∧ ∃ t, exec .scan (flying 2 (loaded 1 5 6)) = .next t := by
  refine ⟨?_, ?_, _, rfl⟩ <;> decide +kernel

/-- DeriveCommitsTheMetrics: a usable rate, no SCAN, and a bad rate that is used. -/
theorem test_witness_derive :
    (flying 3 (scanned 0x3FF0000000000000)).phase = .busy (opsOf 3 (scanned 0x3FF0000000000000)) ∧
      (opsOf 3 (scanned 0x3FF0000000000000)).scanValid = true ∧ isFinitePos (opsOf 3 (scanned 0x3FF0000000000000)).rate = true ∧
      (opsOf 3 (loaded 1 1 2)).scanValid = false ∧ 1 < (opsOf 3 (scanned 0)).scan.transitions.toNat ∧
      isFinitePos (opsOf 3 (scanned 0)).rate = false := by
  refine ⟨rfl, rfl, ?_, rfl, ?_, ?_⟩ <;> decide +kernel

/-- SingleQuotientIsNearestEven, DoubleDivisionIsNearestEven: finite quotients, one of them exactly 100, and infinity. -/
theorem test_witness_rounding :
    (rnd32 1 3).toNat ≠ 0x7F800000 ∧ 100 * 7 ≤ 100 * 7 ∧ (rnd32 (100 * 7) 7).toNat = 0x42C80000 ∧
      isFinitePos 1 = true ∧ isFinitePos 0x7FEFFFFFFFFFFFFF = true ∧ div64 0x3FF0000000000000 0x4008000000000000 ≠ inf64 ∧
      div64 0x7FEFFFFFFFFFFFFF 1 = inf64 := by decide +kernel

/-- The last quotient below the midpoint above the largest finite value, and the midpoint: R17 sends a tie to the even
significand, which is the step to +infinity. -/
theorem test_infinity_from_the_midpoint :
    rnd32 ((2 ^ 25 - 1) * 2 ^ 103 - 1) 1 = 0x7F7FFFFF ∧ rnd32 ((2 ^ 25 - 1) * 2 ^ 103) 1 = 0x7F800000 ∧
      rnd64 ((2 ^ 54 - 1) * 2 ^ 970 - 1) 1 = 0x7FEFFFFFFFFFFFFF ∧ rnd64 ((2 ^ 54 - 1) * 2 ^ 970) 1 = inf64 := by
  decide +kernel

/-- DerivedMetricsObeyTheirLaws: a lawful SCAN group, that of [0x00FFFF00]. -/
theorem test_witness_lawful : (scanned 0).scan.lawful := by
  constructor <;> decide

/-- FrequencyIsNeverInfinite: rates at which DURATION is finite and infinite (95_test_vectors.md 2.4). -/
theorem test_witness_frequency :
    32 ≤ (scanned 0).scan.totalSamples.toNat ∧ 2 ≤ (scanned 0).scan.transitions.toNat ∧
      isFinitePos 0x7FEFFFFFFFFFFFFF = true ∧ captureDuration (scanned 0).scan 0x7FEFFFFFFFFFFFFF ≠ inf64 ∧
      captureDuration (scanned 0).scan 1 = inf64 := by decide +kernel

/-- MergeLoopRestartsUntilNoSpike: a list with a spike, one without, and one of a single run. -/
theorem test_witness_merge :
    firstSpike 3 [⟨false, 16⟩, ⟨true, 1⟩, ⟨false, 15⟩] = some 1 ∧ firstSpike 3 [⟨false, 16⟩, ⟨true, 16⟩] = none ∧
      ([⟨false, 1⟩] : List Run).length = 1 := by decide

/-- MarkersPrecedeShortLevelChanges: the mode off, and the mode on with hint 0. -/
theorem test_witness_markers : (false = false ∨ 5 = 0) ∧ (true = false ∨ 0 = 0) := by decide

/-- ReduceCommitsTheReducedWaveform: three runs within RUN_CAP, and 32 runs beyond it. -/
theorem test_witness_reduce :
    (flying 4 (loaded 1 0x00FFFF00 0)).phase = .busy (opsOf 4 (loaded 1 0x00FFFF00 0)) ∧
      wordCountLegal (opsOf 4 (loaded 1 0x00FFFF00 0)) (flying 4 (loaded 1 0x00FFFF00 0)) ∧
      2 ≤ (buildRuns (analyzedSamples (opsOf 4 (loaded 1 0x00FFFF00 0)) (flying 4 (loaded 1 0x00FFFF00 0)))).length ∧
      (buildRuns (analyzedSamples (opsOf 4 (loaded 1 0x00FFFF00 0)) (flying 4 (loaded 1 0x00FFFF00 0)))).length ≤
        (flying 4 (loaded 1 0x00FFFF00 0)).params.runCap ∧
      wordCountLegal (opsOf 4 (loaded 1 0xAAAAAAAA 0)) (flying 4 (loaded 1 0xAAAAAAAA 0)) ∧
      (flying 4 (loaded 1 0xAAAAAAAA 0)).params.runCap <
        (buildRuns (analyzedSamples (opsOf 4 (loaded 1 0xAAAAAAAA 0)) (flying 4 (loaded 1 0xAAAAAAAA 0)))).length := by
  refine ⟨rfl, ⟨?_, ?_⟩, ?_, ?_, ⟨?_, ?_⟩, ?_⟩ <;> decide +kernel

/-- ReduceOfConstantSamplesEmitsOneLevel. -/
theorem test_witness_reduce_constant :
    wordCountLegal (opsOf 4 (loaded 2 0 0)) (flying 4 (loaded 2 0 0)) ∧
      ∀ j, j < 32 * (opsOf 4 (loaded 2 0 0)).wordCount.toNat →
        sampleAt (analyzedSamples (opsOf 4 (loaded 2 0 0)) (flying 4 (loaded 2 0 0))) j = false := by
  refine ⟨⟨?_, ?_⟩, ?_⟩ <;> decide +kernel

/-- ReductionObeysItsLaws: thirty-two samples with a transition and no short run. -/
theorem test_witness_reduction_laws :
    32 ≤ (wordSamples 0x00FFFF00).length ∧ 2 ≤ (buildRuns (wordSamples 0x00FFFF00)).length ∧
      ∀ r ∈ buildRuns (wordSamples 0x00FFFF00),
        spikeThreshold (wordSamples 0x00FFFF00).length ((buildRuns (wordSamples 0x00FFFF00)).length - 1) ≤ r.length := by
  decide +kernel

/-- ErrorsArePrecise: a failed command. -/
theorem test_witness_error :
    ∃ t, exec .probe (flying 1 (loaded 0 1 2)) = .next t ∧ t.status.errCode ≠ .ok := ⟨_, rfl, by decide⟩

/-- ValidBitsFollowTheTable: a reserved word in flight, and an access, both with a next state. -/
theorem test_witness_valid_bits :
    (∀ i, (opsOf 0 (scanned 7)).word ≠ encode i) ∧ (∃ t, step (facing [.engine] (flying 0 (scanned 7))) = .next t) ∧
      ∃ t, step (facing [rd 0x018] (scanned 7)) = .next t :=
  ⟨fun i => by cases i <;> decide, ⟨_, rfl⟩, _, rfl⟩

/-- StickyFlagsHaveTheirOnlyCauses: the flags rise and fall. -/
theorem test_witness_sticky :
    afterStep (facing [rd 0x030] (scanned 7)) (fun t => !(scanned 7).status.aerr && t.status.aerr) = true ∧
      afterStep (facing [wr 0x018 0x18] { scanned 7 with status := { Status.zero with aerr := true, werr := true } })
        (fun t => !t.status.aerr && !t.status.werr) = true ∧
      afterStep (facing [wr 0x01C 5] (flying 2 (scanned 7))) (fun t => !(scanned 7).status.werr && t.status.werr) = true := by
  decide +kernel

/-- DoneAndLastOpHaveTheirOnlyCauses: DONE rises and falls, LAST_OP changes. -/
theorem test_witness_done :
    afterStep (flying 6 (scanned 7)) (fun t => !(flying 6 (scanned 7)).status.done && t.status.done) = true ∧
      afterStep (facing [wr 0x018 2] { scanned 7 with status := { Status.zero with done := true } })
        (fun t => !t.status.done) = true ∧
      afterStep (facing [wr 0x014 2] (scanned 7)) (fun t => t.status.lastOp != (scanned 7).status.lastOp) = true := by
  decide +kernel

/-- ResultsAndSamplesHaveTheirOnlyWriters: a result and a sample word change. -/
theorem test_witness_writers :
    afterStep (flying 6 (scanned 7)) (fun t => committedResults t != committedResults (flying 6 (scanned 7))) = true ∧
      afterStep (facing [wr 0x10000 9] (loaded 1 1 2)) (fun t => t.mem != (loaded 1 1 2).mem) = true := by
  decide +kernel

/-- StepKeepsTheInvariant: a state with a command in flight that meets the invariant. -/
theorem test_witness_invariant : (flying 3 (State.resetWith small)).Inv := by
  constructor
  case memCanonical => decide
  case memInWindow => intro a h; simp [flying, accept, State.resetWith] at h
  case memWhole => intro i j _; rfl
  case errIffCode => rfl
  case busyStatus =>
    intro op h
    simp only [flying, accept, State.resetWith] at h
    injection h with h
    subst h
    exact ⟨rfl, rfl, rfl⟩
  case latchHolds =>
    intro op h
    simp only [flying, accept, State.resetWith] at h
    injection h with h
    subst h
    rfl
  case nothingStaged => rfl
  case levelsFilled => intro j h; simp [flying, accept, State.resetWith, ReduceGroup.zero] at h
  case levelCountPositive => intro h; simp [flying, accept, State.resetWith, statusAccept, Status.zero] at h
  case scanLawful => intro h; simp [flying, accept, State.resetWith, statusAccept, Status.zero] at h
  case heldInReset => intro h; simp [flying, accept, State.resetWith] at h
  case firstWordsZero =>
    intro j _
    simp only [flying, accept, State.resetWith, ScanGroup.zero]
    revert j
    decide
  all_goals decide

/-- StepKeepsTheInvariant: that state takes a step. -/
theorem test_witness_invariant_step : ∃ t, step (flying 3 (State.resetWith small)) = .next t := ⟨_, rfl⟩

/-- HiddenMemoriesNeverShow: two different states, alike but for the run memory. -/
theorem test_witness_alike :
    alike (scanned 7) { scanned 7 with runMem := [{ level := true, length := 3 }] } ∧
      scanned 7 ≠ { scanned 7 with runMem := [{ level := true, length := 3 }] } :=
  ⟨⟨rfl, fun _ => rfl⟩, by decide⟩

/-- A host at the start of a program. -/
def atProgram (ops : List HostOp) (s : State) : HostRun := { todo := ops, core := s, bus := [] }

/-- A fact about the end of a program's run. -/
def afterRun (turns : List Turn) (r : HostRun) (f : HostRun → Bool) : Bool :=
  match runProgram turns r with
  | .next r' => f r'
  | _ => false

/-- Program P1, line 3, with one read before the completion: the encodings of its accesses, and the poll's end. -/
theorem test_run_probe :
    afterRun [.host, .host, .engine, .host] (atProgram (Pseudo.run 1).expand (loaded 1 0 0))
      (fun r => r.todo == [] && r.bus ==
        [⟨true, 0x014, 0x00000001⟩, ⟨false, 0x018, 0x00010001⟩, ⟨false, 0x018, 0x01010002⟩]) = true := by
  decide +kernel

/-- A poll of another register: it ends at once where its condition holds, completion or not, and goes on where it does
not, after a completion too (R188). -/
theorem test_poll_condition :
    afterRun [.host] (atProgram [.poll 0x01C 0xFF 1] (flying 2 (loaded 1 0 0))) (fun r => r.todo == []) = true ∧
      afterRun [.host, .engine, .host] (atProgram [.poll 0x01C 0xFF 2] (flying 2 (loaded 1 0 0)))
        (fun r => r.todo == [.poll 0x01C 0xFF 2] && r.bus.length == 2) = true := by decide +kernel

/-- RunEndsWithDoneSet: an IDLE core; a run of an order of turns that ends, and one turn of a poll. -/
theorem test_witness_run :
    (loaded 2 1 2).rst = false ∧ (loaded 2 1 2).phase = .idle ∧
      afterRun [.engine, .host, .engine, .host] (atProgram (Pseudo.run 2).expand (loaded 2 1 2))
        (fun r => r.todo == []) = true ∧
      ∃ r, runProgram [.host] (atProgram [.poll 0x018 2 2] (loaded 2 1 2)) = .next r := by
  refine ⟨rfl, rfl, ?_, _, rfl⟩
  decide +kernel

/-- LatencyDoesNotChangeResults: a dropped write, a refused read and reads of two offsets while a command waits. -/
theorem test_witness_latency :
    (flying 2 (loaded 2 1 2)).phase = .busy (opsOf 2 (loaded 2 1 2)) ∧ (flying 2 (loaded 2 1 2)).rst = false ∧
      (∀ k, k < (opsOf 2 (loaded 2 1 2)).wordCount.toNat → (loadWord (flying 2 (loaded 2 1 2)).mem k).isSome = true) ∧
      (∃ t, Host.Core.run core 5
        { flying 2 (loaded 2 1 2) with
          events :=
            ([.write .w32 0x01C 5, .read .w16 0x018, .read .w32 0x10004, .read .w32 0x040] : List Access).map
              Event.access ++ [.engine] } = .next t) ∧
      ∃ u, step { flying 2 (loaded 2 1 2) with events := [.engine] } = .next u := by
  refine ⟨rfl, rfl, by decide +kernel, ⟨_, rfl⟩, _, rfl⟩

/-- LatencyDoesNotChangeResults: reads that are performed, of the last sample word and of a result. -/
theorem test_witness_latency_reads :
    ∀ a ∈ ([.read .w32 0x10004, .read .w32 0x040] : List Access), ∃ off : Word, a = .read .w32 off ∧
      off.toNat % 4 = 0 ∧ ¬noStateAt (flying 2 (loaded 2 1 2)).params off.toNat := by
  intro a ha
  simp only [List.mem_cons, List.not_mem_nil, or_false] at ha
  rcases ha with rfl | rfl <;> refine ⟨_, rfl, by decide, ?_⟩ <;> unfold noStateAt <;> decide

/-- LoadStoresTheWords: a load that fills the buffer to its end. -/
theorem test_witness_load :
    (loaded 2 1 2).rst = false ∧ (loaded 2 1 2).phase = .idle ∧ (loaded 2 1 2).mem.wf ∧
      0 + ([7, 8] : List Word).length ≤ (loaded 2 1 2).params.bufWords := ⟨rfl, rfl, by decide, by decide⟩

end Sys2Proof.Tests
end

section
/-! PROOFS, 00_scope.md: the quotients of R17 are correctly rounded (SingleQuotientIsNearestEven,
DoubleDivisionIsNearestEven). The finite encodings are the naturals in the order of their values, so the one idea is the
pair of neighbouring encodings `f` and `f + 1` that enclose the quotient (`RoundsTo`): the encoding chosen is the nearer
of the two, the even one on a tie, and every other encoding lies outside the pair. -/

namespace Sys2Proof.Machine

/-! ### The value of an encoding -/

/-- A normal encoding, split into its exponent and its fraction. -/
theorem magnitudeOf_normal (p sh r : Nat) (hr : r < 2 ^ (p - 1)) :
    magnitudeOf p ((sh + 1) * 2 ^ (p - 1) + r) = (2 ^ (p - 1) + r) * 2 ^ sh := by
  have hdiv : ((sh + 1) * 2 ^ (p - 1) + r) / 2 ^ (p - 1) = sh + 1 := by
    rw [mul_comm, Nat.mul_add_div (by positivity), Nat.div_eq_of_lt hr, add_zero]
  have hmod : ((sh + 1) * 2 ^ (p - 1) + r) % 2 ^ (p - 1) = r := by
    rw [mul_comm, Nat.mul_add_mod, Nat.mod_eq_of_lt hr]
  have hge : ¬(sh + 1) * 2 ^ (p - 1) + r < 2 ^ (p - 1) := by
    rw [add_one_mul]
    omega
  rw [magnitudeOf, if_neg hge, hdiv, hmod, Nat.add_sub_cancel]

/-- In the binade of spacing `2^sh`, both of its ends included, the encoding of `m * 2^sh` is `sh * 2^(p-1) + m`. -/
theorem magnitudeOf_binade (p sh m : Nat) (hm : m ≤ 2 * 2 ^ (p - 1)) (hsh : sh = 0 ∨ 2 ^ (p - 1) ≤ m) :
    magnitudeOf p (sh * 2 ^ (p - 1) + m) = m * 2 ^ sh := by
  rcases lt_or_ge m (2 ^ (p - 1)) with hlow | hnormal
  · obtain rfl : sh = 0 := by omega
    simp [magnitudeOf, hlow]
  obtain ⟨r, rfl⟩ := Nat.exists_eq_add_of_le hnormal
  rcases lt_or_ge r (2 ^ (p - 1)) with hr | hr
  · rw [← magnitudeOf_normal p sh r hr]
    ring_nf
  · obtain rfl : r = 2 ^ (p - 1) := by omega
    have h := magnitudeOf_normal p (sh + 1) 0 (by positivity)
    calc magnitudeOf p (sh * 2 ^ (p - 1) + (2 ^ (p - 1) + 2 ^ (p - 1)))
        = magnitudeOf p ((sh + 1 + 1) * 2 ^ (p - 1) + 0) := by ring_nf
      _ = (2 ^ (p - 1) + 2 ^ (p - 1)) * 2 ^ sh := by rw [h]; ring

/-- Every encoding lies below the upper end of a binade. -/
theorem exists_binade (p e : Nat) :
    ∃ sh m, e = sh * 2 ^ (p - 1) + m ∧ m < 2 * 2 ^ (p - 1) ∧ (sh = 0 ∨ 2 ^ (p - 1) ≤ m) := by
  have hmod : e % 2 ^ (p - 1) < 2 ^ (p - 1) := Nat.mod_lt _ (by positivity)
  have hdiv : e / 2 ^ (p - 1) * 2 ^ (p - 1) + e % 2 ^ (p - 1) = e := Nat.div_add_mod' _ _
  cases hk : e / 2 ^ (p - 1) with
  | zero =>
    rw [hk] at hdiv
    exact ⟨0, e, by simp, by omega, .inl rfl⟩
  | succ k =>
    rw [hk, add_one_mul] at hdiv
    exact ⟨k, 2 ^ (p - 1) + e % 2 ^ (p - 1), by omega, by omega, .inr (by omega)⟩

/-- Encodings are in the order of their values. -/
theorem magnitudeOf_strictMono (p : Nat) : StrictMono (magnitudeOf p) := by
  refine strictMono_nat_of_lt_succ fun e => ?_
  obtain ⟨sh, m, rfl, hm, hsh⟩ := exists_binade p e
  rw [add_assoc, magnitudeOf_binade p sh m hm.le hsh, magnitudeOf_binade p sh (m + 1) hm (by omega)]
  exact Nat.mul_lt_mul_of_pos_right m.lt_succ_self (by positivity)

/-! ### Rounding to one of two neighbours -/

/-- `e` is what `num / den`, in units of the smallest positive value, rounds to when the exponent is unbounded: of the
two neighbouring encodings around it the nearer one, on a tie the even one (R17). -/
def RoundsTo (p num den e : Nat) : Prop :=
  ∃ f, magnitudeOf p f * den ≤ num ∧ num < magnitudeOf p (f + 1) * den ∧
    ((e = f ∧ 2 * num ≤ magnitudeOf p f * den + magnitudeOf p (f + 1) * den) ∨
      (e = f + 1 ∧ magnitudeOf p f * den + magnitudeOf p (f + 1) * den ≤ 2 * num)) ∧
    (2 * num = magnitudeOf p f * den + magnitudeOf p (f + 1) * den → e % 2 = 0)

/-- The values of the encodings scaled by a positive divisor keep their order. -/
theorem magnitudeOf_mul_lt {p den v w : Nat} (hden : 0 < den) (h : v < w) :
    magnitudeOf p v * den < magnitudeOf p w * den :=
  Nat.mul_lt_mul_of_pos_right (magnitudeOf_strictMono p h) hden

theorem magnitudeOf_mul_le {p v w : Nat} (den : Nat) (h : v ≤ w) :
    magnitudeOf p v * den ≤ magnitudeOf p w * den :=
  Nat.mul_le_mul_right den ((magnitudeOf_strictMono p).monotone h)

/-- Only a positive divisor leaves room between two neighbours. -/
theorem RoundsTo.den_pos {p num den e : Nat} (h : RoundsTo p num den e) : 0 < den := by
  obtain ⟨f, -, hhi, -⟩ := h
  exact Nat.pos_of_mul_pos_left (Nat.zero_lt_of_lt hhi)

/-- No encoding is nearer than the one rounded to, and one as near leaves it even. -/
theorem RoundsTo.error_lt_or_eq {p u num den e v : Nat} (h : RoundsTo p (num * 2 ^ u) den e) (hv : v ≠ e) :
    roundingError p u e num den < roundingError p u v num den ∨
      (roundingError p u e num den = roundingError p u v num den ∧ e % 2 = 0) := by
  have hden := h.den_pos
  obtain ⟨f, hlo, hhi, hnear, htie⟩ := h
  unfold roundingError
  generalize num * 2 ^ u = scaled at *
  rcases hnear with ⟨rfl, hn⟩ | ⟨rfl, hn⟩
  · rcases lt_or_gt_of_ne hv with hlt | hgt
    · have hbelow := magnitudeOf_mul_lt (p := p) hden hlt
      omega
    · have habove : magnitudeOf p (e + 1) * den ≤ magnitudeOf p v * den := magnitudeOf_mul_le den hgt
      omega
  · rcases lt_or_gt_of_ne hv with hlt | hgt
    · have hbelow := magnitudeOf_mul_le (p := p) den (Nat.le_of_lt_succ hlt)
      omega
    · have habove := magnitudeOf_mul_lt (p := p) hden hgt
      omega

/-- The result passes `v` exactly when the quotient passes the midpoint above `v`, or is that midpoint and `v`
is odd. -/
theorem RoundsTo.lt_iff {p num den e : Nat} (h : RoundsTo p num den e) (v : Nat) :
    v < e ↔ magnitudeOf p v * den + magnitudeOf p (v + 1) * den < 2 * num ∨
      (magnitudeOf p v * den + magnitudeOf p (v + 1) * den = 2 * num ∧ v % 2 = 1) := by
  have hden := h.den_pos
  obtain ⟨f, hlo, hhi, hnear, htie⟩ := h
  rcases lt_trichotomy v f with hvf | rfl | hvf
  · have hv := magnitudeOf_mul_lt (p := p) hden hvf
    have hv' : magnitudeOf p (v + 1) * den ≤ magnitudeOf p f * den := magnitudeOf_mul_le den hvf
    omega
  · omega
  · have hv : magnitudeOf p (f + 1) * den ≤ magnitudeOf p v * den := magnitudeOf_mul_le den hvf
    have hv' := magnitudeOf_mul_lt (p := p) hden (lt_add_one v)
    omega

/-! ### The encoding of a quotient -/

/-- The spacing exponent of `encodeQuotient`: the quotient lies in the binade of `2^sh`, with the first `2^p` multiples
of the smallest positive value all in the binade 0. -/
def spacing (p num den : Nat) : Nat := Nat.log2 (num / den) + 1 - p

/-- `encodeQuotient` before it is cut off at +infinity, `num` in units of the smallest positive value. -/
def unboundedEncoding (p num den : Nat) : Nat :=
  spacing p num den * 2 ^ (p - 1) + roundNearestEven num (den * 2 ^ spacing p num den)

theorem encodeQuotient_eq_min (p u inf num den : Nat) :
    encodeQuotient p u inf num den = min (unboundedEncoding p (num * 2 ^ u) den) inf := rfl

/-- The significand, rounded down, has at most `p` bits, and exactly `p` in a binade above the first. -/
theorem significand_bounds {p : Nat} (num den : Nat) (hp : 1 ≤ p) :
    num / (den * 2 ^ spacing p num den) < 2 * 2 ^ (p - 1) ∧
      (spacing p num den = 0 ∨ 2 ^ (p - 1) ≤ num / (den * 2 ^ spacing p num den)) := by
  obtain ⟨n, rfl⟩ := Nat.exists_eq_add_of_le' hp
  rw [← Nat.div_div_eq_div_mul, Nat.div_lt_iff_lt_mul (by positivity), Nat.le_div_iff_mul_le (by positivity),
    Nat.add_sub_cancel, ← pow_succ', ← pow_add, ← pow_add]
  refine ⟨?_, ?_⟩
  · calc num / den < 2 ^ (Nat.log2 (num / den) + 1) := Nat.lt_log2_self
      _ ≤ 2 ^ (n + 1 + spacing (n + 1) num den) := Nat.pow_le_pow_right two_pos (by unfold spacing; omega)
  · by_cases h0 : num / den = 0
    · exact .inl (by simp [spacing, h0])
    · refine or_iff_not_imp_left.2 fun hsh => ?_
      have hlog : n + spacing (n + 1) num den = Nat.log2 (num / den) := by
        unfold spacing at hsh ⊢
        omega
      rw [hlog]
      exact Nat.log2_self_le h0

/-- A binade starts at an even encoding. -/
theorem two_dvd_mul_two_pow {p : Nat} (sh : Nat) (hp : 2 ≤ p) : 2 ∣ sh * 2 ^ (p - 1) :=
  Dvd.dvd.mul_left (dvd_pow_self 2 (by omega)) sh

/-- The encoding of a quotient, not yet cut off, is the correctly rounded one. -/
theorem roundsTo_unboundedEncoding {p den : Nat} (num : Nat) (hp : 2 ≤ p) (hden : 0 < den) :
    RoundsTo p num den (unboundedEncoding p num den) := by
  obtain ⟨hlt, hsh⟩ := significand_bounds num den (show 1 ≤ p by omega)
  unfold unboundedEncoding
  generalize spacing p num den = sh at *
  have hlo := magnitudeOf_binade p sh _ hlt.le hsh
  have hhi := magnitudeOf_binade p sh _ (Nat.succ_le_of_lt hlt) (by omega)
  have heven := two_dvd_mul_two_pow sh hp
  have hdiv := Nat.div_add_mod num (den * 2 ^ sh)
  have hmod := Nat.mod_lt num (show 0 < den * 2 ^ sh by positivity)
  have hround := roundNearestEven_cases num (den * 2 ^ sh)
  have htie := roundNearestEven_tie num (den * 2 ^ sh)
  generalize num / (den * 2 ^ sh) = q at *
  have hq : q * 2 ^ sh * den = den * 2 ^ sh * q := by ring
  have hq' : (q + 1) * 2 ^ sh * den = den * 2 ^ sh * q + den * 2 ^ sh := by ring
  refine ⟨sh * 2 ^ (p - 1) + q, ?_⟩
  rw [add_assoc, hlo, hhi, hq, hq']
  omega

/-- A quotient that is a multiple of the spacing has an encoding of exactly its value. -/
theorem magnitudeOf_unboundedEncoding {p num den : Nat} (hp : 1 ≤ p) (hden : 0 < den)
    (hdvd : den * 2 ^ spacing p num den ∣ num) : magnitudeOf p (unboundedEncoding p num den) * den = num := by
  obtain ⟨hlt, hsh⟩ := significand_bounds num den hp
  have hround := roundNearestEven_exact (num / (den * 2 ^ spacing p num den)) (den * 2 ^ spacing p num den)
    (by positivity)
  rw [Nat.div_mul_cancel hdvd] at hround
  rw [unboundedEncoding, hround, magnitudeOf_binade p _ _ hlt.le hsh, mul_assoc, mul_comm (2 ^ _),
    Nat.div_mul_cancel hdvd]

/-- An encoding below that of +infinity is the nearest one. -/
theorem isNearest_encodeQuotient {p u inf num den : Nat} (hp : 2 ≤ p) (hden : 0 < den)
    (hfin : encodeQuotient p u inf num den ≠ inf) : isNearest p u inf (encodeQuotient p u inf num den) num den := by
  have hlt := lt_of_le_of_ne (encodeQuotient_le p u inf num den) hfin
  refine ⟨hlt, fun v _ hv => ?_⟩
  rw [encodeQuotient_eq_min] at hlt hv ⊢
  rw [min_eq_left (by omega)] at hv ⊢
  exact (roundsTo_unboundedEncoding _ hp hden).error_lt_or_eq hv

/-- Where the quotient is at most the value of a finite encoding, its encoding is at most that one. -/
theorem encodeQuotient_le_of_le {p u inf num den v : Nat} (hp : 2 ≤ p) (hden : 0 < den)
    (h : num * 2 ^ u ≤ magnitudeOf p v * den) : encodeQuotient p u inf num den ≤ v := by
  rw [encodeQuotient_eq_min]
  refine min_le_of_left_le (Nat.le_of_not_lt fun hlt => ?_)
  have hmid := ((roundsTo_unboundedEncoding _ hp hden).lt_iff v).1 hlt
  have hup := magnitudeOf_mul_lt (p := p) hden (lt_add_one v)
  omega

/-- Twice the midpoint between the largest finite value, whose significand is `2^p - 1`, and the next power of two. -/
theorem magnitudeOf_add_succ_of_binade_end {p sh m : Nat} (hp : 1 ≤ p) (hm : m + 1 = 2 * 2 ^ (p - 1)) :
    magnitudeOf p (sh * 2 ^ (p - 1) + m) + magnitudeOf p (sh * 2 ^ (p - 1) + m + 1) =
      (2 ^ (p + 1) - 1) * 2 ^ sh := by
  have hpow : 2 ^ (p + 1) = 2 * (2 * 2 ^ (p - 1)) := by
    rw [← pow_succ', ← pow_succ', Nat.sub_add_cancel hp]
  have hpos : 0 < 2 ^ (p - 1) := by positivity
  rw [add_assoc, magnitudeOf_binade p sh m (by omega) (by omega), magnitudeOf_binade p sh (m + 1) hm.le (by omega),
    ← add_mul]
  congr 1
  omega

/-- +infinity exactly from the midpoint between the largest finite value, `(2^p - 1) * 2^(c+1)`, and the next power of
two up: that midpoint is a tie, and the largest finite value has an odd significand. -/
theorem encodeQuotient_eq_inf_iff {p u c inf num den : Nat} (hp : 2 ≤ p) (hden : 0 < den)
    (hinf : inf = (u + c + 1) * 2 ^ (p - 1) + 2 * 2 ^ (p - 1)) :
    encodeQuotient p u inf num den = inf ↔ (2 ^ (p + 1) - 1) * 2 ^ c * den ≤ num := by
  obtain ⟨m, hm⟩ : ∃ m, m + 1 = 2 * 2 ^ (p - 1) :=
    ⟨2 * 2 ^ (p - 1) - 1, Nat.sub_add_cancel (Nat.succ_le_of_lt (by positivity))⟩
  have hodd : ((u + c + 1) * 2 ^ (p - 1) + m) % 2 = 1 := by
    have heven := two_dvd_mul_two_pow (u + c + 1) hp
    omega
  have hmid : magnitudeOf p ((u + c + 1) * 2 ^ (p - 1) + m) * den +
      magnitudeOf p ((u + c + 1) * 2 ^ (p - 1) + m + 1) * den =
      2 * ((2 ^ (p + 1) - 1) * 2 ^ c * den * 2 ^ u) := by
    rw [← add_mul, magnitudeOf_add_succ_of_binade_end (by omega) hm]
    ring
  have hlt := (roundsTo_unboundedEncoding (num * 2 ^ u) hp hden).lt_iff ((u + c + 1) * 2 ^ (p - 1) + m)
  have hscale : (2 ^ (p + 1) - 1) * 2 ^ c * den ≤ num ↔ (2 ^ (p + 1) - 1) * 2 ^ c * den * 2 ^ u ≤ num * 2 ^ u :=
    (Nat.mul_le_mul_right_iff (by positivity)).symm
  rw [hmid] at hlt
  rw [encodeQuotient_eq_min, min_eq_right_iff, hscale]
  generalize num * 2 ^ u = scaled at *
  omega

/-! ### Exact conversions -/

/-- With at most `p + k` bits the spacing is at most `2^k`. -/
theorem spacing_le {p k num den : Nat} (hp : 1 ≤ p) (h : num / den < 2 ^ (p + k)) : spacing p num den ≤ k := by
  unfold spacing
  by_cases h0 : num / den = 0
  · rw [h0, Nat.log2_zero]
    omega
  · have hlog := (Nat.log2_lt h0).2 h
    omega

/-- A quotient of at most `p` bits over a power of two is encoded exactly. -/
theorem magnitudeOf_encodeQuotient_div_two_pow {p u c d inf n : Nat} (hp : 2 ≤ p)
    (hinf : inf = (u + c + 1) * 2 ^ (p - 1) + 2 * 2 ^ (p - 1)) (hn : n < 2 ^ p) (hd : d ≤ u) :
    magnitudeOf p (encodeQuotient p u inf n (2 ^ d)) * 2 ^ d = n * 2 ^ u := by
  obtain ⟨k, rfl⟩ := Nat.exists_eq_add_of_le' hd
  have hfin : encodeQuotient p (k + d) inf n (2 ^ d) ≠ inf := by
    rw [Ne, encodeQuotient_eq_inf_iff hp (by positivity) hinf, not_le]
    calc n < 2 ^ p := hn
      _ ≤ 2 ^ (p + 1) - 1 := by rw [pow_succ]; omega
      _ ≤ (2 ^ (p + 1) - 1) * 2 ^ c := Nat.le_mul_of_pos_right _ (by positivity)
      _ ≤ (2 ^ (p + 1) - 1) * 2 ^ c * 2 ^ d := Nat.le_mul_of_pos_right _ (by positivity)
  have hsp : spacing p (n * 2 ^ (k + d)) (2 ^ d) ≤ k := by
    refine spacing_le (by omega) ?_
    rw [pow_add, ← mul_assoc, Nat.mul_div_cancel _ (by positivity), pow_add]
    exact Nat.mul_lt_mul_of_pos_right hn (by positivity)
  have hdvd : 2 ^ d * 2 ^ spacing p (n * 2 ^ (k + d)) (2 ^ d) ∣ n * 2 ^ (k + d) := by
    rw [← pow_add]
    exact (pow_dvd_pow 2 (by omega)).mul_left n
  rw [encodeQuotient_eq_min] at hfin ⊢
  rw [min_eq_left (by omega)]
  exact magnitudeOf_unboundedEncoding (by omega) (by positivity) hdvd

/-! ### The two formats -/

/-- The encoding of +infinity in binary32 is that after the last binade. -/
theorem inf32_eq : 0x7F800000 = (149 + 103 + 1) * 2 ^ (24 - 1) + 2 * 2 ^ (24 - 1) := rfl

/-- The encoding of +infinity in binary64 is that after the last binade. -/
theorem inf64_eq : 0x7FF0000000000000 = (1074 + 970 + 1) * 2 ^ (53 - 1) + 2 * 2 ^ (53 - 1) := rfl

/-- The encoding of 100.0, in units of `2^-149`. -/
theorem magnitudeOf_hundred : magnitudeOf 24 0x42C80000 = 100 * 2 ^ 149 := rfl

/-- The check of R17 through the order of the encodings. -/
theorem isFinitePos_iff (r : DWord) : isFinitePos r = true ↔ 0 < r.toNat ∧ r.toNat < inf64.toNat := by
  simp only [isFinitePos, Bool.and_eq_true, decide_eq_true_eq]

/-- A positive encoding has a positive value. -/
theorem magnitudeOf_pos {p e : Nat} (h : 0 < e) : 0 < magnitudeOf p e :=
  Nat.zero_lt_of_lt (magnitudeOf_strictMono p h)

/-- Division of finite positive values, through their magnitudes. -/
theorem div64_toNat {a b : DWord} (ha : isFinitePos a = true) (hb : isFinitePos b = true) :
    (div64 a b).toNat =
      encodeQuotient 53 1074 0x7FF0000000000000 (magnitudeOf 53 a.toNat) (magnitudeOf 53 b.toNat) := by
  obtain ⟨hpos, hfin⟩ := (isFinitePos_iff b).1 hb
  have hne : b ≠ inf64 := fun h => by simp [h] at hfin
  rw [div64, if_neg hne, magnitude64_eq a ha, magnitude64_eq b hb, if_neg (magnitudeOf_pos hpos).ne', rnd64_toNat]

/-- Settles O36: the results of `encodeQuotient` for 24-bit significands. -/
theorem singleQuotientIsNearestEven : Obligations.SingleQuotientIsNearestEven := by
  intro num den hden
  rw [rnd32_toNat]
  refine ⟨isNearest_encodeQuotient (by omega) hden, encodeQuotient_eq_inf_iff (by omega) hden inf32_eq,
    fun hle => ?_⟩
  refine encodeQuotient_le_of_le (by omega) hden ?_
  rw [magnitudeOf_hundred, mul_right_comm]
  exact Nat.mul_le_mul_right _ hle

/-- Settles O37: the results of `encodeQuotient` for 53-bit significands, and exact conversion by 1 and by 2. -/
theorem doubleDivisionIsNearestEven : Obligations.DoubleDivisionIsNearestEven := by
  refine ⟨fun a b ha hb => ?_, fun n hn => ?_⟩
  · have hden : 0 < magnitudeOf 53 b.toNat := magnitudeOf_pos ((isFinitePos_iff b).1 hb).1
    have hinf : div64 a b = inf64 ↔ (div64 a b).toNat = 0x7FF0000000000000 := BitVec.toNat_inj.symm
    rw [Ne, hinf, div64_toNat ha hb]
    have hmid := encodeQuotient_eq_inf_iff (num := magnitudeOf 53 a.toNat) (by omega) hden inf64_eq
    rw [show 53 + 1 = 54 from rfl] at hmid
    exact ⟨isNearest_encodeQuotient (by omega) hden, hmid⟩
  · have hto := magnitudeOf_encodeQuotient_div_two_pow (d := 0) (by omega) inf64_eq hn (by omega)
    have hhalf := magnitudeOf_encodeQuotient_div_two_pow (d := 1) (by omega) inf64_eq hn (by omega)
    rw [pow_zero, mul_one] at hto
    rw [pow_one, mul_comm] at hhalf
    rw [to64, half64, rnd64_toNat, rnd64_toNat]
    exact ⟨hto, hhalf⟩

end Sys2Proof.Machine
end

section
/-! PROOFS, 20_memory.md: what one host access and one step can do, said once. `HostEffect` and `StepEffect` list the
cases with what the spec says of each (the cause of a refusal, the offsets of a dropped write, the phase of an
acceptance); the statements about every step are case analyses over them. -/

namespace Sys2Proof.Machine

/-! ### The two relations -/

/-- Why the core refuses an access: its width, its alignment, its offset, or a write to a read-only target
(R151 to R153). -/
def refusalCause (p : Config.Params) (a : Access) : Prop :=
  a.width ≠ .w32 ∨ a.offset.toNat % 4 ≠ 0 ∨ noStateAt p a.offset.toNat ∨
    ∃ w off v, a = .write w off v ∧ readOnlyAt p off.toNat

/-- `HostEffect s a t`: the access `a` may take the core from `s` to `t` (20_memory.md R150 to R158). -/
inductive HostEffect (s : State) : Access → State → Prop
  | refused {a : Access} (hcause : refusalCause s.params a) : HostEffect s a (refuseAccess a s)
  | read (off : Word) (x : Target) : HostEffect s (.read .w32 off) (performRead x s)
  | dropped {off : Word} (v : Word) (hbusy : s.phase ≠ .idle) (hoff : droppedWhileBusyAt s.params off.toNat) :
      HostEffect s (.write .w32 off v) (dropWrite s)
  | accepted (w : Word) (hidle : s.phase = .idle) : HostEffect s (.write .w32 0x014 w) (accept w s)
  | acknowledged (v : Word) :
      HostEffect s (.write .w32 0x018 v) { s with status := statusWriteOneToClear v s.status }
  | operand (off v : Word) {r : Reg} (hidle : s.phase = .idle) (hrw : r.accessCode = .rw) :
      HostEffect s (.write .w32 off v) (writeReg r v s)
  | stored {off : Word} (v : Word) (hidle : s.phase = .idle) {i : Nat} (hi : i < s.params.bufWords)
      (hlo : 0x10000 ≤ off.toNat) (hhi : off.toNat < 0x10000 + 4 * s.params.bufWords) :
      HostEffect s (.write .w32 off v) { s with mem := storeWord s.mem i v }

/-- The state with the next event taken from the list. -/
def eventTaken (s : State) : State := { s with events := s.events.tail }

/-- The engine has the turn: the next event is its own, or none is waiting (log 2). -/
def engineHasTurn (s : State) : Prop := s.events = [] ∨ ∃ es, s.events = .engine :: es

/-- `StepEffect s t`: a step may take the core from `s` to `t` (R161, R362, R450). -/
inductive StepEffect (s : State) : State → Prop
  | idled (hturn : engineHasTurn s) (hidle : s.phase = .idle) : StepEffect s (eventTaken s)
  | succeeded (hturn : engineHasTurn s) {op : Latched} (hbusy : s.phase = .busy op) {i : Instr} {st : Staged}
      (hbody : bodyOf i op (eventTaken s) = .ok st) :
      StepEffect s (succeeded (validOnSuccess i) (commitGroup st) (eventTaken s))
  | failed (hturn : engineHasTurn s) {op : Latched} (hbusy : s.phase = .busy op) (i : Instr) {c : ErrCode}
      (hc : c ≠ .ok) : StepEffect s (failed (validOnFailure i) c (eventTaken s))
  | reserved (hturn : engineHasTurn s) {op : Latched} (hbusy : s.phase = .busy op) :
      StepEffect s (completeReserved (eventTaken s))
  | accessed {a : Access} {es : List Event} (hevent : s.events = .access a :: es) (hrst : s.rst = false) :
      StepEffect s (hostAccess a (eventTaken s))
  | resetAsserted {es : List Event} (hevent : s.events = .reset true :: es) :
      StepEffect s (resetLine true (eventTaken s))
  | resetReleased {es : List Event} (hevent : s.events = .reset false :: es) :
      StepEffect s (resetLine false (eventTaken s))

/-! ### Completions, field by field -/

@[simp] theorem succeeded_params (valid : Status → Status) (st : Staged) (s : State) :
    (succeeded valid (commitGroup st) s).params = s.params := commitGroup_params st s
@[simp] theorem succeeded_mem (valid : Status → Status) (st : Staged) (s : State) :
    (succeeded valid (commitGroup st) s).mem = s.mem := commitGroup_mem st s
@[simp] theorem succeeded_events (valid : Status → Status) (st : Staged) (s : State) :
    (succeeded valid (commitGroup st) s).events = s.events := commitGroup_events st s

@[simp] theorem failed_status (valid : Status → Status) (c : ErrCode) (s : State) :
    (failed valid c s).status = { valid s.status with done := true, err := true, errCode := c } := rfl

@[simp] theorem validOnSuccess_werr (i : Instr) (st : Status) : (validOnSuccess i st).werr = st.werr := by
  cases i <;> rfl
@[simp] theorem validOnSuccess_aerr (i : Instr) (st : Status) : (validOnSuccess i st).aerr = st.aerr := by
  cases i <;> rfl
@[simp] theorem validOnSuccess_lastOp (i : Instr) (st : Status) : (validOnSuccess i st).lastOp = st.lastOp := by
  cases i <;> rfl
@[simp] theorem validOnFailure_werr (i : Instr) (st : Status) : (validOnFailure i st).werr = st.werr := by
  cases i <;> rfl
@[simp] theorem validOnFailure_aerr (i : Instr) (st : Status) : (validOnFailure i st).aerr = st.aerr := by
  cases i <;> rfl
@[simp] theorem validOnFailure_lastOp (i : Instr) (st : Status) : (validOnFailure i st).lastOp = st.lastOp := by
  cases i <;> rfl

/-! ### The register map against the ranges of the spec -/

theorem Reg.mem_allRegs (r : Reg) : r ∈ allRegs := List.mem_of_find?_eq_some (regAt_offset r)

/-- The reserved offsets up to the last register (R96). -/
theorem regAt_four_mul_eq_none (k : Fin 54) (h : regAt (4 * k) = none) :
    (12 ≤ k.val ∧ k.val ≤ 15) ∨ k.val = 35 ∨ k.val = 39 := by
  revert k
  decide

/-- An aligned offset that reaches nothing is in a range that holds no state (R96, R152). -/
theorem noStateAt_of_targetAt_none {p : Config.Params} {off : Nat} (ha : off % 4 = 0) (h : targetAt p off = none) :
    noStateAt p off := by
  have hm := maxLevels_eq p
  unfold targetAt at h
  split at h
  · cases h
  · rename_i hreg
    split_ifs at h with hlevels hsamples
    unfold noStateAt
    by_cases hlow : off / 4 < 54
    · obtain ⟨k, rfl⟩ : ∃ k, off = 4 * k := ⟨off / 4, by omega⟩
      have hk := regAt_four_mul_eq_none ⟨k, by omega⟩ hreg
      simp only at hk
      omega
    · omega

/-- The read-only registers lie in the ranges of R153. -/
theorem Reg.readOnly_offset (r : Reg) (h : r.accessCode = .ro) :
    r.offset ≤ 0x00C ∨ (0x040 ≤ r.offset ∧ r.offset ≤ 0x088) ∨ (0x090 ≤ r.offset ∧ r.offset ≤ 0x098) ∨
      (0x0A0 ≤ r.offset ∧ r.offset ≤ 0x0D4) := by
  have hall : ∀ q ∈ allRegs, q.accessCode = .ro → q.offset ≤ 0x00C ∨ (0x040 ≤ q.offset ∧ q.offset ≤ 0x088) ∨
      (0x090 ≤ q.offset ∧ q.offset ≤ 0x098) ∨ (0x0A0 ≤ q.offset ∧ q.offset ≤ 0x0D4) := by decide
  exact hall r r.mem_allRegs h

/-- The registers a host write sets lie at the offsets of R155. -/
theorem Reg.written_offset (r : Reg) (h : r.accessCode = .rw ∨ r.accessCode = .wo) :
    r.offset = 0x010 ∨ r.offset = 0x014 ∨ (0x01C ≤ r.offset ∧ r.offset ≤ 0x02C) := by
  have hall : ∀ q ∈ allRegs, q.accessCode = .rw ∨ q.accessCode = .wo →
      q.offset = 0x010 ∨ q.offset = 0x014 ∨ (0x01C ≤ q.offset ∧ q.offset ≤ 0x02C) := by decide
  exact hall r r.mem_allRegs h

theorem readOnlyAt_of_accessCode {p : Config.Params} {off : Nat} {x : Target} (hx : targetAt p off = some x)
    (hc : x.accessCode = .ro) : readOnlyAt p off := by
  unfold readOnlyAt
  rcases targetAt_cases hx with ⟨r, rfl, rfl⟩ | ⟨w, rfl, hlevels⟩ | ⟨i, rfl, _⟩
  · have := r.readOnly_offset hc
    omega
  · omega
  · cases hc

theorem droppedWhileBusyAt_of_accessCode {p : Config.Params} {off : Nat} {x : Target} (hx : targetAt p off = some x)
    (hc : x.accessCode = .rw ∨ x.accessCode = .wo) : droppedWhileBusyAt p off := by
  unfold droppedWhileBusyAt
  rcases targetAt_cases hx with ⟨r, rfl, rfl⟩ | ⟨w, rfl, _⟩ | ⟨i, rfl, _, _, hsamples⟩
  · have := r.written_offset hc
    omega
  · simp [Target.accessCode] at hc
  · omega

/-- CMD is the one write-only register (R57). -/
theorem Reg.accessCode_wo {r : Reg} (h : r.accessCode = .wo) : r = .cmd := by
  cases r <;> simp_all [Reg.accessCode]

/-! A write to an RW register leaves STATUS, the buffer and the phase alone (R156). -/

theorem writeReg_status_of_rw {r : Reg} (v : Word) (s : State) (h : r.accessCode = .rw) :
    (writeReg r v s).status = s.status := by
  cases r <;> simp_all [Reg.accessCode, writeReg]

theorem writeReg_mem_of_rw {r : Reg} (v : Word) (s : State) (h : r.accessCode = .rw) :
    (writeReg r v s).mem = s.mem := by
  cases r <;> simp_all [Reg.accessCode, writeReg]

theorem writeReg_phase_of_rw {r : Reg} (v : Word) (s : State) (h : r.accessCode = .rw) :
    (writeReg r v s).phase = s.phase := by
  cases r <;> simp_all [Reg.accessCode, writeReg]

theorem Phase.isBusy_iff (ph : Phase) : ph.isBusy = true ↔ ph ≠ .idle := by
  cases ph <;> simp [Phase.isBusy]

theorem Phase.isBusy_eq_false {ph : Phase} (h : ph.isBusy = false) : ph = .idle := by
  cases ph with
  | idle => rfl
  | busy op => cases h

/-! ### Everything a host access can do -/

theorem performWrite_effect {s : State} {off : Word} {x : Target} (v : Word)
    (hx : targetAt s.params off.toNat = some x) (hphase : s.phase.isBusy = false ∨ x = .reg .status)
    (hc : x.accessCode ≠ .ro) : HostEffect s (.write .w32 off v) (performWrite x v s) := by
  rcases targetAt_cases hx with ⟨r, rfl, hoff⟩ | ⟨w, rfl, _⟩ | ⟨i, rfl, _, hi, hlo, hhi⟩
  · have hoff' : off = BitVec.ofNat 32 r.offset := by simp [hoff]
    cases hcode : r.accessCode with
    | ro => exact absurd hcode hc
    | w1c =>
      obtain rfl : r = .status := by simpa using accessCode_w1c (x := .reg r) hcode
      subst hoff'
      exact .acknowledged v
    | wo =>
      obtain rfl := Reg.accessCode_wo hcode
      subst hoff'
      exact .accepted v (Phase.isBusy_eq_false (by simpa using hphase))
    | rw =>
      have hidle : s.phase.isBusy = false := hphase.resolve_right (by rintro ⟨⟩; cases hcode)
      exact .operand off v (Phase.isBusy_eq_false hidle) hcode
  · exact absurd rfl hc
  · exact .stored v (Phase.isBusy_eq_false (by simpa using hphase)) hi hlo hhi

theorem writeTarget_effect {s : State} {off : Word} {x : Target} (v : Word)
    (hx : targetAt s.params off.toNat = some x) :
    HostEffect s (.write .w32 off v) (writeTarget (.write .w32 off v) x v s) := by
  rcases writeTarget_cases (.write .w32 off v) x v s with ⟨hro, e⟩ | ⟨hbusy, hc, e⟩ | ⟨hphase, hc, e⟩ <;> rw [e]
  · exact .refused (.inr (.inr (.inr ⟨.w32, off, v, rfl, readOnlyAt_of_accessCode hx hro⟩)))
  · exact .dropped v ((Phase.isBusy_iff _).1 hbusy) (droppedWhileBusyAt_of_accessCode hx hc)
  · exact performWrite_effect v hx hphase hc

/-- Everything a host access can do, the checks in the order of R157. -/
theorem hostAccess_effect (a : Access) (s : State) : HostEffect s a (hostAccess a s) := by
  by_cases hal : a.aligned = true
  · obtain ⟨hwidth, ho⟩ := (aligned_iff a).1 hal
    cases hx : targetAt s.params a.offset.toNat with
    | none =>
      have e : hostAccess a s = refuseAccess a s := by simp [hostAccess, hal, hx]
      rw [e]
      exact .refused (.inr (.inr (.inl (noStateAt_of_targetAt_none ho hx))))
    | some x =>
      cases a with
      | read w off =>
        obtain rfl : w = .w32 := hwidth
        rw [hostAccess_read (off := off) ho hx]
        exact .read off x
      | write w off v =>
        obtain rfl : w = .w32 := hwidth
        rw [hostAccess_write (off := off) ho hx]
        exact writeTarget_effect v hx
  · have e : hostAccess a s = refuseAccess a s := by simp [hostAccess, hal]
    rw [e]
    refine .refused ?_
    by_cases hwidth : a.width = .w32
    · exact .inr (.inl fun ho => hal ((aligned_iff a).2 ⟨hwidth, ho⟩))
    · exact .inl hwidth

/-! ### Everything a step can do -/

theorem eventTaken_eq {s : State} {e : Event} {es : List Event} (h : s.events = e :: es) :
    eventTaken s = { s with events := es } := by
  simp [eventTaken, h]

theorem eventTaken_nil {s : State} (h : s.events = []) : eventTaken s = s := by
  have hs : s.events.tail = s.events := by simp [h]
  simp only [eventTaken, hs]

theorem engineTurn_effect {s t : State} (hturn : engineHasTurn s) (h : engineTurn (eventTaken s) = .next t) :
    StepEffect s t := by
  rcases engineTurn_cases h with ⟨hidle, rfl⟩ | ⟨op, i, hbusy, _, hexec⟩ | ⟨op, e, hbusy, _, rfl⟩
  · exact .idled hturn hidle
  · rcases exec_busy_cases i hbusy hexec with ⟨st, hbody, rfl⟩ | ⟨c, _, hc, rfl⟩
    · exact .succeeded hturn hbusy hbody
    · exact .failed hturn hbusy i hc
  · exact .reserved hturn hbusy

/-- Everything a step can do. -/
theorem step_effect {s t : State} (h : step s = .next t) : StepEffect s t := by
  rcases step_cases h with ⟨hev, he⟩ | ⟨es, hev, he⟩ | ⟨a, es, hev, hrst, rfl⟩ | ⟨b, es, hev, rfl⟩
  · exact engineTurn_effect (.inl hev) ((eventTaken_nil hev).symm ▸ he)
  · exact engineTurn_effect (.inr ⟨es, hev⟩) ((eventTaken_eq hev).symm ▸ he)
  · rw [← eventTaken_eq hev]
    exact .accessed hev hrst
  · rw [← eventTaken_eq hev]
    cases b with
    | true => exact .resetAsserted hev
    | false => exact .resetReleased hev

end Sys2Proof.Machine
end

section
/-! PROOFS, the invariant (StepKeepsTheInvariant). `State.Inv` is taken apart into clauses about the buffer, STATUS with
the latched operands, the reduced waveform, the SCAN group and the PROBE group (`InvParts`), so that each operation is
held only against the clauses it touches. The two hard clauses are those of a successful SCAN and REDUCE: what the
scanning pass adds up to (`ScanAcc.Balanced`) and what REDUCE stages (`WaveformStaged`). -/

namespace Sys2Proof.Machine

/-! ### The scanning pass adds up -/

/-- What the accumulators of R220 keep after `k` samples, from the first on: the closed runs and the open one make up
the samples, each closed run is at least one sample long, and the high samples are those of the runs at level 1. -/
structure ScanAcc.Balanced (a : ScanAcc) (k : Nat) : Prop where
  samples : a.pw0 + a.pw1 + a.runLength = k
  runOpen : 1 ≤ a.runLength
  runsClosed : a.pc0 + a.pc1 = a.trans
  high : a.high = a.pw1 + if a.lastState then a.runLength else 0
  longRuns0 : a.pc0 ≤ a.pw0
  longRuns1 : a.pc1 ≤ a.pw1
  noRuns0 : a.pc0 = 0 → a.pw0 = 0
  noRuns1 : a.pc1 = 0 → a.pw1 = 0

/-- The first sample lengthens the empty run that is seeded from it. -/
theorem scanBit_scanInit_balanced (b : Bool) : (scanBit (scanInit b) b).Balanced 1 := by
  cases b <;> constructor <;> decide

theorem ScanAcc.Balanced.scanBit {a : ScanAcc} {k : Nat} (h : a.Balanced k) (bit : Bool) :
    (scanBit a bit).Balanced (k + 1) := by
  obtain ⟨samples, runOpen, runsClosed, high, longRuns0, longRuns1, noRuns0, noRuns1⟩ := h
  obtain rfl | rfl : bit = a.lastState ∨ bit = !a.lastState := by cases bit <;> cases a.lastState <;> simp
  · rw [scanBit_same]
    cases hlast : a.lastState <;> simp only [hlast] at high <;> constructor <;> simp_all <;> omega
  · rw [scanBit_other]
    cases hlast : a.lastState <;> simp only [hlast] at high <;> constructor <;> simp_all [closeRun] <;> omega

theorem ScanAcc.Balanced.foldl {a : ScanAcc} {k : Nat} (h : a.Balanced k) (bits : List Bool) :
    (bits.foldl Machine.scanBit a).Balanced (k + bits.length) := by
  induction bits generalizing a k with
  | nil => exact h
  | cons b bits ih =>
    have hnext := ih (h.scanBit b)
    rwa [Nat.add_right_comm] at hnext

/-- The pass before the final flush. -/
theorem scanSamples_eq_closeRun (bits : List Bool) (hbits : bits ≠ []) :
    ∃ a : ScanAcc, a.Balanced bits.length ∧ scanSamples bits = closeRun a := by
  cases bits with
  | nil => exact absurd rfl hbits
  | cons b bits =>
    refine ⟨bits.foldl scanBit (scanBit (scanInit b) b), ?_, rfl⟩
    have h := (scanBit_scanInit_balanced b).foldl bits
    rwa [Nat.add_comm] at h

/-- The laws of R221 and R222 for the numbers the pass counts, before they are written to registers. -/
structure ScanAcc.Lawful (a : ScanAcc) (total : Nat) : Prop where
  widths : a.pw0 + a.pw1 = total
  counts : a.pc0 + a.pc1 = a.trans + 1
  high : a.high = a.pw1
  longRuns0 : a.pc0 ≤ a.pw0
  longRuns1 : a.pc1 ≤ a.pw1
  noRuns0 : a.pc0 = 0 → a.pw0 = 0
  noRuns1 : a.pc1 = 0 → a.pw1 = 0

/-- The final flush turns the open run into a closed one. -/
theorem ScanAcc.Balanced.closeRun {a : ScanAcc} {k : Nat} (h : a.Balanced k) : (closeRun a).Lawful k := by
  obtain ⟨samples, runOpen, runsClosed, high, longRuns0, longRuns1, noRuns0, noRuns1⟩ := h
  unfold Machine.closeRun
  cases hlast : a.lastState <;> simp only [hlast] at high <;> constructor <;> simp_all <;> omega

theorem scanSamples_lawful (bits : List Bool) (hbits : bits ≠ []) : (scanSamples bits).Lawful bits.length := by
  obtain ⟨a, hbalanced, e⟩ := scanSamples_eq_closeRun bits hbits
  rw [e]
  exact hbalanced.closeRun

theorem toReg_eq_zero_iff {n : Nat} (h : n < 2 ^ 32) : toReg n = 0 ↔ n = 0 := by
  rw [← BitVec.toNat_inj, toReg_toNat h]
  rfl

/-- A scanned group holds the numbers of its pass: none of them wraps below `2^32` samples (R9, R15). -/
theorem scanWordsOf_lawful (ws : List Word) (hne : ws ≠ []) (hfit : 32 * ws.length < 2 ^ 32) :
    (scanWordsOf ws).lawful := by
  have hlen := samplesOf_length ws
  have hpos : 0 < ws.length := List.length_pos_iff.2 hne
  have hbits : samplesOf ws ≠ [] := List.length_pos_iff.1 (by omega)
  obtain ⟨widths, counts, high, longRuns0, longRuns1, noRuns0, noRuns1⟩ := scanSamples_lawful _ hbits
  rw [hlen] at widths
  have hpw0 : (scanSamples (samplesOf ws)).pw0 < 2 ^ 32 := by omega
  have hpw1 : (scanSamples (samplesOf ws)).pw1 < 2 ^ 32 := by omega
  have hpc0 : (scanSamples (samplesOf ws)).pc0 < 2 ^ 32 := by omega
  have hpc1 : (scanSamples (samplesOf ws)).pc1 < 2 ^ 32 := by omega
  have htrans : (scanSamples (samplesOf ws)).trans < 2 ^ 32 := by omega
  have htotal : (toReg (totalSamples ws.length)).toNat = 32 * ws.length := toReg_toNat hfit
  constructor <;>
    simp only [scanWordsOf, toReg_toNat hpw0, toReg_toNat hpw1, toReg_toNat hpc0, toReg_toNat hpc1,
      toReg_toNat htrans, htotal, toReg_eq_zero_iff hpw0, toReg_eq_zero_iff hpw1,
      toReg_eq_zero_iff hpc0, toReg_eq_zero_iff hpc1, high] <;> omega

/-! ### The SCAN group and the PROBE group -/

/-- The clauses of the invariant about the SCAN group. -/
structure ScanGroupInv (valid : Bool) (g : ScanGroup) : Prop where
  lawful : valid = true → g.lawful
  totalIsWords : g.totalSamples.toNat = 32 * g.scanWords.toNat
  firstCountIsMin : g.firstCount.toNat = min 10 g.scanWords.toNat
  firstWordsZero : ∀ j : Fin 10, g.firstCount.toNat ≤ j.val → g.firstWords[j] = 0

/-- The clause of the invariant about the PROBE group. -/
def ProbeGroupInv (g : ProbeGroup) : Prop := g.active = false ↔ g.index = 0

/-- A SCAN group that is no longer valid keeps the other clauses. -/
theorem ScanGroupInv.of_valid_imp {valid valid' : Bool} {g : ScanGroup} (h : ScanGroupInv valid g)
    (himp : valid' = true → valid = true) : ScanGroupInv valid' g :=
  { h with lawful := fun hv => h.lawful (himp hv) }

theorem scanGroupInv_zero : ScanGroupInv false ScanGroup.zero :=
  ⟨nofun, rfl, rfl, fun j _ => by revert j; decide⟩

theorem probeGroupInv_zero : ProbeGroupInv ProbeGroup.zero := iff_of_true rfl rfl

theorem firstWordsOf_getElem (ws : List Word) (j : Fin 10) : (firstWordsOf ws)[j] = ws.getD j.val 0 := by
  fin_cases j <;> rfl

theorem scanWordsOf_inv (valid : Bool) (ws : List Word) (hne : ws ≠ []) (hfit : 32 * ws.length < 2 ^ 32) :
    ScanGroupInv valid (scanWordsOf ws) := by
  have hcount : ((scanWordsOf ws).firstCount).toNat = min 10 ws.length := toReg_toNat (by unfold Config.firstN; omega)
  have hwords : ((scanWordsOf ws).scanWords).toNat = ws.length := toReg_toNat (by omega)
  refine ⟨fun _ => scanWordsOf_lawful ws hne hfit, ?_, ?_, fun j hj => ?_⟩
  · rw [hwords]
    exact toReg_toNat hfit
  · rw [hcount, hwords]
  · rw [hcount] at hj
    have hlen : ws.length ≤ j.val := by omega
    rw [show (scanWordsOf ws).firstWords = firstWordsOf ws from rfl, firstWordsOf_getElem]
    simp [hlen]

/-- The first transition is never sample 0 (R211). -/
theorem firstTransition_bounds {bits : List Bool} {k : Nat} (h : firstTransition bits = some k) :
    1 ≤ k ∧ k < bits.length := by
  obtain ⟨hk, hdiff, -⟩ := List.findIdx?_eq_some_iff_getElem.1 h
  refine ⟨Nat.one_le_iff_ne_zero.2 ?_, hk⟩
  rintro rfl
  cases bits with
  | nil => simp at hk
  | cons b bits => simp at hdiff

theorem probeSamples_inv (bits : List Bool) (hfit : bits.length < 2 ^ 32) : ProbeGroupInv (probeSamples bits) := by
  unfold ProbeGroupInv probeSamples
  cases hk : firstTransition bits with
  | none => simp
  | some k =>
    have hbounds := firstTransition_bounds hk
    simp only [toReg_eq_zero_iff (show k < 2 ^ 32 by omega)]
    simp
    omega

/-! ### What REDUCE stages -/

theorem consSample_length (b : Bool) (runs : List Run) :
    1 ≤ (consSample b runs).length ∧ (consSample b runs).length ≤ runs.length + 1 := by
  rcases consSample_cases b runs with ⟨r, rest, rfl, _, e⟩ | ⟨_, e⟩ <;> rw [e] <;> simp

/-- There are at most as many runs as samples, and at least one where there is a sample (R302). -/
theorem buildRuns_length (bits : List Bool) :
    (buildRuns bits).length ≤ bits.length ∧ (bits ≠ [] → 1 ≤ (buildRuns bits).length) := by
  induction bits with
  | nil => simp [buildRuns]
  | cons b bits ih =>
    have h := consSample_length b (buildRuns bits)
    rw [buildRuns_cons, List.length_cons]
    exact ⟨by omega, fun _ => h.1⟩

/-- Each merge removes one run (R304, R305), and the last run is never merged. -/
theorem mergeLoop_length (thr fuel : Nat) (runs : List Run) (merges : Nat) :
    (mergeLoop thr fuel runs merges).1.length + (mergeLoop thr fuel runs merges).2 = runs.length + merges ∧
      (1 ≤ runs.length → 1 ≤ (mergeLoop thr fuel runs merges).1.length) := by
  induction fuel generalizing runs merges with
  | zero => exact ⟨rfl, id⟩
  | succ fuel ih =>
    unfold mergeLoop
    split_ifs with hone
    · exact ⟨rfl, id⟩
    · split
      · exact ⟨rfl, id⟩
      · rename_i i hi
        have hlt := (List.findIdx?_eq_some_iff_getElem.1 hi).1
        obtain ⟨hsum, hpos⟩ := ih (mergeRun runs i) (merges + 1)
        rw [mergeRun_length runs i hlt] at hsum hpos
        exact ⟨by omega, fun _ => hpos (by omega)⟩

theorem mergeSpikes_length (thr : Nat) (runs : List Run) :
    (mergeSpikes thr runs).1.length + (mergeSpikes thr runs).2 = runs.length ∧
      (1 ≤ runs.length → 1 ≤ (mergeSpikes thr runs).1.length) := mergeLoop_length thr runs.length runs 0

/-- No entry of the list E is Empty (R120). -/
theorem emitRuns_ne_empty (markEn : Bool) (hint : Nat) (runs : List Run) :
    ∀ x ∈ emitRuns markEn hint runs, x ≠ Level.empty := by
  cases runs with
  | nil => simp [emitRuns]
  | cons r rest =>
    simp only [emitRuns, List.mem_cons, forall_eq_or_imp]
    exact ⟨levelOf_ne_empty _, emitAfter_ne_empty markEn hint r rest⟩

theorem emitRuns_length_pos (markEn : Bool) (hint : Nat) {runs : List Run} (h : 1 ≤ runs.length) :
    1 ≤ (emitRuns markEn hint runs).length := by
  cases runs with
  | nil => simp at h
  | cons r rest => simp [emitRuns]

/-- What a successful REDUCE stages in a core with parameters `p`. -/
structure WaveformStaged (p : Config.Params) (g : ReduceGroup) (entries : List Level) (runs : List RunEntry) :
    Prop where
  count : g.levelCount.toNat = entries.length
  countPos : 1 ≤ entries.length
  countBound : entries.length ≤ p.maxLevels
  filled : ∀ x ∈ entries, x ≠ Level.empty
  markers : g.markers.toNat = entries.count .indeterminate
  merges : g.runsLeft.toNat + g.merges.toNat = g.runsBuilt.toNat
  runsBound : runs.length ≤ p.runCap

/-- The constant path stages one entry and one run (R309). -/
theorem reduceConstant_staged {p : Config.Params} {runs : List Run} (hone : runs.length = 1) {g : ReduceGroup}
    {entries : List Level} {kept : List RunEntry} (h : reduceConstant runs = .reduce g entries kept) :
    WaveformStaged p g entries kept := by
  obtain ⟨r, rfl⟩ := List.length_eq_one_iff.1 hone
  have hm := maxLevels_eq p
  have hc := runCap_pos p
  injection h with hg he hk
  subst hg he hk
  refine ⟨rfl, by simp [emitRuns], ?_, emitRuns_ne_empty false 0 [r], ?_, rfl, by simpa using hc⟩
  · simp [emitRuns, emitAfter]
    omega
  · cases hr : r.level <;> simp [emitRuns, emitAfter, levelOf, hr]

/-- The merge stages at most MAX_LEVELS entries and at most the runs that were built (R300, R305). -/
theorem reduceMerged_staged {p : Config.Params} {total hint : Nat} {markEn : Bool} {runs : List Run}
    (hpos : 1 ≤ runs.length) (hcap : runs.length ≤ p.runCap) (hfit : runs.length < 2 ^ 32) {g : ReduceGroup}
    {entries : List Level} {kept : List RunEntry}
    (h : reduceMerged p.maxLevels total markEn hint runs = .reduce g entries kept) :
    WaveformStaged p g entries kept := by
  unfold reduceMerged at h
  generalize spikeThreshold total (runs.length - 1) = thr at h
  obtain ⟨hsum, hleft⟩ := mergeSpikes_length thr runs
  have hemit := emitRuns_length_pos markEn hint (hleft hpos)
  have hm := maxLevels_eq p
  have htake := List.length_take_le p.maxLevels (emitRuns markEn hint (mergeSpikes thr runs).1)
  have hcount := List.count_le_length (a := Level.indeterminate)
    (l := (emitRuns markEn hint (mergeSpikes thr runs).1).take p.maxLevels)
  injection h with hg he hk
  subst hg he hk
  refine ⟨toReg_toNat (by omega), ?_, htake, ?_, toReg_toNat (by omega), ?_, ?_⟩
  · rw [List.length_take]
    omega
  · exact fun x hx => emitRuns_ne_empty markEn hint _ x (List.mem_of_mem_take hx)
  · simp only [toReg_toNat (show runs.length < 2 ^ 32 from hfit),
      toReg_toNat (show (mergeSpikes thr runs).1.length < 2 ^ 32 by omega),
      toReg_toNat (show (mergeSpikes thr runs).2 < 2 ^ 32 by omega), hsum]
  · rw [List.length_map]
    omega

theorem reduceSamples_staged {p : Config.Params} {markEn : Bool} {hint : Nat} {bits : List Bool} (hne : bits ≠ [])
    (hfit : bits.length < 2 ^ 32) {g : ReduceGroup} {entries : List Level} {kept : List RunEntry}
    (h : reduceSamples p markEn hint bits = .ok (.reduce g entries kept)) : WaveformStaged p g entries kept := by
  obtain ⟨hle, hpos⟩ := buildRuns_length bits
  simp only [reduceSamples] at h
  split_ifs at h with hcap hone <;> injection h with h
  · exact reduceConstant_staged hone h
  · exact reduceMerged_staged (hpos hne) (by omega) (by omega) h

/-- With a legal word count there is a sample, and no count of samples wraps (R9). -/
theorem analyzedSamples_bounds {op : Latched} {s : State} (h : wordCountLegal op s) :
    analyzedSamples op s ≠ [] ∧ (analyzedSamples op s).length < 2 ^ 32 := by
  have hb := legal_bounds h
  have hlen : (analyzedSamples op s).length = 32 * op.wordCount.toNat := by simp [analyzedSamples]
  exact ⟨List.length_pos_iff.1 (by omega), by omega⟩

theorem reduceBody_staged {op : Latched} {s : State} {g : ReduceGroup} {entries : List Level} {kept : List RunEntry}
    (h : reduceBody op s = .ok (.reduce g entries kept)) : WaveformStaged s.params g entries kept := by
  obtain ⟨hreduce, h0, hrange⟩ := wordCountChecked_ok h
  obtain ⟨hne, hfit⟩ := analyzedSamples_bounds ⟨h0, hrange⟩
  exact reduceSamples_staged hne hfit hreduce

/-- The clauses of the invariant about the reduced waveform and the run memory. -/
structure WaveformInv (p : Config.Params) (valid : Bool) (g : ReduceGroup) (levels : List Level)
    (runs : List RunEntry) : Prop where
  size : levels.length = p.maxLevels
  countBound : g.levelCount.toNat ≤ p.maxLevels
  countPositive : valid = true → 1 ≤ g.levelCount.toNat
  filled : ∀ j, j < g.levelCount.toNat → levels.getD j .empty ≠ .empty
  markersCounted : g.markers.toNat = (levels.take g.levelCount.toNat).count .indeterminate
  mergesCounted : g.runsLeft.toNat + g.merges.toNat = g.runsBuilt.toNat
  runsBound : runs.length ≤ p.runCap

theorem WaveformInv.of_valid_imp {p : Config.Params} {valid valid' : Bool} {g : ReduceGroup} {levels : List Level}
    {runs : List RunEntry} (h : WaveformInv p valid g levels runs) (himp : valid' = true → valid = true) :
    WaveformInv p valid' g levels runs :=
  { h with countPositive := fun hv => h.countPositive (himp hv) }

/-- CLEAR empties the waveform and leaves the two memories as they are (R366). -/
theorem waveformInv_zero {p : Config.Params} {levels : List Level} {runs : List RunEntry}
    (hsize : levels.length = p.maxLevels) (hruns : runs.length ≤ p.runCap) :
    WaveformInv p false ReduceGroup.zero levels runs :=
  ⟨hsize, Nat.zero_le _, nofun, fun j hj => absurd hj (Nat.not_lt_zero j), rfl, rfl, hruns⟩

/-- Below the number of entries the levels memory holds the entries just written. -/
theorem overwriteLevels_getD {entries old : List Level} {j : Nat} (hj : j < entries.length) :
    (overwriteLevels entries old).getD j .empty = entries[j] := by
  rw [List.getD_eq_getElem?_getD, overwriteLevels_getElem?, if_pos hj, List.getElem?_eq_getElem hj, Option.getD_some]

theorem WaveformStaged.inv {p : Config.Params} {g : ReduceGroup} {entries : List Level} {kept : List RunEntry}
    (h : WaveformStaged p g entries kept) {old : List Level} (hsize : old.length = p.maxLevels) (valid : Bool) :
    WaveformInv p valid g (overwriteLevels entries old) kept := by
  obtain ⟨count, countPos, countBound, filled, markers, merges, runsBound⟩ := h
  refine ⟨?_, count ▸ countBound, fun _ => count ▸ countPos, fun j hj => ?_, ?_, merges, runsBound⟩
  · rw [overwriteLevels, List.length_append, List.length_drop]
    omega
  · rw [overwriteLevels_getD (count ▸ hj)]
    exact filled _ (List.getElem_mem _)
  · rw [count, overwriteLevels, List.take_left, markers]

/-! ### The buffer -/

/-- The clauses of the invariant about the sample buffer. -/
structure BufferInv (p : Config.Params) (m : Memory) : Prop where
  canonical : m.wf
  inWindow : ∀ a, (memGet m a).isSome → 0x10000 ≤ a ∧ a < 0x10000 + 4 * p.bufWords
  whole : ∀ i j, j < 4 → (memGet m (sampleAddr i + j)).isSome = (memGet m (sampleAddr i)).isSome

theorem bufferInv_nil (p : Config.Params) : BufferInv p [] :=
  ⟨List.Pairwise.nil, fun a h => by simp at h, fun _ _ _ => rfl⟩

/-- Which bytes are stored after storing a word: its own four, and those stored before. -/
theorem memGet_storeWord_isSome (m : Memory) (i : Nat) (v : Word) (x : Nat) (h : m.wf) :
    (memGet (storeWord m i v) x).isSome =
      (decide (sampleAddr i ≤ x ∧ x < sampleAddr i + 4) || (memGet m x).isSome) := by
  by_cases hx : sampleAddr i ≤ x ∧ x < sampleAddr i + 4
  · rw [memGet_storeWord m i v x h, decide_eq_true hx, Bool.true_or]
    obtain rfl | rfl | rfl | rfl :
        x = sampleAddr i ∨ x = sampleAddr i + 1 ∨ x = sampleAddr i + 2 ∨ x = sampleAddr i + 3 := by omega
    all_goals simp
  · rw [memGet_storeWord_outside m i v x h (by omega), decide_eq_false hx, Bool.false_or]

theorem BufferInv.storeWord {p : Config.Params} {m : Memory} (h : BufferInv p m) {i : Nat} (hi : i < p.bufWords)
    (v : Word) : BufferInv p (storeWord m i v) := by
  obtain ⟨canonical, inWindow, whole⟩ := h
  refine ⟨storeWord_wf m i v canonical, fun a ha => ?_, fun k j hj => ?_⟩
  · rw [memGet_storeWord_isSome m i v a canonical, Bool.or_eq_true, decide_eq_true_iff] at ha
    rcases ha with hown | hold
    · unfold sampleAddr at hown
      omega
    · exact inWindow a hold
  · rw [memGet_storeWord_isSome m i v _ canonical, memGet_storeWord_isSome m i v _ canonical, whole k j hj]
    congr 1
    unfold sampleAddr
    exact decide_eq_decide.2 (by omega)

/-! ### STATUS and the latched operands -/

/-- The clauses of the invariant about STATUS, the phase and the latched operands. -/
structure ControlInv (s : State) : Prop where
  errIffCode : s.status.err = (s.status.errCode != .ok)
  busyStatus : ∀ op, s.phase = .busy op →
    s.status.done = false ∧ s.status.errCode = .ok ∧ s.status.lastOp = op.word.extractLsb' 0 4
  latchHolds : ∀ op, s.phase = .busy op → op = latch op.word s

/-- While IDLE only `ERR = (ERRCODE != 0)` is asked for. -/
theorem ControlInv.of_idle {s : State} (hidle : s.phase = .idle) (herr : s.status.err = (s.status.errCode != .ok)) :
    ControlInv s :=
  ⟨herr, fun op h => by simp [hidle] at h, fun op h => by simp [hidle] at h⟩

/-- What leaves the phase and the operand registers alone, and of STATUS at most clears DONE or moves AERR and WERR,
keeps the clauses. -/
theorem ControlInv.keep {s t : State} (h : ControlInv s) (hphase : t.phase = s.phase)
    (hlatch : ∀ w, latch w t = latch w s) (herr : t.status.err = s.status.err)
    (hcode : t.status.errCode = s.status.errCode) (hop : t.status.lastOp = s.status.lastOp)
    (hdone : s.status.done = false → t.status.done = false) : ControlInv t := by
  refine ⟨by rw [herr, hcode]; exact h.errIffCode, fun op hbusy => ?_, fun op hbusy => ?_⟩ <;> rw [hphase] at hbusy
  · obtain ⟨done, code, lastOp⟩ := h.busyStatus op hbusy
    exact ⟨hdone done, hcode.trans code, hop.trans lastOp⟩
  · rw [hlatch]
    exact h.latchHolds op hbusy

theorem controlInv_accept (w : Word) (s : State) : ControlInv (accept w s) := by
  refine ⟨rfl, fun op h => ?_, fun op h => ?_⟩ <;> obtain rfl : latch w s = op := by simpa using h
  · exact ⟨rfl, rfl, rfl⟩
  · rfl

/-! ### The invariant, taken apart -/

/-- The invariant, its clauses grouped by the part of the state they speak of. -/
structure InvParts (s : State) : Prop where
  buffer : BufferInv s.params s.mem
  control : ControlInv s
  waveform : WaveformInv s.params s.status.reduceValid s.reduce s.levels s.runMem
  scan : ScanGroupInv s.status.scanValid s.scan
  probe : ProbeGroupInv s.probe
  staged : s.staged = none
  held : s.rst = true → s = { State.resetWith s.params with rst := true, events := s.events, draws := s.draws }

theorem inv_iff_parts (s : State) : s.Inv ↔ InvParts s := by
  constructor
  · intro h
    exact
      { buffer := ⟨h.memCanonical, h.memInWindow, h.memWhole⟩
        control := ⟨h.errIffCode, h.busyStatus, h.latchHolds⟩
        waveform := ⟨h.levelsSize, h.levelCountBound, h.levelCountPositive, h.levelsFilled, h.markersCounted,
          h.mergesCounted, h.runMemBound⟩
        scan := ⟨h.scanLawful, h.totalIsWords, h.firstCountIsMin, h.firstWordsZero⟩
        probe := h.probeIndexZero
        staged := h.nothingStaged
        held := h.heldInReset }
  · rintro ⟨buffer, control, waveform, scan, probe, staged, held⟩
    exact
      { memCanonical := buffer.canonical, memInWindow := buffer.inWindow, memWhole := buffer.whole
        errIffCode := control.errIffCode, busyStatus := control.busyStatus, latchHolds := control.latchHolds
        levelsSize := waveform.size, levelCountBound := waveform.countBound
        levelCountPositive := waveform.countPositive, levelsFilled := waveform.filled
        markersCounted := waveform.markersCounted, mergesCounted := waveform.mergesCounted
        runMemBound := waveform.runsBound
        scanLawful := scan.lawful, totalIsWords := scan.totalIsWords, firstCountIsMin := scan.firstCountIsMin
        firstWordsZero := scan.firstWordsZero, probeIndexZero := probe
        nothingStaged := staged, heldInReset := held }

/-- While a command is in flight `rst` is released. -/
theorem InvParts.rst_of_busy {s : State} (h : InvParts s) {op : Latched} (hbusy : s.phase = .busy op) :
    s.rst = false := by
  by_contra hrst
  have hphase := congrArg State.phase (h.held (by simpa using hrst))
  rw [hbusy] at hphase
  cases hphase

/-! ### Each kind of step keeps the parts -/

theorem InvParts.eventTaken {s : State} (h : InvParts s) : InvParts (eventTaken s) where
  buffer := h.buffer
  control := h.control.keep rfl (fun _ => rfl) rfl rfl rfl id
  waveform := h.waveform
  scan := h.scan
  probe := h.probe
  staged := h.staged
  held := fun hrst => congrArg Machine.eventTaken (h.held hrst)

/-- The reset state, held while `rst` is asserted (R450). -/
theorem invParts_reset (p : Config.Params) (events : List Event) (draws : Nat) :
    InvParts { State.resetWith p with rst := true, events := events, draws := draws } where
  buffer := bufferInv_nil p
  control := .of_idle rfl rfl
  waveform := waveformInv_zero List.length_replicate (Nat.zero_le _)
  scan := scanGroupInv_zero
  probe := probeGroupInv_zero
  staged := rfl
  held := fun _ => rfl

theorem InvParts.resetLine {s : State} (h : InvParts s) (asserted : Bool) : InvParts (resetLine asserted s) := by
  cases asserted with
  | true => exact invParts_reset s.params s.events s.draws
  | false =>
    exact
      { buffer := h.buffer
        control := h.control.keep rfl (fun _ => rfl) rfl rfl rfl id
        waveform := h.waveform
        scan := h.scan
        probe := h.probe
        staged := h.staged
        held := nofun }

/-- A completion ends IDLE with ERR and ERRCODE that agree, so it keeps the parts if it keeps the result groups. -/
theorem InvParts.of_idle {s t : State} (h : InvParts s) (hrst : s.rst = false) (hidle : t.phase = .idle)
    (herr : t.status.err = (t.status.errCode != .ok)) (hparams : t.params = s.params) (hmem : t.mem = s.mem)
    (hstaged : t.staged = none) (hrst' : t.rst = s.rst)
    (hwaveform : WaveformInv s.params t.status.reduceValid t.reduce t.levels t.runMem)
    (hscan : ScanGroupInv t.status.scanValid t.scan) (hprobe : ProbeGroupInv t.probe) : InvParts t where
  buffer := by rw [hparams, hmem]; exact h.buffer
  control := .of_idle hidle herr
  waveform := by rw [hparams]; exact hwaveform
  scan := hscan
  probe := hprobe
  staged := hstaged
  held := fun ht => by simp [hrst', hrst] at ht

/-- An error completion keeps every result; it may only clear a valid bit (R365). -/
theorem InvParts.failed {s : State} (h : InvParts s) {op : Latched} (hbusy : s.phase = .busy op) (i : Instr)
    {c : ErrCode} (hc : c ≠ .ok) : InvParts (failed (validOnFailure i) c s) :=
  h.of_idle (h.rst_of_busy hbusy) rfl (by simpa using hc) rfl rfl rfl rfl
    (h.waveform.of_valid_imp (by cases i <;> simp [validOnFailure]))
    (h.scan.of_valid_imp (by cases i <;> simp [validOnFailure])) h.probe

theorem InvParts.completeReserved {s : State} (h : InvParts s) {op : Latched} (hbusy : s.phase = .busy op) :
    InvParts (completeReserved s) :=
  h.of_idle (h.rst_of_busy hbusy) rfl rfl rfl rfl rfl rfl h.waveform h.scan h.probe

theorem scanBody_inv {op : Latched} {s : State} {g : ScanGroup} (h : scanBody op s = .ok (.scan g)) (valid : Bool) :
    ScanGroupInv valid g := by
  obtain ⟨hscan, h0, hrange⟩ := wordCountChecked_ok h
  have hb := legal_bounds (s := s) ⟨h0, hrange⟩
  have hlen := sampleWords_length s op.wordCount.toNat
  injection hscan with hscan
  injection hscan with hscan
  subst hscan
  exact scanWordsOf_inv valid _ (List.length_pos_iff.1 (by omega)) (by omega)

theorem probeBody_inv {op : Latched} {s : State} {g : ProbeGroup} (h : probeBody op s = .ok (.probe g)) :
    ProbeGroupInv g := by
  obtain ⟨hprobe, h0, hrange⟩ := wordCountChecked_ok h
  injection hprobe with hprobe
  injection hprobe with hprobe
  subst hprobe
  exact probeSamples_inv _ (analyzedSamples_bounds (s := s) ⟨h0, hrange⟩).2

/-- A successful command writes its own group, lawfully (R363, R364). -/
theorem InvParts.succeeded {s : State} (h : InvParts s) {op : Latched} (hbusy : s.phase = .busy op) {i : Instr}
    {st : Staged} (hbody : bodyOf i op s = .ok st) :
    InvParts (succeeded (validOnSuccess i) (commitGroup st) s) := by
  have hrst := h.rst_of_busy hbusy
  rcases bodyOf_group hbody with ⟨rfl, g, rfl⟩ | ⟨rfl, g, rfl⟩ | ⟨rfl, g, rfl⟩ | ⟨rfl, g, entries, runs, rfl⟩ |
    ⟨rfl, b, rfl⟩ | ⟨rfl, rfl⟩
  · exact h.of_idle hrst rfl rfl rfl rfl rfl rfl h.waveform h.scan (probeBody_inv hbody)
  · exact h.of_idle hrst rfl rfl rfl rfl rfl rfl h.waveform (scanBody_inv hbody true) h.probe
  · exact h.of_idle hrst rfl rfl rfl rfl rfl rfl h.waveform h.scan h.probe
  · have hwaveform := (reduceBody_staged hbody).inv h.waveform.size true
    exact h.of_idle hrst rfl rfl rfl rfl rfl rfl hwaveform h.scan h.probe
  · exact h.of_idle hrst rfl rfl rfl rfl rfl rfl h.waveform h.scan h.probe
  · exact h.of_idle hrst rfl rfl rfl rfl rfl rfl (waveformInv_zero h.waveform.size h.waveform.runsBound)
      scanGroupInv_zero probeGroupInv_zero

/-- The buffer takes whole words, and only in its window (R146, R158). -/
theorem BufferInv.access {s t : State} {a : Access} (h : BufferInv s.params s.mem) (heffect : HostEffect s a t) :
    BufferInv s.params t.mem := by
  cases heffect with
  | refused => simpa using h
  | read => simpa using h
  | dropped => exact h
  | accepted => exact h
  | acknowledged => exact h
  | operand off v hidle hrw => simpa [writeReg_mem_of_rw v s hrw] using h
  | stored v hidle hi => exact h.storeWord hi v

/-- While BUSY the operand registers stand, and an acceptance latches them (R155, R361). -/
theorem ControlInv.access {s t : State} {a : Access} (h : ControlInv s) (heffect : HostEffect s a t) :
    ControlInv t := by
  cases heffect with
  | refused => exact h.keep (by simp) (by simp [latch, State.sampleRate]) (by simp) (by simp) (by simp) (by simp)
  | read off x => exact h.keep (by simp) (by simp [latch, State.sampleRate]) (by simp) (by simp) (by simp) (by simp)
  | dropped => exact h.keep rfl (fun _ => rfl) rfl rfl rfl id
  | accepted w => exact controlInv_accept w s
  | acknowledged => exact h.keep rfl (fun _ => rfl) rfl rfl rfl (by simp +contextual)
  | operand off v hidle hrw =>
    exact .of_idle ((writeReg_phase_of_rw v s hrw).trans hidle) (writeReg_status_of_rw v s hrw ▸ h.errIffCode)
  | stored v hidle => exact .of_idle hidle h.errIffCode

/-- A host access keeps the results (R154), and the other parts case by case. -/
theorem InvParts.access {s : State} (h : InvParts s) (hrst : s.rst = false) (a : Access) :
    InvParts (hostAccess a s) := by
  obtain ⟨hresults, hruns, hparams, hstaged, hrst', -, hvalid⟩ := hostAccess_frame a s
  have heffect := hostAccess_effect a s
  generalize hostAccess a s = t at *
  simp only [committedResults, Prod.mk.injEq] at hresults
  simp only [validBits, Prod.mk.injEq] at hvalid
  obtain ⟨hscan, hprobe, -, -, hreduce, hlevels⟩ := hresults
  obtain ⟨-, hscanValid, -, hreduceValid, -⟩ := hvalid
  exact
    { buffer := by rw [hparams]; exact h.buffer.access heffect
      control := h.control.access heffect
      waveform := by rw [hparams, hreduceValid, hreduce, hlevels, hruns]; exact h.waveform
      scan := by rw [hscanValid, hscan]; exact h.scan
      probe := by rw [hprobe]; exact h.probe
      staged := hstaged.trans h.staged
      held := fun ht => by simp [hrst', hrst] at ht }

/-- Settles O56: every case of a step keeps every part of the invariant. -/
theorem stepKeepsTheInvariant : Obligations.StepKeepsTheInvariant := by
  intro s t hs hstep
  rw [inv_iff_parts] at hs ⊢
  have hu := hs.eventTaken
  cases step_effect hstep with
  | idled => exact hu
  | succeeded _ hbusy hbody => exact hu.succeeded hbusy hbody
  | failed _ hbusy i hc => exact hu.failed hbusy i hc
  | reserved _ hbusy => exact hu.completeReserved hbusy
  | accessed _ hrst => exact hu.access hrst _
  | resetAsserted => exact hu.resetLine true
  | resetReleased => exact hu.resetLine false

end Sys2Proof.Machine
end

section
/-! PROOFS, what does not matter: the run memory and the levels at or beyond LEVEL_COUNT (HiddenMemoriesNeverShow), and
the sample words at index n and above (WordsBeyondTheCountDoNotMatter). Both are commuting diagrams: writing the memory
before an operation gives what writing it after gives. -/

namespace Sys2Proof.Machine

/-! ### The hidden memories -/

/-- The state with other contents of the levels memory and the run memory. -/
def withHidden (levels : List Level) (runs : List RunEntry) (s : State) : State :=
  { s with levels := levels, runMem := runs }

/-- The two memories hold the same levels below LEVEL_COUNT. -/
def SameVisibleLevels (g : ReduceGroup) (old new : List Level) : Prop :=
  ∀ j, j < g.levelCount.toNat → old.getD j .empty = new.getD j .empty

theorem levelEntry_withHidden {s : State} {levels : List Level} (runs : List RunEntry)
    (h : SameVisibleLevels s.reduce s.levels levels) (j : Nat) :
    levelEntry (withHidden levels runs s) j = levelEntry s j :=
  ite_congr rfl (fun hj => (h j hj).symm) fun _ => rfl

theorem alike_iff {s t : State} :
    alike s t ↔ ∃ levels runs, t = withHidden levels runs s ∧ SameVisibleLevels s.reduce s.levels levels := by
  constructor
  · rintro ⟨ht, hentries⟩
    refine ⟨t.levels, t.runMem, ht, fun j hj => ?_⟩
    have hcount : t.reduce = s.reduce := by rw [ht]
    have hentry := hentries j
    rwa [levelEntry, levelEntry, hcount, if_pos hj, if_pos hj] at hentry
  · rintro ⟨levels, runs, rfl, h⟩
    exact ⟨rfl, fun j => (levelEntry_withHidden runs h j).symm⟩

theorem alike_withHidden {s : State} {levels : List Level} (runs : List RunEntry)
    (h : SameVisibleLevels s.reduce s.levels levels) : alike s (withHidden levels runs s) :=
  alike_iff.2 ⟨levels, runs, rfl, h⟩

/-! ### Host accesses do not see them -/

theorem refuseAccess_withHidden (a : Access) (levels : List Level) (runs : List RunEntry) (s : State) :
    refuseAccess a (withHidden levels runs s) = withHidden levels runs (refuseAccess a s) := by
  cases a <;> rfl

/-- The one read of the levels memory is masked at LEVEL_COUNT (R121). -/
theorem performRead_withHidden (x : Target) {s : State} {levels : List Level} (runs : List RunEntry)
    (h : SameVisibleLevels s.reduce s.levels levels) :
    performRead x (withHidden levels runs s) = withHidden levels runs (performRead x s) := by
  cases x with
  | reg r => cases r <;> rfl
  | levels w =>
    have hword : levelsWord (withHidden levels runs s) w = levelsWord s w := by
      simp only [levelsWord, levelEntry_withHidden runs h]
    simp only [performRead, hword]
    rfl
  | sampleWord i => rfl

theorem performWrite_withHidden (x : Target) (v : Word) (levels : List Level) (runs : List RunEntry) (s : State) :
    performWrite x v (withHidden levels runs s) = withHidden levels runs (performWrite x v s) := by
  cases x with
  | reg r => cases r <;> rfl
  | levels w => rfl
  | sampleWord i => rfl

theorem writeTarget_withHidden (a : Access) (x : Target) (v : Word) (levels : List Level) (runs : List RunEntry)
    (s : State) : writeTarget a x v (withHidden levels runs s) = withHidden levels runs (writeTarget a x v s) := by
  have hphase : (withHidden levels runs s).phase = s.phase := rfl
  unfold writeTarget
  rw [hphase, refuseAccess_withHidden, performWrite_withHidden]
  cases x.accessCode <;> cases s.phase.isBusy <;> rfl

theorem hostAccess_withHidden (a : Access) {s : State} {levels : List Level} (runs : List RunEntry)
    (h : SameVisibleLevels s.reduce s.levels levels) :
    hostAccess a (withHidden levels runs s) = withHidden levels runs (hostAccess a s) := by
  have hparams : (withHidden levels runs s).params = s.params := rfl
  unfold hostAccess
  rw [hparams]
  split_ifs
  · exact refuseAccess_withHidden a levels runs s
  · cases targetAt s.params a.offset.toNat with
    | none => exact refuseAccess_withHidden a levels runs s
    | some x =>
      cases a with
      | read w off => exact performRead_withHidden x runs h
      | write w off v => exact writeTarget_withHidden _ x v levels runs s

/-- A host access changes neither what LEVEL_COUNT says nor what lies below it. -/
theorem hostAccess_alike (a : Access) {s : State} {levels : List Level} (runs : List RunEntry)
    (h : SameVisibleLevels s.reduce s.levels levels) :
    alike (hostAccess a s) (hostAccess a (withHidden levels runs s)) := by
  obtain ⟨hresults, -⟩ := hostAccess_frame a s
  simp only [committedResults, Prod.mk.injEq] at hresults
  obtain ⟨-, -, -, -, hreduce, hlevels⟩ := hresults
  rw [hostAccess_withHidden a runs h]
  refine alike_withHidden runs ?_
  rwa [hreduce, hlevels]

/-! ### Commands do not see them -/

/-- No pseudocode reads the two memories (R131). -/
theorem bodyOf_withHidden (i : Instr) (op : Latched) (levels : List Level) (runs : List RunEntry) (s : State) :
    bodyOf i op (withHidden levels runs s) = bodyOf i op s := by
  cases i <;> rfl

/-- A REDUCE overwrites all the entries that LEVEL_COUNT then covers. -/
theorem WaveformStaged.sameVisibleLevels {p : Config.Params} {g : ReduceGroup} {entries : List Level}
    {kept : List RunEntry} (h : WaveformStaged p g entries kept) (old new : List Level) :
    SameVisibleLevels g (overwriteLevels entries old) (overwriteLevels entries new) := by
  intro j hj
  rw [h.count] at hj
  rw [overwriteLevels_getD hj, overwriteLevels_getD hj]

/-- A successful command leaves alike states alike. -/
theorem succeeded_alike {i : Instr} {op : Latched} {st : Staged} {s : State} {levels : List Level}
    (runs : List RunEntry) (hbody : bodyOf i op s = .ok st) (h : SameVisibleLevels s.reduce s.levels levels) :
    alike (succeeded (validOnSuccess i) (commitGroup st) s)
      (succeeded (validOnSuccess i) (commitGroup st) (withHidden levels runs s)) := by
  cases st with
  | probe g => exact alike_withHidden runs h
  | scan g => exact alike_withHidden runs h
  | derive g => exact alike_withHidden runs h
  | reduce g entries kept =>
    obtain rfl : i = .reduce := by rcases bodyOf_group hbody with h | h | h | h | h | h <;> simp_all
    exact alike_withHidden kept ((reduceBody_staged hbody).sameVisibleLevels s.levels levels)
  | sample b => exact alike_withHidden runs h
  | clear => exact alike_withHidden runs fun j hj => absurd hj (Nat.not_lt_zero j)

/-- The engine's turn: the same command runs to the same end. -/
theorem engineTurn_alike {s : State} {levels : List Level} (runs : List RunEntry)
    (h : SameVisibleLevels s.reduce s.levels levels) :
    alikeOutcomes (engineTurn s) (engineTurn (withHidden levels runs s)) := by
  have hphase : (withHidden levels runs s).phase = s.phase := rfl
  unfold engineTurn
  rw [hphase]
  cases hop : s.phase with
  | idle => exact alike_withHidden runs h
  | busy op =>
    simp only [runWord]
    cases decode op.word with
    | error e => exact alike_withHidden (s := completeReserved s) runs h
    | ok i =>
      simp only [exec_busy i hop, exec_busy (s := withHidden levels runs s) i hop, bodyOf_withHidden]
      cases hbody : bodyOf i op s with
      | error c => exact alike_withHidden (s := complete i (.error c) s) runs h
      | ok st =>
        simp only [complete, completeSuccess_eq]
        exact succeeded_alike runs hbody h

theorem event_alike (e : Event) {s : State} {levels : List Level} (runs : List RunEntry)
    (h : SameVisibleLevels s.reduce s.levels levels) :
    alikeOutcomes (event e s) (event e (withHidden levels runs s)) := by
  cases e with
  | access a =>
    have hrst : (withHidden levels runs s).rst = s.rst := rfl
    simp only [event, accessEvent, hrst]
    split_ifs
    · rfl
    · exact hostAccess_alike a runs h
  | engine => exact engineTurn_alike runs h
  | reset asserted =>
    cases asserted with
    | true => exact ⟨rfl, fun _ => rfl⟩
    | false => exact alike_withHidden (s := resetLine false s) runs h

/-- Settles O57: the memories are written alike by every event, and only what LEVEL_COUNT covers is read. -/
theorem hiddenMemoriesNeverShow : Obligations.HiddenMemoriesNeverShow := by
  intro s t hst
  obtain ⟨levels, runs, rfl, h⟩ := alike_iff.1 hst
  cases hev : s.events with
  | nil =>
    rw [step_nil hev, step_nil (s := withHidden levels runs s) hev]
    exact engineTurn_alike runs h
  | cons e es =>
    rw [step_cons hev, step_cons (s := withHidden levels runs s) hev]
    exact event_alike e (s := { s with events := es }) runs h

/-! ### The words beyond the count -/

section

variable {s : State} {m : Memory} {n : Nat}

theorem sampleWord_withMem {k : Nat} (h : loadWord m k = loadWord s.mem k) :
    sampleWord { s with mem := m } k = sampleWord s k := by
  simp only [sampleWord, h]

theorem sampleWords_withMem (h : ∀ k, k < n → loadWord m k = loadWord s.mem k) :
    sampleWords { s with mem := m } n = sampleWords s n :=
  List.map_congr_left fun k hk => sampleWord_withMem (h k (List.mem_range.1 hk))

end

/-- A command's pseudocode reads words 0 to `n - 1` only (R111); the word SAMPLE addresses is one of them. -/
theorem bodyOf_withMem (i : Instr) {op : Latched} {s : State} {m : Memory}
    (h : ∀ k, k < op.wordCount.toNat → loadWord m k = loadWord s.mem k) :
    bodyOf i op { s with mem := m } = bodyOf i op s := by
  have hwords := sampleWords_withMem h
  cases i with
  | probe => simp only [bodyOf, probeBody, hwords]
  | scan => simp only [bodyOf, scanBody, hwords]
  | derive => rfl
  | reduce => simp only [bodyOf, reduceBody, hwords]
  | sample =>
    simp only [bodyOf, sampleBody]
    by_cases hpast : totalSamples op.wordCount.toNat ≤ op.sampleIndex.toNat
    · rw [if_pos hpast, if_pos hpast]
    · have hk : op.sampleIndex.toNat / 32 < op.wordCount.toNat := by
        unfold totalSamples at hpast
        omega
      rw [sampleWord_withMem (h _ hk)]
  | clear => rfl

/-- No completion touches the buffer. -/
theorem complete_withMem (i : Instr) (r : Except ErrCode Staged) (s : State) (m : Memory) :
    complete i r { s with mem := m } = { complete i r s with mem := m } := by
  cases r with
  | error c => rfl
  | ok st => cases st <;> rfl

/-- Settles O33: the pseudocode gives the same result, and its completion leaves the buffer as it is. -/
theorem wordsBeyondTheCountDoNotMatter : Obligations.WordsBeyondTheCountDoNotMatter := by
  intro i s t op m hbusy hwords hexec
  rw [exec_busy i hbusy] at hexec
  injection hexec with hexec
  rw [exec_busy (s := { s with mem := m }) i hbusy, bodyOf_withMem i hwords, complete_withMem, hexec]

end Sys2Proof.Machine
end

section
/-! PROOFS, the causes of a change: one event per step (StepTakesOneEvent), and for each STATUS flag, the results, the
buffer and the valid bits the only events that change them. Each statement says of `HostEffect` and `StepEffect` which
of their cases the change can be. -/

namespace Sys2Proof.Machine

/-! ### One event per step -/

theorem engineTurn_idle {s : State} (h : s.phase = .idle) : engineTurn s = .next s := by
  simp only [engineTurn, h]

/-- A step takes the first event from the list and keeps the parameters. -/
theorem StepEffect.params_events {s t : State} (h : StepEffect s t) :
    t.params = s.params ∧ t.events = s.events.tail := by
  cases h with
  | idled => exact ⟨rfl, rfl⟩
  | succeeded => exact ⟨succeeded_params _ _ _, succeeded_events _ _ _⟩
  | failed => exact ⟨rfl, rfl⟩
  | reserved => exact ⟨rfl, rfl⟩
  | accessed =>
    obtain ⟨-, -, hparams, -, -, hevents, -⟩ := hostAccess_frame _ (eventTaken s)
    exact ⟨hparams, hevents⟩
  | resetAsserted => exact ⟨rfl, rfl⟩
  | resetReleased => exact ⟨rfl, rfl⟩

/-- Settles O4: by the cases of a step; the IDLE engine's turn ends where it began. -/
theorem stepTakesOneEvent : Obligations.StepTakesOneEvent := by
  refine ⟨fun s t h => (step_effect h).params_events, fun s hidle => ⟨fun hev => ?_, fun es hev => ?_⟩⟩
  · rw [step_nil hev]
    exact engineTurn_idle hidle
  · rw [step_engine hev]
    exact engineTurn_idle (s := { s with events := es }) hidle

/-! ### What a host access can do to STATUS, the phase and the buffer -/

section

variable {s t : State} {a : Access}

/-- AERR rises only on a refused access (R63). -/
theorem HostEffect.aerr_rises (h : HostEffect s a t) (h0 : s.status.aerr = false) (h1 : t.status.aerr = true) :
    refusalCause s.params a := by
  cases h with
  | refused hcause => exact hcause
  | operand off v _ hrw => simp [writeReg_status_of_rw v s hrw, h0] at h1
  | _ => simp [h0] at h1

/-- AERR falls only by its STATUS bit (R68). -/
theorem HostEffect.aerr_falls (h : HostEffect s a t) (h0 : s.status.aerr = true) (h1 : t.status.aerr = false) :
    ∃ v, a = .write .w32 0x018 v ∧ v.getLsbD 4 = true := by
  cases h with
  | acknowledged v => exact ⟨v, rfl, by simpa [h0] using h1⟩
  | operand off v _ hrw => simp [writeReg_status_of_rw v s hrw, h0] at h1
  | _ => simp [h0] at h1

/-- WERR rises only on a write dropped while BUSY (R62, R155). -/
theorem HostEffect.werr_rises (h : HostEffect s a t) (h0 : s.status.werr = false) (h1 : t.status.werr = true) :
    ∃ off v, a = .write .w32 off v ∧ s.phase ≠ .idle ∧ droppedWhileBusyAt s.params off.toNat := by
  cases h with
  | dropped v hbusy hoff => exact ⟨_, v, rfl, hbusy, hoff⟩
  | operand off v _ hrw => simp [writeReg_status_of_rw v s hrw, h0] at h1
  | _ => simp [h0] at h1

/-- WERR falls only by its STATUS bit (R68). -/
theorem HostEffect.werr_falls (h : HostEffect s a t) (h0 : s.status.werr = true) (h1 : t.status.werr = false) :
    ∃ v, a = .write .w32 0x018 v ∧ v.getLsbD 3 = true := by
  cases h with
  | acknowledged v => exact ⟨v, rfl, by simpa [h0] using h1⟩
  | operand off v _ hrw => simp [writeReg_status_of_rw v s hrw, h0] at h1
  | _ => simp [h0] at h1

/-- No host access sets DONE (R60). -/
theorem HostEffect.done_stays_false (h : HostEffect s a t) (h0 : s.status.done = false) : t.status.done = false := by
  cases h with
  | operand off v _ hrw => rw [writeReg_status_of_rw v s hrw, h0]
  | _ => simp [h0]

/-- DONE falls only at an acceptance or by its STATUS bit (R60, R68). -/
theorem HostEffect.done_falls (h : HostEffect s a t) (h0 : s.status.done = true) (h1 : t.status.done = false) :
    (∃ w, a = .write .w32 0x014 w ∧ s.phase = .idle) ∨ ∃ v, a = .write .w32 0x018 v ∧ v.getLsbD 1 = true := by
  cases h with
  | accepted w hidle => exact .inl ⟨w, rfl, hidle⟩
  | acknowledged v => exact .inr ⟨v, rfl, by simpa [h0] using h1⟩
  | operand off v _ hrw => simp [writeReg_status_of_rw v s hrw, h0] at h1
  | _ => simp [h0] at h1

/-- LAST_OP changes only at an acceptance (R65). -/
theorem HostEffect.lastOp_changes (h : HostEffect s a t) (h1 : t.status.lastOp ≠ s.status.lastOp) :
    ∃ w, a = .write .w32 0x014 w ∧ s.phase = .idle ∧ t.status.lastOp = w.extractLsb' 0 4 := by
  cases h with
  | accepted w hidle => exact ⟨w, rfl, hidle, rfl⟩
  | operand off v _ hrw => simp [writeReg_status_of_rw v s hrw] at h1
  | _ => simp at h1

/-- The buffer changes only by a write to its window while IDLE (R110, R155). -/
theorem HostEffect.mem_changes (h : HostEffect s a t) (h1 : t.mem ≠ s.mem) :
    s.phase = .idle ∧ ∃ off v, a = .write .w32 off v ∧ 0x10000 ≤ off.toNat ∧
      off.toNat < 0x10000 + 4 * s.params.bufWords := by
  cases h with
  | operand off v _ hrw => simp [writeReg_mem_of_rw v s hrw] at h1
  | stored v hidle _ hlo hhi => exact ⟨hidle, _, v, rfl, hlo, hhi⟩
  | _ => simp at h1

end

/-! ### What a step can do to them -/

/-- What every completion does to STATUS, the phase and the buffer (R363). -/
structure Completes (s t : State) : Prop where
  hadTurn : engineHasTurn s
  wasBusy : s.phase ≠ .idle
  phase : t.phase = .idle
  done : t.status.done = true
  aerr : t.status.aerr = s.status.aerr
  werr : t.status.werr = s.status.werr
  lastOp : t.status.lastOp = s.status.lastOp
  mem : t.mem = s.mem

/-- The kinds of a step: an IDLE engine's turn, a completion, a host access, a change of `rst`. -/
inductive StepKind (s t : State) : Prop
  | idled (h : t = eventTaken s)
  | completed (h : Completes s t)
  | accessed {a : Access} {es : List Event} (hevent : s.events = .access a :: es)
      (heffect : HostEffect (eventTaken s) a t) (hresults : committedResults t = committedResults s)
  | resetAsserted {es : List Event} (hevent : s.events = .reset true :: es) (h : t = resetLine true (eventTaken s))
  | resetReleased (h : t = resetLine false (eventTaken s))

theorem step_kind {s t : State} (h : step s = .next t) : StepKind s t := by
  cases step_effect h with
  | idled => exact .idled rfl
  | succeeded hturn hbusy =>
    exact .completed ⟨hturn, by simp [hbusy], rfl, rfl, validOnSuccess_aerr _ _, validOnSuccess_werr _ _,
      validOnSuccess_lastOp _ _, succeeded_mem _ _ _⟩
  | failed hturn hbusy i =>
    exact .completed ⟨hturn, by simp [hbusy], rfl, rfl, validOnFailure_aerr i _, validOnFailure_werr i _,
      validOnFailure_lastOp i _, rfl⟩
  | reserved hturn hbusy => exact .completed ⟨hturn, by simp [hbusy], rfl, rfl, rfl, rfl, rfl, rfl⟩
  | accessed hevent => exact .accessed hevent (hostAccess_effect _ _) (hostAccess_frame _ _).1
  | resetAsserted hevent => exact .resetAsserted hevent rfl
  | resetReleased => exact .resetReleased rfl

/-- Settles O52: of the cases of a step only a host access and the assertion of `rst` move AERR and WERR. -/
theorem stickyFlagsHaveTheirOnlyCauses : Obligations.StickyFlagsHaveTheirOnlyCauses := by
  intro s t hstep
  cases step_kind hstep with
  | idled h => subst h; simp +contextual [eventTaken]
  | completed h => simp +contextual [h.aerr, h.werr]
  | accessed hevent heffect =>
    refine ⟨fun h0 h1 => ⟨_, _, hevent, heffect.aerr_rises h0 h1⟩, fun h0 h1 => .inl ?_, fun h0 h1 => ?_,
      fun h0 h1 => .inl ?_⟩
    · obtain ⟨v, rfl, hv⟩ := heffect.aerr_falls h0 h1
      exact ⟨v, _, hevent, hv⟩
    · obtain ⟨off, v, rfl, hbusy, hoff⟩ := heffect.werr_rises h0 h1
      exact ⟨off, v, _, hevent, hbusy, hoff⟩
    · obtain ⟨v, rfl, hv⟩ := heffect.werr_falls h0 h1
      exact ⟨v, _, hevent, hv⟩
  | resetAsserted hevent h =>
    subst h
    exact ⟨fun _ h1 => absurd h1 Bool.false_ne_true, fun _ _ => .inr ⟨_, hevent⟩,
      fun _ h1 => absurd h1 Bool.false_ne_true, fun _ _ => .inr ⟨_, hevent⟩⟩
  | resetReleased h => subst h; simp +contextual [resetLine, eventTaken]

/-- Settles O53: DONE rises in a completion alone; it falls, and LAST_OP changes, in a host access or a reset. -/
theorem doneAndLastOpHaveTheirOnlyCauses : Obligations.DoneAndLastOpHaveTheirOnlyCauses := by
  intro s t hstep
  cases step_kind hstep with
  | idled h => subst h; simp +contextual [eventTaken]
  | completed h =>
    exact ⟨fun _ _ => ⟨h.wasBusy, h.phase, h.hadTurn⟩, fun _ h1 => by simp [h.done] at h1,
      fun h1 => absurd h.lastOp h1⟩
  | accessed hevent heffect =>
    refine ⟨fun h0 h1 => ?_, fun h0 h1 => ?_, fun h1 => .inl ?_⟩
    · simp [heffect.done_stays_false h0] at h1
    · rcases heffect.done_falls h0 h1 with ⟨w, rfl, hidle⟩ | ⟨v, rfl, hv⟩
      · exact .inl ⟨w, _, hevent, hidle⟩
      · exact .inr (.inl ⟨v, _, hevent, hv⟩)
    · obtain ⟨w, rfl, hidle, hop⟩ := heffect.lastOp_changes h1
      exact ⟨w, _, hevent, hidle, hop⟩
  | resetAsserted hevent h =>
    subst h
    exact ⟨fun _ h1 => absurd h1 Bool.false_ne_true, fun _ _ => .inr (.inr ⟨_, hevent⟩),
      fun _ => .inr ⟨_, hevent⟩⟩
  | resetReleased h => subst h; simp +contextual [resetLine, eventTaken]

/-- Settles O54: results change in a completion or a reset, the buffer in a host access or a reset. -/
theorem resultsAndSamplesHaveTheirOnlyWriters : Obligations.ResultsAndSamplesHaveTheirOnlyWriters := by
  intro s t hstep
  cases step_kind hstep with
  | idled h => subst h; exact ⟨fun h => absurd rfl h, fun h => absurd rfl h⟩
  | completed h =>
    exact ⟨fun _ => .inl ⟨h.wasBusy, h.phase, h.done, h.hadTurn⟩, fun hmem => absurd h.mem hmem⟩
  | accessed hevent heffect hresults =>
    refine ⟨fun h => absurd hresults h, fun h => .inl ?_⟩
    obtain ⟨hidle, off, v, rfl, hlo, hhi⟩ := heffect.mem_changes h
    exact ⟨hidle, off, v, _, hevent, hlo, hhi⟩
  | resetAsserted hevent => exact ⟨fun _ => .inr ⟨_, hevent⟩, fun _ => .inr ⟨_, hevent⟩⟩
  | resetReleased h => subst h; exact ⟨fun h => absurd rfl h, fun h => absurd rfl h⟩

end Sys2Proof.Machine
end

section
/-! PROOFS, the valid bits (ValidBitsFollowTheTable). -/

namespace Sys2Proof.Machine

/-- The opcodes are the codes of R181. -/
theorem eq_opcode_of_decodeOp {op : BitVec 4} {i : Instr} (h : decodeOp op = .ok i) : op = opcode i := by
  unfold decodeOp at h
  split at h <;> cases h <;> exact BitVec.eq_of_toNat_eq ‹_›

/-- A word that selects a command is that command's word (R181, R182). -/
theorem eq_encode_of_decode {w : Word} {i : Instr} (h : decode w = .ok i) : w = encode i := by
  unfold decode at h
  split_ifs at h with hrsv
  have hop := eq_opcode_of_decodeOp h
  have hsplit : w = rsvField w ++ opField w := by
    apply BitVec.eq_of_getLsbD_eq
    intro k hk
    rw [BitVec.getLsbD_append, rsvField, opField, BitVec.getLsbD_extractLsb', BitVec.getLsbD_extractLsb']
    by_cases hlow : k < 4
    · simp [hlow]
    · simp [hlow, show k - 4 < 28 by omega, show 4 + (k - 4) = k by omega]
  rw [hsplit, hrsv, hop]
  rfl

/-- The table of R66 for a command in flight. -/
theorem validBits_exec_busy {i : Instr} {s t : State} {op : Latched} (hbusy : s.phase = .busy op)
    (hexec : exec i s = .next t) :
    validBits t.status =
      validBits (if t.status.err = false then validOnSuccess i s.status else validOnFailure i s.status) := by
  rcases exec_busy_cases i hbusy hexec with ⟨st, _, rfl⟩ | ⟨c, _, _, rfl⟩ <;> rfl

/-- The table of R66 for every command, accepted first where none is in flight. -/
theorem validBits_exec {i : Instr} {s t : State} (hexec : exec i s = .next t) :
    validBits t.status =
      validBits (if t.status.err = false then validOnSuccess i s.status else validOnFailure i s.status) := by
  cases hphase : s.phase with
  | busy op => exact validBits_exec_busy hphase hexec
  | idle =>
    rw [exec_idle i hphase] at hexec
    rw [validBits_exec_busy (accept_phase (encode i) s) hexec]
    cases t.status.err <;> cases i <;> rfl

/-- A reserved word in flight completes with no valid bit changed (R367). -/
theorem validBits_engineTurn_reserved {s t : State} {op : Latched} (hbusy : s.phase = .busy op)
    (hreserved : ∀ i, op.word ≠ encode i) (h : engineTurn s = .next t) :
    validBits t.status = validBits s.status := by
  rcases engineTurn_cases h with ⟨hidle, rfl⟩ | ⟨op', i, hbusy', hdecode, _⟩ | ⟨_, _, _, _, rfl⟩
  · rfl
  · obtain rfl : op = op' := by simpa [hbusy] using hbusy'
    exact absurd (eq_encode_of_decode hdecode) (hreserved i)
  · rfl

/-- A step on a host access that goes through is that access (R450). -/
theorem step_access_eq {s t : State} {a : Access} {es : List Event} (hev : s.events = .access a :: es)
    (h : step s = .next t) : t = hostAccess a { s with events := es } := by
  simp only [step_cons hev, event, accessEvent] at h
  split_ifs at h
  injection h with h
  exact h.symm

/-- Settles O50: the reset state, the table for a command, a reserved word, and a host access. -/
theorem validBitsFollowTheTable : Obligations.ValidBitsFollowTheTable := by
  refine ⟨rfl, fun i s t p c d r b hexec hbits => ?_, fun s t op es hbusy hreserved hev hstep => ?_,
    fun s t a es hev hstep => ?_⟩
  · injection hbits with hp hbits
    injection hbits with hc hbits
    injection hbits with hd hbits
    injection hbits with hr hb
    subst hp hc hd hr hb
    rw [validBits_exec hexec]
    cases t.status.err <;> cases i <;> rfl
  · rw [step_engine hev] at hstep
    exact validBits_engineTurn_reserved (s := { s with events := es }) hbusy hreserved hstep
  · rw [step_access_eq hev hstep]
    obtain ⟨-, -, -, -, -, -, hvalid⟩ := hostAccess_frame a { s with events := es }
    exact hvalid

end Sys2Proof.Machine
end

section
/-! PROOFS, 10_state.md: what single registers read, and the write of STATUS (IdentityRegistersReadConstants,
StatusAndControlWordsHaveTheirFields, LevelsWordsPackTheEntries, StatusWritesClearOnlyTheirBits). -/

namespace Sys2Proof.Machine

/-! ### One access to a register -/

theorem Reg.offset_mod_four (r : Reg) : r.offset % 4 = 0 := by
  have hall : ∀ q ∈ allRegs, q.offset % 4 = 0 := by decide
  exact hall r r.mem_allRegs

/-- A read of a register returns its value and changes nothing else (R154). -/
theorem step_read_reg (r : Reg) {s : State} {off : Word} {es : List Event} (hrst : s.rst = false)
    (hoff : off.toNat = r.offset) (hev : s.events = .access (.read .w32 off) :: es) :
    step s = .next { s with events := es, readData := readReg s r } := by
  have htarget : targetAt s.params off.toNat = some (.reg r) := hoff ▸ targetAt_reg s.params r
  rw [step_access hrst hev, hostAccess_read (s := { s with events := es }) (hoff ▸ r.offset_mod_four) htarget]
  cases r <;> rfl

/-- Settles O16: STATUS takes writes in both phases, by its access code. -/
theorem statusWritesClearOnlyTheirBits : Obligations.StatusWritesClearOnlyTheirBits := by
  intro s v es hrst hev
  have hclear : ∀ flag bit : Bool, (flag && !bit) = if bit then false else flag := by decide
  rw [step_access hrst hev, hostAccess_write (x := .reg .status) rfl (targetAt_reg s.params .status)]
  simp only [writeTarget, Target.accessCode, Reg.accessCode, performWrite, writeReg, statusWriteOneToClear, hclear]

/-- Settles O17: ID is a constant, and the parameters fit their registers. -/
theorem identityRegistersReadConstants : Obligations.IdentityRegistersReadConstants := by
  intro s es hrst
  have hbuf := bufWords_lt s.params
  refine ⟨step_read_reg .id hrst rfl, fun hev => ⟨_, step_read_reg .paramBufWords hrst rfl hev, ?_⟩,
    fun hev => ⟨_, step_read_reg .paramRunCap hrst rfl hev, fun hcap => ?_⟩,
    fun hev => ⟨_, step_read_reg .paramMaxLevels hrst rfl hev, ?_⟩⟩
  · exact toReg_toNat (by omega)
  · rw [readReg, runCapWord, if_pos hcap, toReg_toNat hcap]
  · rw [readReg]
    rcases maxLevels_eq s.params with h | h <;> rw [h] <;> decide

/-! ### The fields of STATUS and CTRL -/

/-- A field of a word, from its bits. -/
theorem extractLsb'_eq_of_getLsbD {d : Word} {start len : Nat} {x : BitVec len}
    (h : ∀ k, k < len → d.getLsbD (start + k) = x.getLsbD k) : d.extractLsb' start len = x := by
  apply BitVec.eq_of_getLsbD_eq
  intro k hk
  rw [BitVec.getLsbD_extractLsb', h k hk]
  simp [hk]

theorem statusWord_flags (busy : Bool) (st : Status) :
    (statusWord busy st).getLsbD 0 = busy ∧ (statusWord busy st).getLsbD 1 = st.done ∧
      (statusWord busy st).getLsbD 2 = st.err ∧ (statusWord busy st).getLsbD 3 = st.werr ∧
      (statusWord busy st).getLsbD 4 = st.aerr ∧ (statusWord busy st).getLsbD 24 = st.probeValid ∧
      (statusWord busy st).getLsbD 25 = st.scanValid ∧ (statusWord busy st).getLsbD 26 = st.deriveValid ∧
      (statusWord busy st).getLsbD 27 = st.reduceValid ∧ (statusWord busy st).getLsbD 28 = st.sampleValid := by
  simp only [statusWord_getLsbD, BitVec.getLsbD_append]
  simp

theorem statusWord_fields (busy : Bool) (st : Status) :
    (statusWord busy st).extractLsb' 5 3 = 0 ∧ (statusWord busy st).extractLsb' 8 4 = st.errCode.code ∧
      (statusWord busy st).extractLsb' 12 4 = 0 ∧ (statusWord busy st).extractLsb' 16 4 = st.lastOp ∧
      (statusWord busy st).extractLsb' 20 4 = 0 ∧ (statusWord busy st).extractLsb' 29 3 = 0 := by
  refine ⟨?_, ?_, ?_, ?_, ?_, ?_⟩
  all_goals
    refine extractLsb'_eq_of_getLsbD fun k hk => ?_
    simp only [statusWord_getLsbD, BitVec.getLsbD_append]
    interval_cases k <;> simp

theorem ctrlWord_fields (s : State) :
    (ctrlWord s).getLsbD 0 = s.markEn ∧ (ctrlWord s).getLsbD 1 = s.ie ∧ (ctrlWord s).extractLsb' 2 30 = 0 := by
  have hbits (k : Nat) : (ctrlWord s).getLsbD k =
      ((0 : BitVec 30) ++ BitVec.ofBool s.ie ++ BitVec.ofBool s.markEn).getLsbD k := rfl
  simp only [hbits, BitVec.getLsbD_append]
  refine ⟨by simp, by simp, extractLsb'_eq_of_getLsbD fun k _ => ?_⟩
  rw [hbits, BitVec.getLsbD_append, BitVec.getLsbD_append, if_neg (by omega), if_neg (by omega)]
  simp

/-- Settles O19: the fields of the two words, bit by bit. -/
theorem statusAndControlWordsHaveTheirFields : Obligations.StatusAndControlWordsHaveTheirFields := by
  intro s es hrst
  refine ⟨fun hev => ⟨_, step_read_reg .status hrst rfl hev, ?_⟩, fun hev => ⟨_, step_read_reg .ctrl hrst rfl hev, ?_⟩⟩
  · obtain ⟨hbusy, hdone, herr, hwerr, haerr, hprobe, hscan, hderive, hreduce, hsample⟩ :=
      statusWord_flags s.phase.isBusy s.status
    obtain ⟨h7, hcode, h15, hop, h23, h31⟩ := statusWord_fields s.phase.isBusy s.status
    exact ⟨by rw [readReg, hbusy, Phase.isBusy_iff], hdone, herr, hwerr, haerr, h7, hcode, h15, hop, h23, hprobe, hscan,
      hderive, hreduce, hsample, h31⟩
  · exact ctrlWord_fields s

/-! ### The LEVELS words -/

/-- A read of a LEVELS word returns its packed entries and changes nothing else (R121, R154). -/
theorem step_read_levels {s : State} {w : Nat} {es : List Event} (hrst : s.rst = false)
    (hw : w < s.params.maxLevels / 16) (hev : s.events = .access (.read .w32 (BitVec.ofNat 32 (0x400 + 4 * w))) :: es) :
    step s = .next { s with events := es, readData := levelsWord s w } := by
  have hm := maxLevels_eq s.params
  have hoff : (BitVec.ofNat 32 (0x400 + 4 * w)).toNat = 0x400 + 4 * w := by
    rw [BitVec.toNat_ofNat]
    omega
  have htarget : targetAt s.params (BitVec.ofNat 32 (0x400 + 4 * w)).toNat = some (.levels w) := by
    rw [hoff]
    exact targetAt_levels s.params w hw
  rw [step_access hrst hev, hostAccess_read (s := { s with events := es }) (by omega) htarget]
  rfl

/-- Two bits of a LEVELS word are the code of one position of the waveform. -/
theorem levelsWord_extract (s : State) (w : Nat) {k : Nat} (hk : k < 16) :
    (levelsWord s w).extractLsb' (2 * k) 2 = (levelEntry s (16 * w + k)).code := by
  refine extractLsb'_eq_of_getLsbD fun b hb => ?_
  rw [levelsWord, packLevels_getLsbD _ k b hb (by omega)]
  simp [List.getElem?_range hk]

/-- Where LEVEL_COUNT is 0 every position reads Empty, and 16 Empty codes are all ones. -/
theorem levelsWord_of_count_zero {s : State} (h : s.reduce.levelCount = 0) (w : Nat) :
    levelsWord s w = 0xFFFFFFFF := by
  have hentry (j : Nat) : levelEntry s j = .empty := by simp [levelEntry, h]
  simp only [levelsWord, hentry]
  decide

/-- Settles O20: the packed entries, masked at LEVEL_COUNT. -/
theorem levelsWordsPackTheEntries : Obligations.LevelsWordsPackTheEntries := by
  intro s w es hrst hw hev
  refine ⟨_, step_read_levels hrst hw hev, fun k hk => ?_, fun h => levelsWord_of_count_zero h w⟩
  rw [levelsWord_extract s w hk, levelEntry]
  split_ifs
  · cases s.levels.getD (16 * w + k) .empty <;> rfl
  · rfl

end Sys2Proof.Machine
end

section
/-! PROOFS, 20_memory.md: the rules of a single host access (OddAccessesAreRefused, UnmappedAccessesAreRefused,
ReadOnlyWritesAreRefused, WritesWhileBusyAreDropped, OperandWritesWhileIdleAreStored, SampleWritesWhileIdleAreStored,
ReadsReturnTheRegisterMap, SampleReadsReturnTheStoredWord). The offset ranges of the spec are tied to what an offset
reaches; then each rule is one case of `hostAccess`. -/

namespace Sys2Proof.Machine

/-! ### What the offset ranges of the spec reach -/

/-- No register lies in a reserved range (R96). -/
theorem Reg.not_noStateAt_offset (p : Config.Params) (r : Reg) : ¬noStateAt p r.offset := by
  have hm := maxLevels_eq p
  have hall : ∀ q ∈ allRegs, q.offset ≤ 0x0D4 ∧ ¬(0x030 ≤ q.offset ∧ q.offset ≤ 0x03C) ∧ q.offset ≠ 0x08C ∧
      q.offset ≠ 0x09C := by decide
  have hr := hall r r.mem_allRegs
  unfold noStateAt
  omega

/-- The ranges that hold no state are the aligned offsets that reach nothing (R96, R145 to R147). -/
theorem targetAt_eq_none_iff {p : Config.Params} {off : Nat} (ha : off % 4 = 0) :
    targetAt p off = none ↔ noStateAt p off := by
  refine ⟨noStateAt_of_targetAt_none ha, fun h => ?_⟩
  have hm := maxLevels_eq p
  cases hx : targetAt p off with
  | none => rfl
  | some x =>
    rcases targetAt_cases hx with ⟨r, _, rfl⟩ | ⟨w, _, hlevels⟩ | ⟨i, _, _, _, hsamples⟩
    · exact absurd h (r.not_noStateAt_offset p)
    · unfold noStateAt at h
      omega
    · unfold noStateAt at h
      omega

/-- The access code of STATUS is found at the offset of STATUS alone (R68). -/
theorem offset_of_accessCode_w1c {p : Config.Params} {off : Nat} {x : Target} (hx : targetAt p off = some x)
    (hc : x.accessCode = .w1c) : off = 0x018 := by
  obtain rfl := accessCode_w1c hc
  rcases targetAt_cases hx with ⟨r, hr, hoff⟩ | ⟨w, hw, _⟩ | ⟨i, hi, _⟩
  · cases hr
    exact hoff.symm
  · cases hw
  · cases hi

/-- The read-only offsets reach a read-only target (R147, R153). -/
theorem target_of_readOnlyAt {p : Config.Params} {off : Nat} (ha : off % 4 = 0) (h : readOnlyAt p off) :
    ∃ x, targetAt p off = some x ∧ x.accessCode = .ro := by
  have hm := maxLevels_eq p
  have hapart : ¬noStateAt p off ∧ ¬droppedWhileBusyAt p off ∧ off ≠ 0x018 := by
    unfold readOnlyAt at h
    unfold noStateAt droppedWhileBusyAt
    omega
  obtain ⟨hstate, hdropped, hstatus⟩ := hapart
  obtain ⟨x, hx⟩ := Option.ne_none_iff_exists'.1 (mt (targetAt_eq_none_iff ha).1 hstate)
  refine ⟨x, hx, ?_⟩
  cases hc : x.accessCode with
  | ro => rfl
  | rw => exact absurd (droppedWhileBusyAt_of_accessCode hx (.inl hc)) hdropped
  | wo => exact absurd (droppedWhileBusyAt_of_accessCode hx (.inr hc)) hdropped
  | w1c => exact absurd (offset_of_accessCode_w1c hx hc) hstatus

/-- The offsets of R155 reach a target that takes writes while IDLE only. -/
theorem target_of_droppedWhileBusyAt {p : Config.Params} {off : Nat} (ha : off % 4 = 0)
    (h : droppedWhileBusyAt p off) : ∃ x, targetAt p off = some x ∧ (x.accessCode = .rw ∨ x.accessCode = .wo) := by
  have hm := maxLevels_eq p
  have hapart : ¬noStateAt p off ∧ ¬readOnlyAt p off ∧ off ≠ 0x018 := by
    unfold droppedWhileBusyAt at h
    unfold noStateAt readOnlyAt
    omega
  obtain ⟨hstate, hreadOnly, hstatus⟩ := hapart
  obtain ⟨x, hx⟩ := Option.ne_none_iff_exists'.1 (mt (targetAt_eq_none_iff ha).1 hstate)
  refine ⟨x, hx, ?_⟩
  cases hc : x.accessCode with
  | ro => exact absurd (readOnlyAt_of_accessCode hx hc) hreadOnly
  | rw => exact .inl rfl
  | wo => exact .inr rfl
  | w1c => exact absurd (offset_of_accessCode_w1c hx hc) hstatus

/-! ### One access, by the check that decides it (R157) -/

theorem hostAccess_of_not_aligned {a : Access} (s : State) (h : a.aligned = false) :
    hostAccess a s = refuseAccess a s := by
  rw [hostAccess, if_pos h]

theorem hostAccess_of_unmapped {a : Access} {s : State} (h : targetAt s.params a.offset.toNat = none) :
    hostAccess a s = refuseAccess a s := by
  simp only [hostAccess, h, ite_self]

theorem writeTarget_readOnly {x : Target} (a : Access) (v : Word) (s : State) (h : x.accessCode = .ro) :
    writeTarget a x v s = refuseAccess a s := by
  simp only [writeTarget, h]

theorem writeTarget_busy {x : Target} {s : State} (a : Access) (v : Word) (hbusy : s.phase.isBusy = true)
    (h : x.accessCode = .rw ∨ x.accessCode = .wo) : writeTarget a x v s = dropWrite s := by
  rcases h with h | h <;> simp only [writeTarget, h, hbusy, if_true]

theorem writeTarget_idle {x : Target} {s : State} (a : Access) (v : Word) (hidle : s.phase = .idle)
    (h : x.accessCode = .rw) : writeTarget a x v s = performWrite x v s := by
  simp [writeTarget, h, hidle, Phase.isBusy]

/-- A step on an aligned 32-bit write of a mapped offset. -/
theorem step_write {s : State} {off v : Word} {x : Target} {es : List Event} (hrst : s.rst = false)
    (ha : off.toNat % 4 = 0) (hx : targetAt s.params off.toNat = some x)
    (hev : s.events = .access (.write .w32 off v) :: es) :
    step s = .next (writeTarget (.write .w32 off v) x v { s with events := es }) := by
  rw [step_access hrst hev, hostAccess_write (s := { s with events := es }) ha hx]

/-- A step on an aligned 32-bit read of a mapped offset. -/
theorem step_read {s : State} {off : Word} {x : Target} {es : List Event} (hrst : s.rst = false)
    (ha : off.toNat % 4 = 0) (hx : targetAt s.params off.toNat = some x)
    (hev : s.events = .access (.read .w32 off) :: es) :
    step s = .next (performRead x { s with events := es }) := by
  rw [step_access hrst hev, hostAccess_read (s := { s with events := es }) ha hx]

/-- While IDLE a write to an RW target is performed (R156). -/
theorem step_write_idle {s : State} {off v : Word} {x : Target} {es : List Event} (hrst : s.rst = false)
    (hidle : s.phase = .idle) (ha : off.toNat % 4 = 0) (hx : targetAt s.params off.toNat = some x)
    (hrw : x.accessCode = .rw) (hev : s.events = .access (.write .w32 off v) :: es) :
    step s = .next (performWrite x v { s with events := es }) := by
  rw [step_write hrst ha hx hev, writeTarget_idle (s := { s with events := es }) _ v hidle hrw]

/-! ### Refused and dropped accesses -/

/-- Settles O10: the first check of R157. -/
theorem oddAccessesAreRefused : Obligations.OddAccessesAreRefused := by
  intro s a es hrst hev hodd
  have hal : a.aligned = false := by
    rw [← Bool.not_eq_true, aligned_iff]
    rintro ⟨hwidth, ha⟩
    exact hodd.elim (fun h => h hwidth) fun h => h ha
  rw [step_access hrst hev, hostAccess_of_not_aligned _ hal]
  cases a <;> rfl

/-- Settles O11: such an offset reaches nothing. -/
theorem unmappedAccessesAreRefused : Obligations.UnmappedAccessesAreRefused := by
  intro s off v es hrst ha hoff
  have hx := (targetAt_eq_none_iff ha).2 hoff
  have hrefused (a : Access) (ha : a.offset = off) (hev : s.events = .access a :: es) :
      step s = .next (refuseAccess a { s with events := es }) := by
    subst ha
    rw [step_access hrst hev, hostAccess_of_unmapped (s := { s with events := es }) hx]
  exact ⟨hrefused _ rfl, hrefused _ rfl⟩

/-- Settles O12: such an offset reaches a read-only target, and the phase is not asked. -/
theorem readOnlyWritesAreRefused : Obligations.ReadOnlyWritesAreRefused := by
  intro s off v es hrst ha hoff hev
  obtain ⟨x, hx, hro⟩ := target_of_readOnlyAt ha hoff
  rw [step_write hrst ha hx hev, writeTarget_readOnly _ _ _ hro]
  rfl

/-- Settles O13: such an offset reaches a target that takes no write while BUSY. -/
theorem writesWhileBusyAreDropped : Obligations.WritesWhileBusyAreDropped := by
  intro s op off v es hrst hbusy ha hoff hev
  obtain ⟨x, hx, hc⟩ := target_of_droppedWhileBusyAt ha hoff
  have hphase : ({ s with events := es } : State).phase.isBusy = true := by simp [hbusy, Phase.isBusy]
  rw [step_write hrst ha hx hev, writeTarget_busy _ _ hphase hc]
  rfl

/-! ### Registers -/

/-- While IDLE a write to an RW register is performed (R156). -/
theorem step_write_reg (r : Reg) {s : State} {off v : Word} {es : List Event} (hrw : r.accessCode = .rw)
    (hrst : s.rst = false) (hidle : s.phase = .idle) (hev : s.events = .access (.write .w32 off v) :: es)
    (hoff : off = BitVec.ofNat 32 r.offset) : step s = .next (writeReg r v { s with events := es }) := by
  have hlt : r.offset < 2 ^ 32 := by
    have := r.written_offset (.inl hrw)
    omega
  have htoNat : off.toNat = r.offset := by rw [hoff, BitVec.toNat_ofNat, Nat.mod_eq_of_lt hlt]
  exact step_write_idle (x := .reg r) hrst hidle (htoNat ▸ r.offset_mod_four) (htoNat ▸ targetAt_reg s.params r) hrw hev

/-- Settles O14: the six RW registers, at their offsets. -/
theorem operandWritesWhileIdleAreStored : Obligations.OperandWritesWhileIdleAreStored := by
  intro s off v es hrst hidle hev
  exact ⟨step_write_reg .ctrl rfl hrst hidle hev, step_write_reg .wordCount rfl hrst hidle hev,
    step_write_reg .sampleRateLo rfl hrst hidle hev, step_write_reg .sampleRateHi rfl hrst hidle hev,
    step_write_reg .markHint rfl hrst hidle hev, step_write_reg .sampleIndex rfl hrst hidle hev⟩

/-- The registers that `registerMap` lists: all but the constants, CTRL and STATUS. -/
def listedRegs : List Reg :=
  allRegs.filter fun r => r ∉ [Reg.id, .paramBufWords, .paramRunCap, .paramMaxLevels, .ctrl, .status]

/-- The spec's table of section 2 agrees with the offset and the reading of each register. -/
theorem registerMap_eq (s : State) :
    registerMap s = listedRegs.map fun r => (BitVec.ofNat 32 r.offset, readReg s r) := by
  -- The rows agree as written but for the three whose values are coded fields.
  simp [registerMap, listedRegs, allRegs, readReg, Reg.offset]
  refine ⟨?_, ?_, ?_⟩
  · cases s.probe.active <;> rfl
  · cases s.sampleBit <;> rfl
  · cases s.derive.signalType <;> rfl

/-- Settles O18: every row of the table is a register, and it reads the row's value. -/
theorem readsReturnTheRegisterMap : Obligations.ReadsReturnTheRegisterMap := by
  intro s off d es hrst hev hmem
  rw [registerMap_eq, List.mem_map] at hmem
  obtain ⟨r, -, hrow⟩ := hmem
  obtain ⟨rfl, rfl⟩ := Prod.mk.inj hrow
  have hlt : r.offset < 2 ^ 32 := by
    have hall : ∀ q ∈ allRegs, q.offset < 2 ^ 32 := by decide
    exact hall r r.mem_allRegs
  exact step_read_reg r hrst (by rw [BitVec.toNat_ofNat, Nat.mod_eq_of_lt hlt]) hev

/-! ### Sample words -/

/-- The offset of a sample word fits the bus, is aligned and reaches the word (R146). -/
theorem sampleOffset_reaches {p : Config.Params} {i : Nat} (hi : i < p.bufWords) :
    (BitVec.ofNat 32 (0x10000 + 4 * i)).toNat % 4 = 0 ∧
      targetAt p (BitVec.ofNat 32 (0x10000 + 4 * i)).toNat = some (.sampleWord i) := by
  have hp := bufWords_lt p
  have hoff : (BitVec.ofNat 32 (0x10000 + 4 * i)).toNat = 0x10000 + 4 * i := by
    rw [BitVec.toNat_ofNat, Nat.mod_eq_of_lt (by omega)]
  rw [hoff]
  exact ⟨by omega, targetAt_sample p i hi⟩

/-- While IDLE a write to a sample word stores it (R156, R158). -/
theorem step_write_sample {s : State} {i : Nat} {v : Word} {es : List Event} (hrst : s.rst = false)
    (hidle : s.phase = .idle) (hi : i < s.params.bufWords)
    (hev : s.events = .access (.write .w32 (BitVec.ofNat 32 (0x10000 + 4 * i)) v) :: es) :
    step s = .next { s with events := es, mem := storeWord s.mem i v } := by
  obtain ⟨ha, hx⟩ := sampleOffset_reaches hi
  exact step_write_idle hrst hidle ha hx rfl hev

/-- A read of a sample word returns it as the engine sees it, and uses up one draw (R154, log 5). -/
theorem step_read_sample {s : State} {i : Nat} {es : List Event} (hrst : s.rst = false) (hi : i < s.params.bufWords)
    (hev : s.events = .access (.read .w32 (BitVec.ofNat 32 (0x10000 + 4 * i))) :: es) :
    step s = .next { s with events := es, readData := sampleWord s i, draws := s.draws + 1 } := by
  obtain ⟨ha, hx⟩ := sampleOffset_reaches hi
  exact step_read hrst ha hx hev

theorem sampleWord_written {s : State} {i : Nat} {v : Word} (h : loadWord s.mem i = some v) : sampleWord s i = v := by
  rw [sampleWord, h, Option.getD_some]

theorem sampleWord_unwritten {s : State} {i : Nat} (h : loadWord s.mem i = none) :
    sampleWord s i = Config.unspecifiedWord s.draws i := by
  rw [sampleWord, h, Option.getD_none]

/-- Settles O15: the write is `storeWord`, by its read-after-write and frame laws. -/
theorem sampleWritesWhileIdleAreStored : Obligations.SampleWritesWhileIdleAreStored := by
  intro s i v es hrst hidle hi hwf hev
  exact ⟨storeWord s.mem i v, step_write_sample hrst hidle hi hev, storeWord_wf s.mem i v hwf,
    loadWord_storeWord_same s.mem i v hwf, fun j hj => loadWord_storeWord_ne s.mem i j v hwf hj,
    fun a ha => memGet_storeWord_outside s.mem i v a hwf ha⟩

/-- Settles O21: a written word, and an unwritten one. -/
theorem sampleReadsReturnTheStoredWord : Obligations.SampleReadsReturnTheStoredWord := by
  intro s i es hrst hi hev
  constructor
  · intro v hv
    rw [step_read_sample hrst hi hev, sampleWord_written hv]
  · intro hnone
    rw [step_read_sample hrst hi hev, sampleWord_unwritten hnone]

end Sys2Proof.Machine
end

section
/-! PROOFS, 20_memory.md: how samples are packed in words (SamplesArePackedLeastSignificantFirst), and a LOAD
(LoadStoresTheWords). -/

namespace Sys2Proof.Machine

/-! ### Samples -/

/-- Sample `i` of a list of words is a bit of word `i div 32` (R140, R141). -/
theorem sampleAt_samplesOf {ws : List Word} {i : Nat} (hi : i < 32 * ws.length) :
    sampleAt (samplesOf ws) i = (ws.getD (i / 32) 0).getLsbD (i % 32) := by
  induction ws generalizing i with
  | nil => simp at hi
  | cons w ws ih =>
    rw [sampleAt, samplesOf_cons]
    by_cases hfirst : i < 32
    · rw [List.getD_append _ _ _ _ (by simpa using hfirst), Nat.div_eq_of_lt hfirst, Nat.mod_eq_of_lt hfirst]
      simp [wordSamples, List.getElem?_range hfirst]
    · have hrest : i - 32 < 32 * ws.length := by
        rw [List.length_cons] at hi
        omega
      rw [List.getD_append_right _ _ _ _ (by simpa using hfirst), wordSamples_length, ← sampleAt, ih hrest,
        show i / 32 = (i - 32) / 32 + 1 by omega, show (i - 32) % 32 = i % 32 by omega, List.getD_cons_succ]

/-- Settles O28: the analyzed samples are those of words 0 to `n - 1`. -/
theorem samplesArePackedLeastSignificantFirst : Obligations.SamplesArePackedLeastSignificantFirst := by
  intro s op
  refine ⟨by simp [analyzedSamples], fun i hi => ?_⟩
  rw [analyzedSamples, sampleAt_samplesOf (by simpa using hi), sampleWords_getD, if_pos (by omega)]

/-! ### LOAD -/

/-- The buffer after the words of a list are stored from word `i` up. -/
def storeWords (m : Memory) (i : Nat) : List Word → Memory
  | [] => m
  | v :: vs => storeWords (storeWord m i v) (i + 1) vs

theorem storeWords_wf {m : Memory} (h : m.wf) (i : Nat) (vs : List Word) : (storeWords m i vs).wf := by
  induction vs generalizing m i with
  | nil => exact h
  | cons v vs ih => exact ih (storeWord_wf m i v h) (i + 1)

/-- Words below and above the stored ones are as before. -/
theorem loadWord_storeWords_outside {m : Memory} (h : m.wf) {i : Nat} {vs : List Word} {j : Nat}
    (hj : j < i ∨ i + vs.length ≤ j) : loadWord (storeWords m i vs) j = loadWord m j := by
  induction vs generalizing m i with
  | nil => rfl
  | cons v vs ih =>
    rw [List.length_cons] at hj
    rw [storeWords, ih (storeWord_wf m i v h) (by omega), loadWord_storeWord_ne m i j v h (by omega)]

/-- Word `i + j` is the `j`-th of the stored ones. -/
theorem loadWord_storeWords_inside {m : Memory} (h : m.wf) {i : Nat} {vs : List Word} {j : Nat}
    (hj : j < vs.length) : loadWord (storeWords m i vs) (i + j) = vs[j]? := by
  induction vs generalizing m i j with
  | nil => simp at hj
  | cons v vs ih =>
    have hwf := storeWord_wf m i v h
    cases j with
    | zero => rw [storeWords, loadWord_storeWords_outside hwf (by omega), Nat.add_zero, loadWord_storeWord_same m i v h,
        List.getElem?_cons_zero]
    | succ j => rw [storeWords, show i + (j + 1) = i + 1 + j by omega, ih hwf (by simpa using hj),
        List.getElem?_cons_succ]

/-- A turn with an event goes through when its step does. -/
theorem programTurn_of_step {t : Turn} {r : HostRun} {e : Event} {s : State} (he : turnEvent t r.todo = some e)
    (hstep : step { r.core with events := e :: r.core.events } = .next s) :
    programTurn t r = .next (afterTurn t r s) := by
  simp only [programTurn, he, hstep]

/-- A host turn on a write to a sample word ends the line and stores the word, whatever events come after. -/
theorem programTurn_write_sample {s : State} {i : Nat} {v : Word} {ops : List HostOp} (bus : List Transfer)
    (hrst : s.rst = false) (hidle : s.phase = .idle) (hi : i < s.params.bufWords) :
    programTurn .host { todo := .wr (BitVec.ofNat 32 (0x10000 + 4 * i)) v :: ops, core := s, bus := bus } =
      .next
        { todo := ops, core := { s with mem := storeWord s.mem i v }
          bus := bus ++ [{ write := true, offset := BitVec.ofNat 32 (0x10000 + 4 * i), data := v }] } := by
  have hstep := step_write_sample (v := v) (es := s.events)
    (s := { s with events := .access (.write .w32 (BitVec.ofNat 32 (0x10000 + 4 * i)) v) :: s.events })
    hrst hidle hi rfl
  exact programTurn_of_step (e := .access (.write .w32 (BitVec.ofNat 32 (0x10000 + 4 * i)) v)) rfl hstep

/-- The writes of a LOAD, a turn each: only the buffer of the core changes. -/
theorem runProgram_loadWrites {s : State} {i : Nat} {vs : List Word} (rest : List HostOp) (bus : List Transfer)
    (hrst : s.rst = false) (hidle : s.phase = .idle) (hfit : i + vs.length ≤ s.params.bufWords) :
    ∃ r : HostRun,
      runProgram (List.replicate vs.length .host) { todo := loadWrites i vs ++ rest, core := s, bus := bus } =
        .next r ∧ r.todo = rest ∧ r.core = { s with mem := storeWords s.mem i vs } := by
  induction vs generalizing s i bus with
  | nil => exact ⟨_, rfl, rfl, rfl⟩
  | cons v vs ih =>
    rw [List.length_cons] at hfit
    have hturn := programTurn_write_sample (v := v) (ops := loadWrites (i + 1) vs ++ rest) bus hrst hidle
      (i := i) (by omega)
    obtain ⟨r, hrun, htodo, hcore⟩ := ih (s := { s with mem := storeWord s.mem i v }) (i := i + 1) _ hrst hidle
      (show i + 1 + vs.length ≤ s.params.bufWords by omega)
    exact ⟨r, runProgram_cons_next.2 ⟨_, hturn, hrun⟩, htodo, hcore⟩

/-- Settles O60: the buffer after the turns is `storeWords`, by its laws. -/
theorem loadStoresTheWords : Obligations.LoadStoresTheWords := by
  intro s i vs rest bus hrst hidle hwf hfit
  obtain ⟨r, hrun, htodo, hcore⟩ := runProgram_loadWrites rest bus hrst hidle hfit
  exact ⟨r, storeWords s.mem i vs, hrun, htodo, hcore, storeWords_wf hwf i vs,
    fun j hj => loadWord_storeWords_inside hwf hj, fun j hj => loadWord_storeWords_outside hwf hj⟩

end Sys2Proof.Machine
end

section
/-! PROOFS, 20_memory.md: host accesses while a command is in flight (BusyAccessesLeaveTheCommandAlone), and any number of
them before the completion (LatencyDoesNotChangeResults). What such accesses leave behind is `withTraceOf`; the
completion reads none of it, so completing with the trace in place is completing without it and writing the trace
afterwards, DONE excepted. -/

namespace Sys2Proof.Machine

/-! ### One access while BUSY -/

/-- `s` with all of `v` that a host access may change while a command is in flight (R155, R165): DONE, WERR, AERR, the
value read and the draw counter. -/
def withTraceOf (v s : State) : State :=
  { s with
    readData := v.readData, draws := v.draws
    status := { s.status with done := v.status.done, werr := v.status.werr, aerr := v.status.aerr } }

/-- While BUSY a host access leaves no more than its trace. -/
theorem HostEffect.eq_withTraceOf {s t : State} {a : Access} (h : HostEffect s a t) (hbusy : s.phase ≠ .idle) :
    t = withTraceOf t s := by
  cases h with
  | refused => cases a <;> rfl
  | read off x => cases x <;> rfl
  | dropped => rfl
  | acknowledged => rfl
  | accepted _ hidle => exact absurd hidle hbusy
  | operand _ _ hidle => exact absurd hidle hbusy
  | stored _ hidle => exact absurd hidle hbusy

/-- An access is dropped or refused, not both: WERR or AERR does not rise (R157). -/
theorem HostEffect.werr_or_aerr_not_rises {s t : State} {a : Access} (h : HostEffect s a t) :
    (t.status.werr = true → s.status.werr = true) ∨ (t.status.aerr = true → s.status.aerr = true) := by
  cases h with
  | dropped => exact .inr id
  | operand off v _ hrw => exact .inl fun hw => writeReg_status_of_rw v s hrw ▸ hw
  | _ => exact .inl fun hw => by simp_all

/-- Settles O22: the trace of one access. -/
theorem busyAccessesLeaveTheCommandAlone : Obligations.BusyAccessesLeaveTheCommandAlone := by
  intro s op a es hrst hbusy hev
  have heffect := hostAccess_effect a { s with events := es }
  have hphase : ({ s with events := es } : State).phase ≠ .idle := by simp [hbusy]
  refine ⟨_, _, _, _, _, (step_access hrst hev).trans (congrArg _ (heffect.eq_withTraceOf hphase)), fun hdone => ?_, ?_⟩
  · by_contra h0
    exact Bool.false_ne_true ((heffect.done_stays_false (Bool.eq_false_of_not_eq_true h0)).symm.trans hdone)
  · rintro ⟨hw, hw0, ha, ha0⟩
    rcases heffect.werr_or_aerr_not_rises with h | h
    · exact Bool.false_ne_true (hw0.symm.trans (h hw))
    · exact Bool.false_ne_true (ha0.symm.trans (h ha))

/-! ### Any number of accesses -/

/-- The state after a list of host accesses. -/
def hostAccesses (accesses : List Access) (s : State) : State := accesses.foldl (fun u a => hostAccess a u) s

theorem hostAccesses_cons (a : Access) (accesses : List Access) (s : State) :
    hostAccesses (a :: accesses) s = hostAccesses accesses (hostAccess a s) := rfl

/-- A step on the access in front of a sequence does not look at the rest of it. -/
theorem step_first_access (a : Access) (es : List Event) {s : State} (hrst : s.rst = false) :
    step { s with events := .access a :: es } = .next { hostAccess a s with events := es } :=
  (step_access (s := { s with events := .access a :: es }) hrst rfl).trans (congrArg _ (hostAccess_events a s es))

/-- The accesses of a sequence are its first steps (R161). -/
theorem run_accesses (accesses : List Access) (k : Nat) (es : List Event) {s : State} (hrst : s.rst = false) :
    Host.Core.run core (accesses.length + k) { s with events := accesses.map Event.access ++ es } =
      Host.Core.run core k { hostAccesses accesses s with events := es } := by
  induction accesses generalizing s with
  | nil => rw [List.length_nil, Nat.zero_add]; rfl
  | cons a accesses ih =>
    obtain ⟨-, -, -, -, hkeep, -, -⟩ := hostAccess_frame a s
    rw [List.length_cons, Nat.add_right_comm, hostAccesses_cons, ← ih (hkeep.trans hrst)]
    exact run_succ (step_first_access a _ hrst)

theorem run_one (s : State) : Host.Core.run core 1 s = step s := by
  have hstep : core.step s = step s := rfl
  simp only [Host.Core.run, hstep]
  cases step s <;> rfl

/-- While BUSY a list of accesses leaves no more than its trace. -/
theorem hostAccesses_eq_withTraceOf (accesses : List Access) {s : State} (hbusy : s.phase ≠ .idle) :
    hostAccesses accesses s = withTraceOf (hostAccesses accesses s) s := by
  induction accesses generalizing s with
  | nil => rfl
  | cons a accesses ih =>
    have hfirst := (hostAccess_effect a s).eq_withTraceOf hbusy
    have hphase : (hostAccess a s).phase = s.phase := by rw [hfirst]; rfl
    rw [hostAccesses_cons]
    calc hostAccesses accesses (hostAccess a s)
        = withTraceOf (hostAccesses accesses (hostAccess a s)) (hostAccess a s) := ih (hphase ▸ hbusy)
      _ = withTraceOf (hostAccesses accesses (hostAccess a s)) (withTraceOf (hostAccess a s) s) := by rw [← hfirst]
      _ = withTraceOf (hostAccesses accesses (hostAccess a s)) s := rfl

/-- An aligned 32-bit read of an offset that holds state: a read that is performed (R154). -/
def performedRead (p : Config.Params) (a : Access) : Prop :=
  ∃ off : Word, a = .read .w32 off ∧ off.toNat % 4 = 0 ∧ ¬noStateAt p off.toNat

/-- A performed read leaves STATUS alone (R154). -/
theorem hostAccess_status_of_performedRead {a : Access} {s : State} (h : performedRead s.params a) :
    (hostAccess a s).status = s.status := by
  obtain ⟨off, rfl, ha, hstate⟩ := h
  obtain ⟨x, hx⟩ := Option.ne_none_iff_exists'.1 (mt (targetAt_eq_none_iff ha).1 hstate)
  rw [hostAccess_read ha hx, performRead_status]

theorem hostAccesses_status_of_performedRead {accesses : List Access} {s : State}
    (h : ∀ a ∈ accesses, performedRead s.params a) : (hostAccesses accesses s).status = s.status := by
  induction accesses generalizing s with
  | nil => rfl
  | cons a accesses ih =>
    obtain ⟨hfirst, hrest⟩ := List.forall_mem_cons.1 h
    obtain ⟨-, -, hparams, -⟩ := hostAccess_frame a s
    rw [hostAccesses_cons, ih (hparams ▸ hrest), hostAccess_status_of_performedRead hfirst]

/-! ### The completion after them -/

/-- The completion `u` as it is with the trace of `v` on the core: DONE is set anyway, one more draw is used up. -/
def completedWithTraceOf (v u : State) : State :=
  { u with
    readData := v.readData, draws := v.draws + 1
    status := { u.status with werr := v.status.werr, aerr := v.status.aerr } }

/-- A completion sets DONE and copies the rest of the trace, whatever group it commits and whatever its valid bit. -/
theorem complete_withTraceOf (i : Instr) (r : Except ErrCode Staged) (v s : State) :
    complete i r (withTraceOf v s) = completedWithTraceOf v (complete i r s) := by
  cases r with
  | error c => cases i <;> rfl
  | ok st => cases st <;> cases i <;> rfl

/-- A command's pseudocode depends on the operands, the parameters and words 0 to `n - 1` only (R183, R111). -/
theorem bodyOf_congr (i : Instr) {op : Latched} {s t : State} (hparams : t.params = s.params)
    (hwords : ∀ k, k < op.wordCount.toNat → sampleWord t k = sampleWord s k) : bodyOf i op t = bodyOf i op s := by
  have hall : sampleWords t op.wordCount.toNat = sampleWords s op.wordCount.toNat :=
    List.map_congr_left fun k hk => hwords k (List.mem_range.1 hk)
  cases i with
  | probe => simp only [bodyOf, probeBody, hparams, hall]
  | scan => simp only [bodyOf, scanBody, hparams, hall]
  | derive => rfl
  | reduce => simp only [bodyOf, reduceBody, hparams, hall]
  | sample =>
    simp only [bodyOf, sampleBody, hparams]
    by_cases hpast : totalSamples op.wordCount.toNat ≤ op.sampleIndex.toNat
    · rw [if_pos hpast, if_pos hpast]
    · have hk : op.sampleIndex.toNat / 32 < op.wordCount.toNat := by
        unfold totalSamples at hpast
        omega
      rw [hwords _ hk]
  | clear => rfl

/-- A written word does not depend on the draw. -/
theorem sampleWord_withTraceOf (v : State) {s : State} {k : Nat} (h : (loadWord s.mem k).isSome = true) :
    sampleWord (withTraceOf v s) k = sampleWord s k := by
  obtain ⟨w, hw⟩ := Option.isSome_iff_exists.1 h
  rw [sampleWord_written hw]
  exact sampleWord_written (s := withTraceOf v s) hw

/-- The trace does not change what the engine's turn does to the rest. -/
theorem engineTurn_withTraceOf (v : State) {s u : State} {op : Latched} (hbusy : s.phase = .busy op)
    (hwritten : ∀ k, k < op.wordCount.toNat → (loadWord s.mem k).isSome = true) (h : engineTurn s = .next u) :
    engineTurn (withTraceOf v s) = .next (completedWithTraceOf v u) := by
  have hbusy' : (withTraceOf v s).phase = .busy op := hbusy
  simp only [engineTurn, hbusy, runWord] at h
  simp only [engineTurn, hbusy', runWord]
  cases hd : decode op.word with
  | error e =>
    simp only [hd] at h
    cases h
    rfl
  | ok i =>
    simp only [hd, exec_busy i hbusy] at h
    cases h
    simp only [exec_busy i hbusy']
    have hbody : bodyOf i op (withTraceOf v s) = bodyOf i op s :=
      bodyOf_congr i rfl fun k hk => sampleWord_withTraceOf v (hwritten k hk)
    rw [hbody, complete_withTraceOf]

/-- Settles O59: the accesses leave a trace, which the completion carries over; reads that are performed leave none in
STATUS. -/
theorem latencyDoesNotChangeResults : Obligations.LatencyDoesNotChangeResults := by
  intro s t u op accesses hbusy hrst hwritten hrun himmediate
  have hphase : s.phase ≠ .idle := by simp [hbusy]
  have hu : engineTurn { s with events := [] } = .next u := himmediate
  have hcarry (v : State) := engineTurn_withTraceOf v (s := { s with events := [] }) hbusy hwritten hu
  have ht : t = completedWithTraceOf (hostAccesses accesses s) u := by
    rw [run_accesses accesses 1 [.engine] hrst, run_one, hostAccesses_eq_withTraceOf accesses hphase] at hrun
    exact Host.Outcome.next.inj (hrun.symm.trans (hcarry (hostAccesses accesses s)))
  have hself : u = completedWithTraceOf s u := Host.Outcome.next.inj (hu.symm.trans (hcarry s))
  refine ⟨by rw [ht]; rfl, fun hreads => ?_⟩
  have hstatus : (hostAccesses accesses s).status = s.status := hostAccesses_status_of_performedRead hreads
  have hwerr : (hostAccesses accesses s).status.werr = s.status.werr := congrArg Status.werr hstatus
  have haerr : (hostAccesses accesses s).status.aerr = s.status.aerr := congrArg Status.aerr hstatus
  rw [ht, hself]
  exact ⟨hwerr, haerr⟩

end Sys2Proof.Machine
end

section
/-! PROOFS, 30_encoding.md: the decoder against the encoder (DecodeSelectsExactlyTheSixWords,
SpecWordsDecodeAsWritten). A word that decodes is the command's own word, so the six words are the words of value 1
to 6, and all others are refused. -/

namespace Sys2Proof.Machine

/-- A command's word selects it (R181). -/
theorem decode_encode (i : Instr) : decode (encode i) = .ok i := by cases i <;> rfl

theorem decode_eq_ok_iff {w : Word} {i : Instr} : decode w = .ok i ↔ w = encode i :=
  ⟨eq_encode_of_decode, fun h => h ▸ decode_encode i⟩

/-- Decoding refuses exactly the words it reads no command from (R182). -/
theorem exists_decode_eq_error_iff {w : Word} : (∃ e, decode w = .error e) ↔ ∀ i, decode w ≠ .ok i := by
  cases hd : decode w with
  | ok i => simp
  | error e => simp

theorem encode_toNat_bounds (i : Instr) : 1 ≤ (encode i).toNat ∧ (encode i).toNat ≤ 6 := by cases i <;> decide

/-- The opcodes of R181 leave no gap between 1 and 6. -/
theorem exists_encode_toNat_eq {n : Nat} (hlo : 1 ≤ n) (hhi : n ≤ 6) : ∃ i, (encode i).toNat = n := by
  interval_cases n
  exacts [⟨.probe, rfl⟩, ⟨.scan, rfl⟩, ⟨.derive, rfl⟩, ⟨.reduce, rfl⟩, ⟨.sample, rfl⟩, ⟨.clear, rfl⟩]

theorem exists_decode_eq_ok_iff {w : Word} : (∃ i, decode w = .ok i) ↔ 1 ≤ w.toNat ∧ w.toNat ≤ 6 := by
  simp only [decode_eq_ok_iff]
  constructor
  · rintro ⟨i, rfl⟩
    exact encode_toNat_bounds i
  · rintro ⟨hlo, hhi⟩
    obtain ⟨i, hi⟩ := exists_encode_toNat_eq hlo hhi
    exact ⟨i, BitVec.eq_of_toNat_eq hi.symm⟩

/-- A word is refused exactly when its value is outside 1 to 6 (R182, R367). -/
theorem exists_decode_eq_error_iff_toNat {w : Word} :
    (∃ e, decode w = .error e) ↔ ¬(1 ≤ w.toNat ∧ w.toNat ≤ 6) := by
  rw [exists_decode_eq_error_iff, ← exists_decode_eq_ok_iff, not_exists]

/-- Settles O1: decoding inverts encoding, and the encodings are the values 1 to 6. -/
theorem decodeSelectsExactlyTheSixWords : Obligations.DecodeSelectsExactlyTheSixWords := by
  refine ⟨fun w i => decode_eq_ok_iff, fun w => ?_, fun w => exists_decode_eq_ok_iff.symm⟩
  simp only [exists_decode_eq_error_iff, ne_eq, decode_eq_ok_iff]

/-- Settles O2: the six words are the encodings, the four reserved ones have values outside 1 to 6. -/
theorem specWordsDecodeAsWritten : Obligations.SpecWordsDecodeAsWritten := by
  refine ⟨decode_encode .probe, decode_encode .scan, decode_encode .derive, decode_encode .reduce,
    decode_encode .sample, decode_encode .clear, ?_, ?_, ?_, ?_⟩
  all_goals exact exists_decode_eq_error_iff_toNat.2 (by decide)

end Sys2Proof.Machine
end

section
/-! PROOFS, 30_encoding.md: the pseudo-instruction RUN (RunEndsWithDoneSet). A host at `RUN op` is at one of four stages
(`RunAt`), and every turn, the host's or the engine's, takes it from its stage to the one that `RunStage.after`
says (`RunAt.turn`). The poll is over only at the last stage, and the one way there is the completion. -/

namespace Sys2Proof.Machine

/-! ### A poll -/

/-- A mask of bit 1 shows bit 1. -/
theorem and_two_eq_two_iff (v : Word) : v &&& 2 = 2 ↔ v.getLsbD 1 = true := by
  have htwo : (2 : Word) = BitVec.twoPow 32 1 := rfl
  rw [htwo, BitVec.and_twoPow]
  cases v.getLsbD 1 <;> decide

/-- Bit 1 of STATUS is DONE (R58). -/
theorem statusWord_and_two_eq_two_iff (busy : Bool) (st : Status) :
    statusWord busy st &&& 2 = 2 ↔ st.done = true := by
  obtain ⟨-, hdone, -⟩ := statusWord_flags busy st
  rw [and_two_eq_two_iff, hdone]

/-- A host turn at a poll makes one read, and ends the poll where the value read meets its condition (R188). -/
theorem runProgram_poll {r r' : HostRun} {off mask val : Word} {rest : List HostOp}
    (htodo : r.todo = .poll off mask val :: rest) (h : runProgram [.host] r = .next r') :
    r'.bus = r.bus ++ [{ write := false, offset := off, data := r'.core.readData }] ∧
      r'.todo = if r'.core.readData &&& mask = val then rest else .poll off mask val :: rest := by
  obtain ⟨m, hturn, rfl⟩ : ∃ m, programTurn .host r = .next m ∧ m = r' := by
    simpa [runProgram_cons_next] using h
  rcases programTurn_cases hturn with ⟨hnone, -⟩ | ⟨e, s, -, -, rfl⟩
  · simp [turnEvent, htodo] at hnone
  · rw [afterTurn_host s htodo]
    simp only [HostOp.over, HostOp.transfer, pollEnds_iff, and_self]

/-! ### The engine's turn -/

/-- What every completion leaves: the phase IDLE, DONE set, LAST_OP and the reset line as they were (R363). -/
theorem complete_concludes (i : Instr) (x : Except ErrCode Staged) (s : State) :
    (complete i x s).phase = .idle ∧ (complete i x s).status.done = true ∧
      (complete i x s).status.lastOp = s.status.lastOp ∧ (complete i x s).rst = s.rst := by
  cases x with
  | ok st =>
    rw [complete, completeSuccess_eq]
    exact ⟨rfl, rfl, validOnSuccess_lastOp i s.status, commitGroup_rst st s⟩
  | error c => exact ⟨rfl, rfl, validOnFailure_lastOp i s.status, rfl⟩

/-- A word in flight completes in the engine's turn, a reserved one too (R362, R363, R367). -/
theorem engineTurn_busy {s : State} (hbusy : s.phase ≠ .idle) :
    ∃ t, engineTurn s = .next t ∧ t.phase = .idle ∧ t.status.done = true ∧ t.status.lastOp = s.status.lastOp ∧
      t.rst = s.rst := by
  cases hphase : s.phase with
  | idle => exact absurd hphase hbusy
  | busy op =>
    simp only [engineTurn, hphase, runWord]
    cases decode op.word with
    | ok i => exact ⟨_, exec_busy i hphase, complete_concludes i _ s⟩
    | error e => exact ⟨_, rfl, rfl, rfl, rfl, rfl⟩

/-- The engine's turn of a program is the core's. -/
theorem programTurn_engine {r : HostRun} {t : State} (h : engineTurn r.core = .next t) :
    programTurn .engine r = .next { r with core := t } :=
  programTurn_of_step (e := .engine) rfl h

theorem programTurn_engine_idle {r : HostRun} (hidle : r.core.phase = .idle) :
    programTurn .engine r = .next r :=
  programTurn_engine (engineTurn_idle hidle)

/-! ### The host's turns -/

/-- A host whose program has ended makes no access. -/
theorem programTurn_host_nil {r : HostRun} (htodo : r.todo = []) : programTurn .host r = .next r := by
  simp only [programTurn, htodo, turnEvent]

/-- A write to CMD while IDLE is accepted (R360). -/
theorem step_write_cmd {s : State} {w : Word} {es : List Event} (hrst : s.rst = false) (hidle : s.phase = .idle)
    (hev : s.events = .access (.write .w32 0x014 w) :: es) :
    step s = .next (accept w { s with events := es }) := by
  rw [step_write (off := 0x014) (x := .reg .cmd) hrst rfl (targetAt_reg s.params .cmd) hev]
  simp [writeTarget, Target.accessCode, Reg.accessCode, hidle, Phase.isBusy, performWrite, writeReg]

/-- A host turn on a write to CMD while IDLE is the acceptance of the word (R360). -/
theorem programTurn_write_cmd {r : HostRun} {w : Word} {ops : List HostOp} (htodo : r.todo = .wr 0x014 w :: ops)
    (hrst : r.core.rst = false) (hidle : r.core.phase = .idle) :
    programTurn .host r =
      .next
        { todo := ops, core := accept w r.core
          bus := r.bus ++ [{ write := true, offset := 0x014, data := w }] } := by
  have hstep := step_write_cmd (w := w) (es := r.core.events)
    (s := { r.core with events := .access (.write .w32 0x014 w) :: r.core.events }) hrst hidle rfl
  rw [programTurn_of_step (e := .access (.write .w32 0x014 w)) (by rw [htodo]; rfl) hstep, afterTurn_host _ htodo]
  rfl

/-- The poll of RUN (R190). -/
def donePoll : HostOp := .poll 0x018 0x00000002 0x00000002

/-- A host turn at the poll of RUN reads STATUS, and the poll is over exactly when DONE is set. -/
theorem programTurn_donePoll {r : HostRun} {rest : List HostOp} (htodo : r.todo = donePoll :: rest)
    (hrst : r.core.rst = false) :
    programTurn .host r =
      .next
        { todo := if r.core.status.done = true then rest else donePoll :: rest
          core := { r.core with readData := readReg r.core .status }
          bus := r.bus ++ [{ write := false, offset := 0x018, data := readReg r.core .status }] } := by
  have hstep := step_read_reg .status (es := r.core.events) (off := 0x018)
    (s := { r.core with events := .access (.read .w32 0x018) :: r.core.events }) hrst rfl rfl
  rw [programTurn_of_step (e := .access (.read .w32 0x018)) (by rw [htodo]; rfl) hstep, afterTurn_host _ htodo]
  simp only [donePoll, HostOp.over, HostOp.transfer, pollEnds_iff, readReg, statusWord_and_two_eq_two_iff]

/-! ### The stages of RUN -/

/-- The command that word `w` stands for has completed (R60, R65, R363). -/
structure HasCompleted (w : Word) (s : State) : Prop where
  idle : s.phase = .idle
  done : s.status.done = true
  lastOp : s.status.lastOp = w.extractLsb' 0 4

/-- How far a host is with `RUN op`. -/
inductive RunStage where
  | unwritten
  | inFlight
  | completed
  | ended

/-- A host at a stage of `RUN w`, with the lines `rest` after it. -/
inductive RunAt (w : Word) (rest : List HostOp) (r : HostRun) : RunStage → Prop
  | unwritten (htodo : r.todo = .wr 0x014 w :: donePoll :: rest) (hrst : r.core.rst = false)
      (hidle : r.core.phase = .idle) : RunAt w rest r .unwritten
  | inFlight (htodo : r.todo = donePoll :: rest) (hrst : r.core.rst = false)
      (hbusy : r.core.phase ≠ .idle) (hdone : r.core.status.done = false)
      (hop : r.core.status.lastOp = w.extractLsb' 0 4) : RunAt w rest r .inFlight
  | completed (htodo : r.todo = donePoll :: rest) (hrst : r.core.rst = false)
      (hcompleted : HasCompleted w r.core) : RunAt w rest r .completed
  | ended (htodo : r.todo = rest) (hcompleted : HasCompleted w r.core)
      (hread : r.core.readData &&& 2 = 2) : RunAt w rest r .ended

/-- A RUN begins with its write to CMD (R190). -/
theorem runAt_unwritten {w : Word} {s : State} (rest : List HostOp) (bus : List Transfer) (hrst : s.rst = false)
    (hidle : s.phase = .idle) :
    RunAt w rest { todo := (Pseudo.run w).expand ++ rest, core := s, bus := bus } .unwritten :=
  .unwritten rfl hrst hidle

/-- The stage after a turn: the host writes the command word and later reads DONE, the engine completes the command. -/
def RunStage.after (t : Turn) (stage : RunStage) : RunStage :=
  match t, stage with
  | .host, .unwritten => .inFlight
  | .engine, .inFlight => .completed
  | .host, .completed => .ended
  | _, stage => stage

/-- A turn before RUN is over takes it to its next stage; each turn of the host is one access. -/
theorem RunAt.turn {w : Word} {rest : List HostOp} {stage : RunStage} {r : HostRun} (h : RunAt w rest r stage)
    (hstage : stage ≠ .ended) (t : Turn) :
    ∃ r', programTurn t r = .next r' ∧ RunAt w rest r' (stage.after t) ∧
      r'.bus.length = r.bus.length + if t = .host then 1 else 0 := by
  cases h with
  | unwritten htodo hrst hidle =>
    cases t with
    | host => exact ⟨_, programTurn_write_cmd htodo hrst hidle, .inFlight rfl hrst nofun rfl rfl, by simp⟩
    | engine => exact ⟨r, programTurn_engine_idle hidle, .unwritten htodo hrst hidle, rfl⟩
  | inFlight htodo hrst hbusy hdone hop =>
    cases t with
    | host =>
      exact ⟨_, programTurn_donePoll htodo hrst, .inFlight (by simp [hdone]) hrst hbusy hdone hop, by simp⟩
    | engine =>
      obtain ⟨s, hs, hidle, hset, hlast, hkeep⟩ := engineTurn_busy hbusy
      exact ⟨_, programTurn_engine hs, .completed htodo (hkeep.trans hrst) ⟨hidle, hset, hlast.trans hop⟩, rfl⟩
  | completed htodo hrst hcompleted =>
    cases t with
    | host =>
      have hread := (statusWord_and_two_eq_two_iff r.core.phase.isBusy r.core.status).2 hcompleted.done
      exact ⟨_, programTurn_donePoll htodo hrst,
        .ended (if_pos hcompleted.done) ⟨hcompleted.idle, hcompleted.done, hcompleted.lastOp⟩ hread, by simp⟩
    | engine => exact ⟨r, programTurn_engine_idle hcompleted.idle, .completed htodo hrst hcompleted, rfl⟩
  | ended => exact absurd rfl hstage

/-- Where RUN was the last line no turn changes anything more. -/
theorem RunAt.turn_ended {w : Word} {r : HostRun} (h : RunAt w [] r .ended) (t : Turn) : programTurn t r = .next r := by
  cases h with
  | ended htodo hcompleted =>
    cases t with
    | host => exact programTurn_host_nil htodo
    | engine => exact programTurn_engine_idle hcompleted.idle

/-- The reads before the completion leave RUN where it is. -/
theorem RunAt.waits {w : Word} {rest : List HostOp} {r : HostRun} (h : RunAt w rest r .inFlight) (n : Nat) :
    ∃ r', runProgram (List.replicate n .host) r = .next r' ∧ RunAt w rest r' .inFlight ∧
      r'.bus.length = r.bus.length + n := by
  induction n generalizing r with
  | zero => exact ⟨r, rfl, h, rfl⟩
  | succ n ih =>
    obtain ⟨r₁, hturn, h₁, hbus₁⟩ := h.turn nofun .host
    obtain ⟨r', hrun, h', hbus⟩ := ih h₁
    exact ⟨r', runProgram_cons_next.2 ⟨r₁, hturn, hrun⟩, h', by rw [hbus, hbus₁, if_pos rfl]; omega⟩

/-- Whatever the order of turns, a run of a program that is a RUN stays at a stage of it. -/
theorem RunAt.of_run {w : Word} {stage : RunStage} {turns : List Turn} {r r' : HostRun}
    (h : RunAt w [] r stage) (hrun : runProgram turns r = .next r') : ∃ stage', RunAt w [] r' stage' := by
  induction turns generalizing stage r with
  | nil =>
    cases hrun
    exact ⟨stage, h⟩
  | cons t turns ih =>
    obtain ⟨m, hturn, hrest⟩ := runProgram_cons_next.1 hrun
    by_cases hended : stage = .ended
    · subst hended
      rw [h.turn_ended t] at hturn
      cases hturn
      exact ih h hrest
    · obtain ⟨m', hturn', hm', -⟩ := h.turn hended t
      rw [hturn'] at hturn
      cases hturn
      exact ih hm' hrest

/-- Only the last stage has no line left. -/
theorem RunAt.completed_of_todo_nil {w : Word} {stage : RunStage} {r : HostRun} (h : RunAt w [] r stage)
    (htodo : r.todo = []) : HasCompleted w r.core := by
  cases h with
  | unwritten hline => cases hline.symm.trans htodo
  | inFlight hline => cases hline.symm.trans htodo
  | completed hline => cases hline.symm.trans htodo
  | ended _ hcompleted => exact hcompleted

/-- RUN through its stages with `waits` reads before the completion: the write, the reads, and the read of DONE. -/
theorem RunAt.whole {w : Word} {rest : List HostOp} {r : HostRun} (h : RunAt w rest r .unwritten) (waits : Nat) :
    ∃ r', runProgram (.host :: List.replicate waits .host ++ [.engine, .host]) r = .next r' ∧
      RunAt w rest r' .ended ∧ r'.bus.length = r.bus.length + waits + 2 := by
  obtain ⟨r₁, hwrite, h₁, hbus₁⟩ := h.turn nofun .host
  obtain ⟨r₂, hwaits, h₂, hbus₂⟩ := h₁.waits waits
  obtain ⟨r₃, hengine, h₃, hbus₃⟩ := h₂.turn nofun .engine
  obtain ⟨r₄, hread, h₄, hbus₄⟩ := h₃.turn nofun .host
  refine ⟨r₄, ?_, h₄, ?_⟩
  · exact runProgram_append_next.2 ⟨r₂, runProgram_cons_next.2 ⟨r₁, hwrite, hwaits⟩,
      runProgram_cons_next.2 ⟨r₃, hengine, runProgram_cons_next.2 ⟨r₄, hread, rfl⟩⟩⟩
  · simp only [hbus₄, hbus₃, hbus₂, hbus₁, reduceCtorEq, if_true, if_false]
    omega

/-- Settles O58: the stages in the order of the turns given, the stages under any order, and one turn of a poll. -/
theorem runEndsWithDoneSet : Obligations.RunEndsWithDoneSet := by
  refine ⟨fun s w waits rest bus hrst hidle => ?_, fun s w turns r hrst hidle hrun htodo => ?_,
    fun s off mask val rest bus r hrun => runProgram_poll rfl hrun⟩
  · obtain ⟨r, hrun, hended, hbus⟩ := (runAt_unwritten rest bus hrst hidle).whole waits
    cases hended with
    | ended htodo hcompleted hread =>
      exact ⟨r, hrun, htodo, hcompleted.idle, hcompleted.done, hcompleted.lastOp, hread, hbus⟩
  · obtain ⟨stage, hstage⟩ := (runAt_unwritten [] [] hrst hidle).of_run hrun
    have hcompleted := hstage.completed_of_todo_nil htodo
    exact ⟨hcompleted.idle, hcompleted.done, hcompleted.lastOp⟩

end Sys2Proof.Machine
end

section
/-! PROOFS, 40_bitstream_scanner.md: SAMPLE (SampleReadsTheAddressedSample), PROBE (ProbeFindsTheFirstTransition), SCAN
(ScanCommitsTheCountsOfTheSamples, SuccessfulScanIsLawful), and PROBE against SCAN (ProbeAgreesWithScan). SCAN folds the
samples from the left and the run build from the right; they meet in `ScanAcc.Counts`, which says what a pass from any
accumulators adds to them, the open run counted as a sample put before the remaining ones. -/

namespace Sys2Proof.Machine

/-! ### The completion of a scanning command -/

section Completion

variable {i : Instr} {s t : State} {op : Latched}

theorem exec_of_body_ok {st : Staged} (hbusy : s.phase = .busy op) (hbody : bodyOf i op s = .ok st) :
    exec i s = .next (succeeded (validOnSuccess i) (commitGroup st) s) := by
  rw [exec_busy i hbusy, hbody, complete, completeSuccess_eq]

theorem exec_of_body_error {c : ErrCode} (hbusy : s.phase = .busy op) (hbody : bodyOf i op s = .error c) :
    exec i s = .next (failed (validOnFailure i) c s) := by
  rw [exec_busy i hbusy, hbody, complete, completeError_eq i c s (bodyOf_error_ne_ok hbody)]

variable {k : Except ErrCode Staged}

theorem bodyOf_eq_of_legal (hbody : bodyOf i op s = wordCountChecked s.params op k) (hlegal : wordCountLegal op s) :
    bodyOf i op s = k := by
  rw [hbody, wordCountChecked_legal _ _ _ hlegal.1 hlegal.2]

/-- A scanning command with word count 0 fails with EMPTY_BUFFER (R402). -/
theorem exec_of_no_words (hbusy : s.phase = .busy op) (hbody : bodyOf i op s = wordCountChecked s.params op k)
    (hzero : op.wordCount = 0) : exec i s = .next (failed (validOnFailure i) .emptyBuffer s) :=
  exec_of_body_error hbusy (by rw [hbody, wordCountChecked_empty _ _ _ hzero])

/-- A scanning command with more words than the buffer holds fails with WORD_COUNT_RANGE (R402). -/
theorem exec_of_too_many_words (hbusy : s.phase = .busy op)
    (hbody : bodyOf i op s = wordCountChecked s.params op k) (hrange : s.params.bufWords < op.wordCount.toNat) :
    exec i s = .next (failed (validOnFailure i) .wordCountRange s) :=
  exec_of_body_error hbusy (by rw [hbody, wordCountChecked_range _ _ _ hrange])

/-- A scanning command that completes without error has passed the checks of R402. -/
theorem legal_of_no_error (hbusy : s.phase = .busy op) (hbody : bodyOf i op s = wordCountChecked s.params op k)
    (hexec : exec i s = .next t) (herr : t.status.err = false) : wordCountLegal op s := by
  rcases exec_busy_cases i hbusy hexec with ⟨st, hok, -⟩ | ⟨c, -, -, rfl⟩
  · exact (wordCountChecked_ok (hbody.symm.trans hok)).2
  · cases herr

end Completion

@[simp] theorem analyzedSamples_length (op : Latched) (s : State) :
    (analyzedSamples op s).length = 32 * op.wordCount.toNat := by
  simp [analyzedSamples]

/-! ### SAMPLE -/

theorem sampleBody_of_legal {s : State} {op : Latched} (hlegal : wordCountLegal op s) :
    bodyOf .sample op s =
      if 32 * op.wordCount.toNat ≤ op.sampleIndex.toNat then .error .bufferTooSmall
      else .ok (.sample ((sampleWord s (op.sampleIndex.toNat / 32)).getLsbD (op.sampleIndex.toNat % 32))) :=
  bodyOf_eq_of_legal rfl hlegal

/-- Settles O27: the checks in their order, then the bit at the index. -/
theorem sampleReadsTheAddressedSample : Obligations.SampleReadsTheAddressedSample := by
  intro s op hbusy
  refine ⟨fun hlegal hindex => ?_, exec_of_no_words hbusy rfl, exec_of_too_many_words hbusy rfl,
    fun hlegal hindex => ?_⟩
  · exact exec_of_body_ok hbusy ((sampleBody_of_legal hlegal).trans (if_neg (Nat.not_le.2 hindex)))
  · exact exec_of_body_error hbusy ((sampleBody_of_legal hlegal).trans (if_pos hindex))

/-! ### PROBE -/

theorem sampleAt_of_lt {bits : List Bool} {j : Nat} (hj : j < bits.length) : sampleAt bits j = bits[j] :=
  List.getD_eq_getElem _ _ hj

theorem sampleAt_zero (bits : List Bool) : sampleAt bits 0 = bits.headD false := by cases bits <;> rfl

theorem firstTransition_eq_some_iff {bits : List Bool} {k : Nat} :
    firstTransition bits = some k ↔
      k < bits.length ∧ sampleAt bits k ≠ sampleAt bits 0 ∧ ∀ j, j < k → sampleAt bits j = sampleAt bits 0 := by
  rw [firstTransition, List.findIdx?_eq_some_iff_getElem, sampleAt_zero, ← exists_prop]
  refine exists_congr fun hk => and_congr ?_ (forall₂_congr fun j hj => ?_)
  · simp [sampleAt_of_lt hk]
  · simp [sampleAt_of_lt (hj.trans hk)]

theorem firstTransition_eq_none_iff {bits : List Bool} :
    firstTransition bits = none ↔ ∀ j, j < bits.length → sampleAt bits j = sampleAt bits 0 := by
  rw [firstTransition, List.findIdx?_eq_none_iff, List.forall_mem_iff_getElem, sampleAt_zero]
  refine forall₂_congr fun j hj => ?_
  simp [sampleAt_of_lt hj]

theorem probeSamples_of_some {bits : List Bool} {k : Nat} (h : firstTransition bits = some k) :
    probeSamples bits = { active := true, index := toReg k } := by
  rw [probeSamples, h]

theorem probeSamples_of_none {bits : List Bool} (h : firstTransition bits = none) :
    probeSamples bits = { active := false, index := 0 } := by
  rw [probeSamples, h]

theorem probeBody_of_legal {s : State} {op : Latched} (hlegal : wordCountLegal op s) :
    bodyOf .probe op s = .ok (.probe (probeSamples (analyzedSamples op s))) :=
  bodyOf_eq_of_legal rfl hlegal

theorem probe_of_exec {s t : State} {op : Latched} (hbusy : s.phase = .busy op) (hlegal : wordCountLegal op s)
    (hexec : exec .probe s = .next t) : t.probe = probeSamples (analyzedSamples op s) := by
  obtain rfl := Host.Outcome.next.inj ((exec_of_body_ok hbusy (probeBody_of_legal hlegal)).symm.trans hexec)
  rfl

/-- Settles O29: by what `firstTransition` finds. -/
theorem probeFindsTheFirstTransition : Obligations.ProbeFindsTheFirstTransition := by
  intro s op hbusy
  refine ⟨fun k hlegal hk hdiff hsame => ⟨toReg k, ?_, ?_⟩, fun hlegal hsame => ?_,
    exec_of_no_words hbusy rfl, exec_of_too_many_words hbusy rfl⟩
  · exact toReg_toNat (hk.trans (legal_bounds hlegal).2)
  · have hfirst : firstTransition (analyzedSamples op s) = some k :=
      firstTransition_eq_some_iff.2 ⟨by rwa [analyzedSamples_length], hdiff, hsame⟩
    have hbody := probeBody_of_legal hlegal
    rw [probeSamples_of_some hfirst] at hbody
    exact exec_of_body_ok hbusy hbody
  · have hnone : firstTransition (analyzedSamples op s) = none :=
      firstTransition_eq_none_iff.2 (by rwa [analyzedSamples_length])
    have hbody := probeBody_of_legal hlegal
    rw [probeSamples_of_none hnone] at hbody
    exact exec_of_body_ok hbusy hbody

/-! ### The maximal runs, sample by sample -/

theorem buildRuns_head (b : Bool) (bits : List Bool) : ∃ k rest, buildRuns (b :: bits) = ⟨b, k⟩ :: rest := by
  rw [buildRuns_cons]
  rcases consSample_cases b (buildRuns bits) with ⟨r, rest, -, rfl, e⟩ | ⟨-, e⟩
  · exact ⟨_, _, e⟩
  · exact ⟨_, _, e⟩

/-- The number of maximal runs at a level (R76). -/
def pulsesIn (level : Bool) (bits : List Bool) : Nat := (lengthsAt level (buildRuns bits)).length

theorem pulsesIn_singleton (level b : Bool) : pulsesIn level [b] = if b = level then 1 else 0 := by
  cases level <;> cases b <;> rfl

/-- The first sample starts a run of its own exactly when the next one differs from it. -/
theorem pulsesIn_cons_cons (level a b : Bool) (bits : List Bool) :
    pulsesIn level (a :: b :: bits) = (if a ≠ b ∧ a = level then 1 else 0) + pulsesIn level (b :: bits) := by
  obtain ⟨k, rest, hruns⟩ := buildRuns_head b bits
  rw [pulsesIn, pulsesIn, buildRuns_cons a, hruns]
  by_cases hab : b = a
  · simp [consSample, hab, lengthsAt_cons]
    split <;> rfl
  · rw [consSample, if_neg hab, lengthsAt_cons]
    by_cases hlevel : a = level
    · simp [hlevel, Ne.symm (hlevel ▸ hab), Nat.add_comm]
    · simp [hlevel]

theorem pulsesIn_le_length (level : Bool) (bits : List Bool) : pulsesIn level bits ≤ bits.length := by
  have hsplit := (lengthsAt_split (buildRuns bits)).2
  have hruns := (buildRuns_length bits).1
  cases level <;> unfold pulsesIn <;> omega

/-- The runs at a level are made of the samples at that level. -/
theorem lengthsAt_buildRuns_sum (level : Bool) (bits : List Bool) :
    (lengthsAt level (buildRuns bits)).sum = bits.count level := by
  induction bits with
  | nil => rfl
  | cons b bits ih =>
    rw [buildRuns_cons, List.count_cons, ← ih]
    rcases consSample_cases b (buildRuns bits) with ⟨r, rest, hruns, rfl, e⟩ | ⟨-, e⟩
    · rw [e, hruns, lengthsAt_cons, lengthsAt_cons]
      by_cases hlevel : r.level = level <;> simp [hlevel]
      omega
    · rw [e, lengthsAt_cons]
      by_cases hlevel : b = level <;> simp [hlevel]
      omega

/-- Runs alternate: the level of the first sample has one run more than the other where the last sample has that level
too, and as many where it has not (R222). -/
theorem pulsesIn_first (b : Bool) (bits : List Bool) :
    pulsesIn b (b :: bits) =
      pulsesIn (!b) (b :: bits) + if b = sampleAt (b :: bits) bits.length then 1 else 0 := by
  induction bits generalizing b with
  | nil => simp [pulsesIn_singleton, sampleAt]
  | cons c bits ih =>
    rw [pulsesIn_cons_cons, pulsesIn_cons_cons,
      show sampleAt (b :: c :: bits) (c :: bits).length = sampleAt (c :: bits) bits.length from rfl]
    obtain rfl | rfl : c = b ∨ c = !b := by cases b <;> cases c <;> simp
    · simpa using ih c
    · have hflip := ih (!b)
      rw [Bool.not_not] at hflip
      by_cases hlast : b = sampleAt ((!b) :: bits) bits.length
      · rw [if_neg (by simp [← hlast])] at hflip
        simp [← hlast, hflip, Nat.add_comm]
      · rw [if_pos (Bool.not_eq.2 hlast)] at hflip
        simp [hlast, hflip, Nat.add_comm]

/-- No transition means that every sample is the first one (R223). -/
theorem transitionCount_eq_zero_iff (b : Bool) (bits : List Bool) :
    transitionCount (b :: bits) = 0 ↔ ∀ x ∈ bits, x = b := by
  induction bits generalizing b with
  | nil => simp [transitionCount, isTransition]
  | cons c bits ih =>
    rw [transitionCount_cons, Nat.add_eq_zero_iff, ih c, List.forall_mem_cons]
    by_cases hbc : b = c
    · simp [hbc]
    · simp [hbc, Ne.symm hbc]

theorem transitionCount_le_length (bits : List Bool) : transitionCount bits ≤ bits.length := by
  simpa [transitionCount] using List.countP_le_length (p := isTransition bits) (l := List.range bits.length)

/-! ### The scanning pass counts the runs -/

/-- The closed runs' samples at a level: `pw0` or `pw1` of R220. -/
def ScanAcc.width (a : ScanAcc) (level : Bool) : Nat := if level then a.pw1 else a.pw0

/-- The closed runs at a level: `pc0` or `pc1` of R220. -/
def ScanAcc.pulses (a : ScanAcc) (level : Bool) : Nat := if level then a.pc1 else a.pc0

/-- The samples at a level, those of the open run included. -/
def ScanAcc.samplesAt (a : ScanAcc) (level : Bool) : Nat :=
  a.width level + if a.lastState = level then a.runLength else 0

theorem closeRun_width (a : ScanAcc) (level : Bool) : (closeRun a).width level = a.samplesAt level := by
  cases h : a.lastState <;> cases level <;> simp [closeRun, ScanAcc.width, ScanAcc.samplesAt, h]

theorem closeRun_pulses (a : ScanAcc) (level : Bool) :
    (closeRun a).pulses level = a.pulses level + if a.lastState = level then 1 else 0 := by
  cases h : a.lastState <;> cases level <;> simp [closeRun, ScanAcc.pulses, h]

theorem closeRun_high (a : ScanAcc) : (closeRun a).high = a.high := by unfold closeRun; split <;> rfl

theorem closeRun_trans (a : ScanAcc) : (closeRun a).trans = a.trans := by unfold closeRun; split <;> rfl

/-- A sample either has the level of the open run or not (R220). -/
theorem scanBit_cases (a : ScanAcc) (bit : Bool) :
    (bit = a.lastState ∧ scanBit a bit =
        { a with high := a.high + (if bit then 1 else 0), runLength := a.runLength + 1 }) ∨
      (bit ≠ a.lastState ∧ scanBit a bit =
        { closeRun a with
          high := a.high + (if bit then 1 else 0), trans := a.trans + 1, runLength := 1, lastState := bit }) := by
  by_cases h : bit = a.lastState
  · subst h
    exact .inl ⟨rfl, scanBit_same a⟩
  · obtain rfl : bit = !a.lastState := Bool.eq_not.2 h
    refine .inr ⟨h, (scanBit_other a).trans ?_⟩
    cases a.lastState <;> rfl

theorem scanBit_lastState (a : ScanAcc) (bit : Bool) : (scanBit a bit).lastState = bit := by
  rcases scanBit_cases a bit with ⟨rfl, e⟩ | ⟨-, e⟩ <;> rw [e]

theorem scanBit_high (a : ScanAcc) (bit : Bool) : (scanBit a bit).high = a.high + if bit then 1 else 0 := by
  rcases scanBit_cases a bit with ⟨-, e⟩ | ⟨-, e⟩ <;> rw [e]

theorem scanBit_trans (a : ScanAcc) (bit : Bool) :
    (scanBit a bit).trans = a.trans + if a.lastState ≠ bit then 1 else 0 := by
  rcases scanBit_cases a bit with ⟨rfl, e⟩ | ⟨hbit, e⟩ <;> rw [e]
  · simp
  · simp [Ne.symm hbit]

/-- Whether it closes a run or not, a sample adds itself to its own level. -/
theorem scanBit_samplesAt (a : ScanAcc) (bit level : Bool) :
    (scanBit a bit).samplesAt level = a.samplesAt level + if bit = level then 1 else 0 := by
  rcases scanBit_cases a bit with ⟨rfl, e⟩ | ⟨-, e⟩ <;> rw [e]
  · by_cases hlevel : a.lastState = level <;> simp [ScanAcc.samplesAt, ScanAcc.width, hlevel, Nat.add_assoc]
  · rw [← closeRun_width a]
    rfl

theorem scanBit_pulses (a : ScanAcc) (bit level : Bool) :
    (scanBit a bit).pulses level = a.pulses level + if a.lastState ≠ bit ∧ a.lastState = level then 1 else 0 := by
  rcases scanBit_cases a bit with ⟨rfl, e⟩ | ⟨hbit, e⟩ <;> rw [e]
  · simp [ScanAcc.pulses]
  · simp only [ne_eq, Ne.symm hbit, not_false_eq_true, true_and, ← closeRun_pulses]
    rfl

theorem scanInit_samplesAt (b level : Bool) : (scanInit b).samplesAt level = 0 := by
  cases b <;> cases level <;> rfl

theorem scanInit_pulses (b level : Bool) : (scanInit b).pulses level = 0 := by cases level <;> rfl

/-- What a pass over `bits` that starts with the accumulators `a` ends with, its open run closed: the last sample seen is
put before `bits`, so that a run open at the start is counted once, where it ends (R220, R223). -/
structure ScanAcc.Counts (a : ScanAcc) (bits : List Bool) (c : ScanAcc) : Prop where
  high : c.high = a.high + bits.count true
  transitions : c.trans = a.trans + transitionCount (a.lastState :: bits)
  widths : ∀ level, c.width level = a.samplesAt level + bits.count level
  pulses : ∀ level, c.pulses level = a.pulses level + pulsesIn level (a.lastState :: bits)

theorem closeRun_counts (a : ScanAcc) : a.Counts [] (closeRun a) where
  high := closeRun_high a
  transitions := by simp [closeRun_trans, (transitionCount_eq_zero_iff a.lastState []).2]
  widths := closeRun_width a
  pulses level := by rw [closeRun_pulses, pulsesIn_singleton]

/-- One sample more at the front of a pass. -/
theorem ScanAcc.Counts.cons {a c : ScanAcc} {bit : Bool} {bits : List Bool} (h : (scanBit a bit).Counts bits c) :
    a.Counts (bit :: bits) c := by
  obtain ⟨high, transitions, widths, pulses⟩ := h
  rw [scanBit_lastState] at transitions
  refine ⟨?_, ?_, fun level => ?_, fun level => ?_⟩
  · rw [high, scanBit_high, List.count_cons]
    simp only [beq_iff_eq]
    omega
  · rw [transitions, scanBit_trans, transitionCount_cons, Nat.add_assoc]
  · rw [widths level, scanBit_samplesAt, List.count_cons]
    simp only [beq_iff_eq]
    omega
  · rw [pulses level, scanBit_lastState, scanBit_pulses, pulsesIn_cons_cons, Nat.add_assoc]

theorem scanFold_counts (bits : List Bool) (a : ScanAcc) : a.Counts bits (closeRun (bits.foldl scanBit a)) := by
  induction bits generalizing a with
  | nil => exact closeRun_counts a
  | cons bit bits ih => exact (ih (scanBit a bit)).cons

/-- The whole pass counts the samples, the transitions and the maximal runs (R220, R223). -/
structure ScanAcc.Counted (bits : List Bool) (c : ScanAcc) : Prop where
  high : c.high = bits.count true
  transitions : c.trans = transitionCount bits
  widths : ∀ level, c.width level = bits.count level
  pulses : ∀ level, c.pulses level = pulsesIn level bits

/-- The accumulators are seeded with the first sample, which therefore is no transition. -/
theorem scanSamples_counted {bits : List Bool} (hbits : bits ≠ []) : ScanAcc.Counted bits (scanSamples bits) := by
  cases bits with
  | nil => exact absurd rfl hbits
  | cons b bits =>
    have hpass : (scanInit b).Counts (b :: bits) (scanSamples (b :: bits)) := scanFold_counts _ _
    obtain ⟨high, transitions, widths, pulses⟩ := hpass
    refine ⟨?_, ?_, fun level => ?_, fun level => ?_⟩
    · exact high.trans (Nat.zero_add _)
    · rw [transitions]
      simp [scanInit, transitionCount_cons]
    · rw [widths level, scanInit_samplesAt, Nat.zero_add]
    · rw [pulses level, scanInit_pulses]
      simp [scanInit, pulsesIn_cons_cons]

/-! ### SCAN -/

/-- The registers of a SCAN group hold the counts of the samples `bits`, not wrapped (R73 to R76). -/
structure ScanGroup.Counts (g : ScanGroup) (bits : List Bool) : Prop where
  high : g.highCount.toNat = bits.count true
  transitions : g.transitions.toNat = transitionCount bits
  width0 : g.pulseWidth0.toNat = bits.count false
  width1 : g.pulseWidth1.toNat = bits.count true
  pulses0 : g.pulseCount0.toNat = pulsesIn false bits
  pulses1 : g.pulseCount1.toNat = pulsesIn true bits

theorem toReg_toNat_of_eq {n m : Nat} (h : n = m) (hm : m < 2 ^ 32) : (toReg n).toNat = m := by
  subst h
  exact toReg_toNat hm

/-- No count exceeds the number of samples, so none wraps (R9, R15). -/
theorem scanWordsOf_counts (ws : List Word) (hne : ws ≠ []) (hfit : 32 * ws.length < 2 ^ 32) :
    (scanWordsOf ws).Counts (samplesOf ws) := by
  have hlen := samplesOf_length ws
  have hpos : 0 < ws.length := List.length_pos_iff.2 hne
  obtain ⟨high, transitions, widths, pulses⟩ :=
    scanSamples_counted (List.length_pos_iff.1 (show 0 < (samplesOf ws).length by omega))
  have hcount (level : Bool) : (samplesOf ws).count level < 2 ^ 32 :=
    Nat.lt_of_le_of_lt List.count_le_length (by omega)
  have hpulses (level : Bool) : pulsesIn level (samplesOf ws) < 2 ^ 32 :=
    Nat.lt_of_le_of_lt (pulsesIn_le_length level _) (by omega)
  have htrans : transitionCount (samplesOf ws) < 2 ^ 32 :=
    Nat.lt_of_le_of_lt (transitionCount_le_length _) (by omega)
  exact
    { high := toReg_toNat_of_eq high (hcount true)
      transitions := toReg_toNat_of_eq transitions htrans
      width0 := toReg_toNat_of_eq (widths false) (hcount false)
      width1 := toReg_toNat_of_eq (widths true) (hcount true)
      pulses0 := toReg_toNat_of_eq (pulses false) (hpulses false)
      pulses1 := toReg_toNat_of_eq (pulses true) (hpulses true) }

theorem scanBody_of_legal {s : State} {op : Latched} (hlegal : wordCountLegal op s) :
    bodyOf .scan op s = .ok (.scan (scanWordsOf (sampleWords s op.wordCount.toNat))) :=
  bodyOf_eq_of_legal rfl hlegal

/-- With a legal word count the scanned words meet the premises of the laws about a scanned group. -/
theorem sampleWords_bounds {s : State} {op : Latched} (hlegal : wordCountLegal op s) :
    sampleWords s op.wordCount.toNat ≠ [] ∧ 32 * (sampleWords s op.wordCount.toNat).length < 2 ^ 32 := by
  have hbounds := legal_bounds hlegal
  have hlen := sampleWords_length s op.wordCount.toNat
  exact ⟨List.length_pos_iff.1 (by omega), by omega⟩

theorem scanWordsOf_counts_of_legal {s : State} {op : Latched} (hlegal : wordCountLegal op s) :
    (scanWordsOf (sampleWords s op.wordCount.toNat)).Counts (analyzedSamples op s) :=
  scanWordsOf_counts _ (sampleWords_bounds hlegal).1 (sampleWords_bounds hlegal).2

/-- FIRST_WORDj is sample word `j` below the word count and 0 from there on (R80). -/
theorem scanWordsOf_firstWords (s : State) (n : Nat) (j : Fin 10) :
    (scanWordsOf (sampleWords s n)).firstWords[j] = if j.val < n then sampleWord s j.val else 0 :=
  (firstWordsOf_getElem _ j).trans (sampleWords_getD s n j.val)

/-- TOTAL_SAMPLES, SCAN_WORDS and FIRST_COUNT hold what the word count says (R77 to R79). -/
theorem scanWordsOf_sizes {s : State} {op : Latched} (hlegal : wordCountLegal op s) :
    (scanWordsOf (sampleWords s op.wordCount.toNat)).totalSamples.toNat = 32 * op.wordCount.toNat ∧
      (scanWordsOf (sampleWords s op.wordCount.toNat)).scanWords = op.wordCount ∧
      (scanWordsOf (sampleWords s op.wordCount.toNat)).firstCount.toNat = min 10 op.wordCount.toNat := by
  have hbounds := legal_bounds hlegal
  have hlen := sampleWords_length s op.wordCount.toNat
  refine ⟨?_, ?_, ?_⟩
  · exact toReg_toNat_of_eq (by rw [hlen, totalSamples]) hbounds.2
  · exact BitVec.eq_of_toNat_eq (toReg_toNat_of_eq hlen op.wordCount.isLt)
  · exact toReg_toNat_of_eq (by rw [hlen, Config.firstN]) (by omega)

/-- Settles O30: the pass counts the samples and the runs, and no register wraps. -/
theorem scanCommitsTheCountsOfTheSamples : Obligations.ScanCommitsTheCountsOfTheSamples := by
  intro s op hbusy
  refine ⟨fun hlegal => ⟨_, exec_of_body_ok hbusy (scanBody_of_legal hlegal), ?_⟩,
    exec_of_no_words hbusy rfl, exec_of_too_many_words hbusy rfl⟩
  obtain ⟨high, transitions, width0, width1, pulses0, pulses1⟩ := scanWordsOf_counts_of_legal hlegal
  obtain ⟨htotal, hwords, hfirst⟩ := scanWordsOf_sizes hlegal
  refine ⟨high, transitions, ?_, ?_, pulses0, pulses1, htotal, hwords, hfirst, scanWordsOf_firstWords s _⟩
  · rw [width0, lengthsAt_buildRuns_sum]
  · rw [width1, lengthsAt_buildRuns_sum]

theorem scan_of_exec {s t : State} {op : Latched} (hbusy : s.phase = .busy op) (hlegal : wordCountLegal op s)
    (hexec : exec .scan s = .next t) : t.scan = scanWordsOf (sampleWords s op.wordCount.toNat) := by
  obtain rfl := Host.Outcome.next.inj ((exec_of_body_ok hbusy (scanBody_of_legal hlegal)).symm.trans hexec)
  rfl

/-- The run counts of the two levels, by the first and the last sample (R222). -/
theorem ScanGroup.Counts.alternation {g : ScanGroup} {bits : List Bool} (h : g.Counts bits) (hbits : bits ≠ []) :
    (sampleAt bits 0 = sampleAt bits (bits.length - 1) →
      if sampleAt bits 0 then g.pulseCount1.toNat = g.pulseCount0.toNat + 1
      else g.pulseCount0.toNat = g.pulseCount1.toNat + 1) ∧
    (sampleAt bits 0 ≠ sampleAt bits (bits.length - 1) → g.pulseCount0 = g.pulseCount1) := by
  cases bits with
  | nil => exact absurd rfl hbits
  | cons b bits =>
    have hfirst := pulsesIn_first b bits
    rw [List.length_cons, Nat.add_sub_cancel, show sampleAt (b :: bits) 0 = b from rfl, ← BitVec.toNat_inj,
      h.pulses0, h.pulses1]
    generalize sampleAt (b :: bits) bits.length = last at *
    refine ⟨?_, fun hne => ?_⟩
    · rintro rfl
      cases b <;> simpa using hfirst
    · rw [if_neg hne, Nat.add_zero] at hfirst
      cases b
      · exact hfirst
      · exact hfirst.symm

/-- Settles O31: the laws the invariant rests on, and the alternation of the runs. -/
theorem successfulScanIsLawful : Obligations.SuccessfulScanIsLawful := by
  intro s t op hbusy hexec herr
  have hlegal := legal_of_no_error hbusy rfl hexec herr
  rw [scan_of_exec hbusy hlegal hexec, ← analyzedSamples_length]
  exact ⟨scanWordsOf_lawful _ (sampleWords_bounds hlegal).1 (sampleWords_bounds hlegal).2,
    (scanWordsOf_counts_of_legal hlegal).alternation (analyzedSamples_bounds hlegal).1⟩

/-! ### PROBE against SCAN -/

/-- A first transition exists exactly when there is a transition. -/
theorem probeSamples_active_iff {bits : List Bool} :
    (probeSamples bits).active = true ↔ 1 ≤ transitionCount bits := by
  cases bits with
  | nil => decide
  | cons b bits =>
    have hnone : firstTransition (b :: bits) = none ↔ transitionCount (b :: bits) = 0 := by
      rw [transitionCount_eq_zero_iff, firstTransition, List.findIdx?_eq_none_iff]
      simp
    cases hfirst : firstTransition (b :: bits) with
    | none => simp [probeSamples_of_none hfirst, hnone.1 hfirst]
    | some k =>
      rw [hfirst] at hnone
      simpa [probeSamples_of_some hfirst, Nat.one_le_iff_ne_zero] using hnone

/-- Settles O32: both commands look at the same samples. -/
theorem probeAgreesWithScan : Obligations.ProbeAgreesWithScan := by
  intro s t u op hbusy hprobe hscan herr
  have hlegal := legal_of_no_error hbusy rfl hprobe herr
  rw [probe_of_exec hbusy hlegal hprobe, scan_of_exec hbusy hlegal hscan, probeSamples_active_iff,
    (scanWordsOf_counts_of_legal hlegal).transitions]

end Sys2Proof.Machine
end

section
/-! PROOFS, 41_metric_deriver.md: DERIVE (DeriveCommitsTheMetrics), its rate check (RateCheckAcceptsFinitePositive) and
the laws of its results (DerivedMetricsObeyTheirLaws, FrequencyIsNeverInfinite). The laws rest on two facts about every
correctly rounded quotient: it does not fall below an encoding the exact quotient reaches, and, unless it is 0 or
+infinity, it is at least two thirds of the exact quotient. The second keeps FREQ finite: DURATION is rounded once, and
a third is far more than that rounding can take from it. -/

namespace Sys2Proof.Machine

/-! ### Quotients from below -/

/-- Where the quotient is at least the value of an encoding, its encoding is at least that one. -/
theorem le_encodeQuotient_of_le {p u inf num den v : Nat} (hp : 2 ≤ p) (hden : 0 < den) (hv : v ≤ inf)
    (h : magnitudeOf p v * den ≤ num * 2 ^ u) : v ≤ encodeQuotient p u inf num den := by
  rw [encodeQuotient_eq_min]
  refine le_min ?_ hv
  cases v with
  | zero => exact Nat.zero_le _
  | succ w =>
    have hup := magnitudeOf_mul_lt (p := p) hden (lt_add_one w)
    exact ((roundsTo_unboundedEncoding _ hp hden).lt_iff w).2 (.inl (by omega))

/-- A positive encoding and the next one are at most a factor of 2 apart. -/
theorem magnitudeOf_succ_le {p e : Nat} (h : 0 < e) : magnitudeOf p (e + 1) ≤ 2 * magnitudeOf p e := by
  obtain ⟨sh, m, rfl, hm, hsh⟩ := exists_binade p e
  have hpos : 0 < 2 ^ (p - 1) := by positivity
  have hm1 : 0 < m := by
    rcases hsh with rfl | hnormal
    · simpa using h
    · omega
  rw [add_assoc, magnitudeOf_binade p sh m hm.le hsh, magnitudeOf_binade p sh (m + 1) hm (by omega), ← mul_assoc]
  exact Nat.mul_le_mul_right _ (by omega)

/-- A quotient that does not round to 0 loses at most a third of its value. -/
theorem RoundsTo.two_mul_le {p num den e : Nat} (h : RoundsTo p num den e) (he : 0 < e) :
    2 * num ≤ 3 * (magnitudeOf p e * den) := by
  obtain ⟨f, -, hhi, ⟨rfl, hnear⟩ | ⟨rfl, -⟩, -⟩ := h
  · have hnext := Nat.mul_le_mul_right den (magnitudeOf_succ_le (p := p) he)
    rw [mul_assoc] at hnext
    omega
  · omega

theorem two_mul_le_of_encodeQuotient {p u inf num den : Nat} (hp : 2 ≤ p) (hden : 0 < den)
    (hpos : 0 < encodeQuotient p u inf num den) (hfin : encodeQuotient p u inf num den ≠ inf) :
    2 * (num * 2 ^ u) ≤ 3 * (magnitudeOf p (encodeQuotient p u inf num den) * den) := by
  have hlt := lt_of_le_of_ne (encodeQuotient_le p u inf num den) hfin
  rw [encodeQuotient_eq_min] at hlt hpos ⊢
  rw [min_eq_left (by omega)] at hpos ⊢
  exact (roundsTo_unboundedEncoding _ hp hden).two_mul_le hpos

/-! ### Quotients of counts in binary32 -/

/-- The encoding of 1.0, in units of `2^-149`. -/
theorem magnitudeOf_one32 : magnitudeOf 24 0x3F800000 = 2 ^ 149 := rfl

theorem rnd32_zero {den : Nat} (hden : 0 < den) : rnd32 0 den = 0 := by
  refine BitVec.eq_of_toNat_eq ?_
  rw [rnd32_toNat]
  exact Nat.le_zero.1 (encodeQuotient_le_of_le (by omega) hden (by simp))

/-- A count divided by a smaller one is at least 1.0. -/
theorem one_le_rnd32 {num den : Nat} (hden : 0 < den) (h : den ≤ num) : 0x3F800000 ≤ (rnd32 num den).toNat := by
  rw [rnd32_toNat]
  refine le_encodeQuotient_of_le (by omega) hden (by omega) ?_
  rw [magnitudeOf_one32, mul_comm]
  exact Nat.mul_le_mul_right _ h

/-- One hundred times a count divided by the count is 100.0. -/
theorem rnd32_hundred_mul {den : Nat} (hden : 0 < den) : rnd32 (100 * den) den = 0x42C80000 := by
  have hle : (rnd32 (100 * den) den).toNat ≤ 0x42C80000 := (singleQuotientIsNearestEven _ _ hden).2.2 le_rfl
  have hge : 0x42C80000 ≤ (rnd32 (100 * den) den).toNat := by
    rw [rnd32_toNat]
    refine le_encodeQuotient_of_le (by omega) hden (by omega) ?_
    rw [magnitudeOf_hundred, mul_right_comm]
  exact BitVec.eq_of_toNat_eq (le_antisymm hle hge)

theorem guardedRatio_of_pos {num den : Nat} (h : 0 < den) : guardedRatio num den = rnd32 num den := if_pos h

theorem guardedRatio_zero (num : Nat) : guardedRatio num 0 = 0 := rfl

/-! ### The rate check -/

/-- Settles O35: the three fields of the encoding place it strictly between +0.0 and +infinity. -/
theorem rateCheckAcceptsFinitePositive : Obligations.RateCheckAcceptsFinitePositive := by
  intro r
  have hsign : r.getLsbD 63 = false ↔ r.toNat < 2 ^ 63 := by
    rw [← BitVec.msb_eq_getLsbD_last, BitVec.msb_eq_false_iff_two_mul_lt]
    omega
  have hexponent : r.extractLsb' 52 11 = 0x7FF ↔ r.toNat / 2 ^ 52 % 2 ^ 11 = 0x7FF := by
    rw [← BitVec.toNat_inj, BitVec.extractLsb'_toNat, Nat.shiftRight_eq_div_pow]
    rfl
  have hmagnitude : r.extractLsb' 0 63 = 0 ↔ r.toNat % 2 ^ 63 = 0 := by
    rw [← BitVec.toNat_inj, BitVec.extractLsb'_toNat, Nat.shiftRight_zero]
    rfl
  have hinf : inf64.toNat = 0x7FF0000000000000 := rfl
  rw [isFinitePos_iff, hinf, hsign, Ne, hexponent, Ne, hmagnitude]
  omega

/-! ### DERIVE -/

theorem usesRate_iff (g : ScanGroup) : usesRate g = true ↔ 1 < g.transitions.toNat := decide_eq_true_iff

theorem captureDuration_eq (g : ScanGroup) (rate : DWord) :
    captureDuration g rate = if 1 < g.transitions.toNat then div64 (to64 g.totalSamples.toNat) rate else 0 := by
  simp only [captureDuration, usesRate_iff]

theorem estimatedFreq_eq (g : ScanGroup) (rate : DWord) :
    estimatedFreq g rate =
      if 1 < g.transitions.toNat then div64 (half64 g.transitions.toNat) (captureDuration g rate) else 0 := by
  simp only [estimatedFreq, usesRate_iff]

section Body

variable {op : Latched} (s : State)

theorem deriveBody_of_no_scan (hscan : op.scanValid = false) : bodyOf .derive op s = .error .noScan := if_pos hscan

theorem deriveBody_of_bad_rate (hscan : op.scanValid = true) (hused : 1 < op.scan.transitions.toNat)
    (hrate : isFinitePos op.rate = false) : bodyOf .derive op s = .error .badRate := by
  rw [bodyOf, deriveBody, if_neg (by simp [hscan]), if_pos ⟨(usesRate_iff _).2 hused, hrate⟩]

theorem deriveBody_of_checked (hscan : op.scanValid = true)
    (hrate : 1 < op.scan.transitions.toNat → isFinitePos op.rate = true) :
    bodyOf .derive op s = .ok (.derive (deriveMetrics op.scan op.rate)) := by
  have hpass : ¬(usesRate op.scan = true ∧ isFinitePos op.rate = false) := fun ⟨hused, hbad⟩ =>
    absurd (hrate ((usesRate_iff _).1 hused)) (by simp [hbad])
  rw [bodyOf, deriveBody, if_neg (by simp [hscan]), if_neg hpass]

end Body

/-- Settles O34: the checks in their order, then the metrics of the latched group. -/
theorem deriveCommitsTheMetrics : Obligations.DeriveCommitsTheMetrics := by
  rintro s op h t total pw0 pw1 pc0 pc1 hbusy rfl rfl rfl rfl rfl rfl rfl
  refine ⟨fun hscan hrate => ?_, fun hscan => ?_, fun hscan hused hrate => ?_⟩
  · exact ⟨captureDuration op.scan op.rate, estimatedFreq op.scan op.rate, captureDuration_eq _ _,
      estimatedFreq_eq _ _, exec_of_body_ok hbusy (deriveBody_of_checked s hscan hrate)⟩
  · exact exec_of_body_error hbusy (deriveBody_of_no_scan s hscan)
  · exact exec_of_body_error hbusy (deriveBody_of_bad_rate s hscan hused hrate)

/-! ### The laws of the metrics -/

theorem word_eq_zero_iff (w : Word) : w = 0 ↔ w.toNat = 0 := BitVec.toNat_inj.symm

/-- The average of a level whose pulses are at least one sample long each: +0.0 without samples, else at least 1.0. -/
theorem guardedRatio_average {width count : Word} (hzero : count = 0 ↔ width = 0)
    (hlong : count.toNat ≤ width.toNat) :
    (guardedRatio width.toNat count.toNat = 0 ↔ width = 0) ∧
      (width ≠ 0 → 0x3F800000 ≤ (guardedRatio width.toNat count.toNat).toNat) := by
  by_cases hcount : count = 0
  · simp [hcount, hzero.1 hcount, guardedRatio_zero]
  · have hpos : 0 < count.toNat := Nat.pos_of_ne_zero (mt (word_eq_zero_iff count).2 hcount)
    have hone := one_le_rnd32 hpos hlong
    have hne : rnd32 width.toNat count.toNat ≠ 0 := fun h => by simp [h] at hone
    rw [guardedRatio_of_pos hpos]
    exact ⟨iff_of_false hne (mt hzero.2 hcount), fun _ => hone⟩

namespace ScanGroup.lawful

variable {g : ScanGroup}

theorem total_pos (hg : g.lawful) : 0 < g.totalSamples.toNat := Nat.lt_of_lt_of_le (Nat.succ_pos _) hg.fewTransitions

theorem highCount_le (hg : g.lawful) : g.highCount.toNat ≤ g.totalSamples.toNat := by
  rw [hg.high, ← hg.widths]
  exact Nat.le_add_left _ _

/-- No sample is low exactly when every sample is high. -/
theorem pulseWidth0_eq_zero_iff (hg : g.lawful) : g.pulseWidth0 = 0 ↔ g.highCount = g.totalSamples := by
  have hwidths := hg.widths
  rw [hg.high, word_eq_zero_iff, ← BitVec.toNat_inj]
  omega

theorem dutyCycle_eq (hg : g.lawful) : dutyCycle g = rnd32 (100 * g.highCount.toNat) g.totalSamples.toNat :=
  guardedRatio_of_pos hg.total_pos

theorem dutyCycle_le (hg : g.lawful) : (dutyCycle g).toNat ≤ 0x42C80000 := by
  rw [hg.dutyCycle_eq]
  exact (singleQuotientIsNearestEven _ _ hg.total_pos).2.2 (Nat.mul_le_mul_left _ hg.highCount_le)

theorem dutyCycle_of_no_high (hg : g.lawful) (h : g.highCount = 0) : dutyCycle g = 0 := by
  rw [hg.dutyCycle_eq, h]
  exact rnd32_zero hg.total_pos

theorem dutyCycle_of_all_high (hg : g.lawful) (h : g.highCount = g.totalSamples) : dutyCycle g = 0x42C80000 := by
  rw [hg.dutyCycle_eq, h]
  exact rnd32_hundred_mul hg.total_pos

theorem avgHighPulse_law (hg : g.lawful) :
    (avgHighPulse g = 0 ↔ g.highCount = 0) ∧ (g.highCount ≠ 0 → 0x3F800000 ≤ (avgHighPulse g).toNat) := by
  rw [hg.high]
  exact guardedRatio_average hg.zeroWidth1 hg.longRuns1

theorem avgLowPulse_law (hg : g.lawful) :
    (avgLowPulse g = 0 ↔ g.highCount = g.totalSamples) ∧
      (g.highCount ≠ g.totalSamples → 0x3F800000 ≤ (avgLowPulse g).toNat) := by
  rw [Ne, ← hg.pulseWidth0_eq_zero_iff]
  exact guardedRatio_average hg.zeroWidth0 hg.longRuns0

end ScanGroup.lawful

theorem captureDuration_of_used {g : ScanGroup} (rate : DWord) (h : 1 < g.transitions.toNat) :
    captureDuration g rate = div64 (to64 g.totalSamples.toNat) rate := by rw [captureDuration_eq, if_pos h]

theorem estimatedFreq_of_used {g : ScanGroup} (rate : DWord) (h : 1 < g.transitions.toNat) :
    estimatedFreq g rate = div64 (half64 g.transitions.toNat) (captureDuration g rate) := by
  rw [estimatedFreq_eq, if_pos h]

theorem captureDuration_of_few {g : ScanGroup} (rate : DWord) (h : g.transitions.toNat ≤ 1) :
    captureDuration g rate = 0 := by rw [captureDuration_eq, if_neg (Nat.not_lt.2 h)]

theorem estimatedFreq_of_few {g : ScanGroup} (rate : DWord) (h : g.transitions.toNat ≤ 1) :
    estimatedFreq g rate = 0 := by rw [estimatedFreq_eq, if_neg (Nat.not_lt.2 h)]

theorem classify_eq_constant_iff (g : ScanGroup) : classify g = .constant ↔ g.transitions = 0 := by
  rw [word_eq_zero_iff]
  unfold classify
  split_ifs with hzero <;> simp [hzero]

/-- Settles O38: each metric is a quotient of two counts that the laws of SCAN bound by one another. -/
theorem derivedMetricsObeyTheirLaws : Obligations.DerivedMetricsObeyTheirLaws := by
  intro g rate hg
  obtain ⟨hhighZero, hhighOne⟩ := hg.avgHighPulse_law
  obtain ⟨hlowZero, hlowOne⟩ := hg.avgLowPulse_law
  exact ⟨hg.dutyCycle_le, hg.dutyCycle_of_no_high, hg.dutyCycle_of_all_high, hhighZero, hlowZero, hhighOne, hlowOne,
    fun hfew => ⟨captureDuration_of_few rate hfew, estimatedFreq_of_few rate hfew⟩, classify_eq_constant_iff g⟩

/-! ### DURATION and FREQ with two transitions -/

/-- The encoding after a binade is that of the next power of two. -/
theorem magnitudeOf_binade_end {p sh k : Nat} (hp : 1 ≤ p) (hk : k = p + sh) :
    magnitudeOf p (sh * 2 ^ (p - 1) + 2 * 2 ^ (p - 1)) = 2 ^ k := by
  have hpos : 0 < 2 ^ (p - 1) := by positivity
  rw [magnitudeOf_binade p sh _ le_rfl (.inr (by omega)), ← pow_succ', Nat.sub_add_cancel hp, ← pow_add, hk]

/-- The encoding of +infinity stands where that of `2^1024` would. -/
theorem magnitudeOf_inf64 : magnitudeOf 53 inf64.toNat = 2 ^ 2098 :=
  magnitudeOf_binade_end (p := 53) (sh := 2045) (by omega) rfl

/-- The check of R17 through the values of the encodings. -/
theorem isFinitePos_iff_magnitude (r : DWord) :
    isFinitePos r = true ↔ 0 < magnitudeOf 53 r.toNat ∧ magnitudeOf 53 r.toNat < 2 ^ 2098 := by
  have hpos : 0 < magnitudeOf 53 r.toNat ↔ 0 < r.toNat := (magnitudeOf_strictMono 53).lt_iff_lt (a := 0)
  rw [isFinitePos_iff, hpos, ← magnitudeOf_inf64, (magnitudeOf_strictMono 53).lt_iff_lt]

theorem magnitudeOf_to64 {n : Nat} (hn : n < 2 ^ 32) : magnitudeOf 53 (to64 n).toNat = n * 2 ^ 1074 :=
  (doubleDivisionIsNearestEven.2 n (by omega)).1

theorem magnitudeOf_half64 {n : Nat} (hn : n < 2 ^ 32) : magnitudeOf 53 (half64 n).toNat = n * 2 ^ 1073 := by
  refine Nat.eq_of_mul_eq_mul_left two_pos ?_
  rw [(doubleDivisionIsNearestEven.2 n (by omega)).2, mul_left_comm, ← pow_succ']

/-- A value of `n * 2^k` units, `n` a positive count, is finite and positive. -/
theorem isFinitePos_of_count {r : DWord} {n k : Nat} (hmag : magnitudeOf 53 r.toNat = n * 2 ^ k) (hpos : 0 < n)
    (hn : n < 2 ^ 32) (hk : k ≤ 1074) : isFinitePos r = true := by
  rw [isFinitePos_iff_magnitude, hmag]
  have hlt : n * 2 ^ k < 2 ^ (32 + k) := by
    rw [pow_add]
    exact Nat.mul_lt_mul_of_pos_right hn (by positivity)
  have hle : 2 ^ (32 + k) ≤ 2 ^ 2098 := by gcongr <;> omega
  exact ⟨by positivity, Nat.lt_of_lt_of_le hlt hle⟩

/-- No finite divisor takes a dividend of at least `2^1024` units down to 0. -/
theorem div64_pos {a b : DWord} {n k : Nat} (ha : isFinitePos a = true) (hb : isFinitePos b = true)
    (hmag : magnitudeOf 53 a.toNat = n * 2 ^ k) (hpos : 0 < n) (hk : 1024 ≤ k) : 0 < (div64 a b).toNat := by
  obtain ⟨hbpos, hbfin⟩ := (isFinitePos_iff_magnitude b).1 hb
  have hone : magnitudeOf 53 1 = 1 := rfl
  rw [div64_toNat ha hb]
  refine le_encodeQuotient_of_le (by omega) hbpos (by omega) ?_
  rw [hone, one_mul]
  refine (Nat.le_of_lt hbfin).trans ?_
  calc 2 ^ 2098 ≤ 2 ^ (k + 1074) := by gcongr <;> omega
    _ = 2 ^ k * 2 ^ 1074 := by rw [pow_add]
    _ ≤ magnitudeOf 53 a.toNat * 2 ^ 1074 := by
      rw [hmag]
      exact Nat.mul_le_mul_right _ (Nat.le_mul_of_pos_left _ hpos)

theorem div64_le_inf64 (a b : DWord) : (div64 a b).toNat ≤ inf64.toNat := by
  unfold div64
  split_ifs
  · exact Nat.zero_le _
  · exact le_rfl
  · rw [rnd64_toNat]
    exact encodeQuotient_le _ _ _ _ _

theorem isFinitePos_div64 {a b : DWord} (hpos : 0 < (div64 a b).toNat) (hne : div64 a b ≠ inf64) :
    isFinitePos (div64 a b) = true :=
  (isFinitePos_iff _).2 ⟨hpos, lt_of_le_of_ne (div64_le_inf64 a b) (mt BitVec.eq_of_toNat_eq hne)⟩

theorem div64_inf64 (a : DWord) : div64 a inf64 = 0 := if_pos rfl

/-- A finite DURATION of `n` samples is more than two thirds of `n` over `2^1024`, which no rate reaches. -/
theorem lt_magnitudeOf_duration {n : Nat} {rate : DWord} (hpos : 0 < n) (hn : n < 2 ^ 32)
    (hrate : isFinitePos rate = true) (hdur : isFinitePos (div64 (to64 n) rate) = true) :
    n * 2 ^ 51 < 3 * magnitudeOf 53 (div64 (to64 n) rate).toNat := by
  have hto := magnitudeOf_to64 hn
  have htoNat := div64_toNat (isFinitePos_of_count hto hpos hn le_rfl) hrate
  obtain ⟨hratePos, hrateFin⟩ := (isFinitePos_iff_magnitude rate).1 hrate
  obtain ⟨hdurPos, hdurFin⟩ := (isFinitePos_iff _).1 hdur
  have hmagPos := magnitudeOf_pos (p := 53) hdurPos
  rw [htoNat] at hdurPos hdurFin hmagPos ⊢
  have hthird := two_mul_le_of_encodeQuotient (by omega) hratePos hdurPos hdurFin.ne
  generalize magnitudeOf 53 (encodeQuotient _ _ _ _ _) = dur at *
  rw [hto] at hthird
  refine lt_of_mul_lt_mul_right ?_ (Nat.zero_le (2 ^ 2098))
  calc n * 2 ^ 51 * 2 ^ 2098 = 2 * (n * 2 ^ 1074 * 2 ^ 1074) := by
        rw [mul_assoc, mul_assoc, ← pow_add, ← pow_add, mul_left_comm, ← pow_succ']
    _ ≤ 3 * (dur * magnitudeOf 53 rate.toNat) := hthird
    _ < 3 * (dur * 2 ^ 2098) :=
        Nat.mul_lt_mul_of_pos_left (Nat.mul_lt_mul_of_pos_left hrateFin hmagPos) (by omega)
    _ = 3 * dur * 2 ^ 2098 := (mul_assoc _ _ _).symm

/-- Half of `t` over the DURATION of more than `t` samples stays below the midpoint where +infinity starts. -/
theorem estimate_ne_inf64 {t n : Nat} {rate : DWord} (ht : 0 < t) (htn : t < n) (hn : n < 2 ^ 32)
    (hrate : isFinitePos rate = true) (hdur : isFinitePos (div64 (to64 n) rate) = true) :
    div64 (half64 t) (div64 (to64 n) rate) ≠ inf64 := by
  have hshort : t * 2 ^ 103 < (2 ^ 54 - 1) * magnitudeOf 53 (div64 (to64 n) rate).toNat := by
    have hlong := lt_magnitudeOf_duration (by omega) hn hrate hdur
    generalize magnitudeOf 53 (div64 (to64 n) rate).toNat = dur at *
    have hpos : 0 < dur := Nat.pos_of_mul_pos_left (Nat.zero_lt_of_lt hlong)
    calc t * 2 ^ 103 = t * 2 ^ 51 * 2 ^ 52 := by rw [mul_assoc, ← pow_add]
      _ ≤ n * 2 ^ 51 * 2 ^ 52 := Nat.mul_le_mul_right _ (Nat.mul_le_mul_right _ htn.le)
      _ ≤ 3 * dur * 2 ^ 52 := Nat.mul_le_mul_right _ hlong.le
      _ = 3 * 2 ^ 52 * dur := mul_right_comm _ _ _
      _ < (2 ^ 54 - 1) * dur := Nat.mul_lt_mul_of_pos_right (by norm_num) hpos
  have hhalf := magnitudeOf_half64 (htn.trans hn)
  rw [Ne, (doubleDivisionIsNearestEven.1 _ _ (isFinitePos_of_count hhalf ht (htn.trans hn) (by omega)) hdur).2,
    not_le, hhalf]
  generalize magnitudeOf 53 (div64 (to64 n) rate).toNat = dur at *
  calc t * 2 ^ 1073 = t * 2 ^ 103 * 2 ^ 970 := by rw [mul_assoc, ← pow_add]
    _ < (2 ^ 54 - 1) * dur * 2 ^ 970 := Nat.mul_lt_mul_of_pos_right hshort (by positivity)
    _ = (2 ^ 54 - 1) * 2 ^ 970 * dur := mul_right_comm _ _ _

/-- Settles O39: both quotients are positive, the first may be +infinity and the second is then +0.0, and otherwise the
second is finite since there are fewer transitions than samples. -/
theorem frequencyIsNeverInfinite : Obligations.FrequencyIsNeverInfinite := by
  intro g rate hg _ htwo hrate
  have hto := magnitudeOf_to64 g.totalSamples.isLt
  have hhalf := magnitudeOf_half64 g.transitions.isLt
  have hdurPos := div64_pos (isFinitePos_of_count hto hg.total_pos g.totalSamples.isLt le_rfl) hrate hto hg.total_pos
    (by omega)
  have ht : 0 < g.transitions.toNat := by omega
  rw [estimatedFreq_of_used rate htwo, captureDuration_of_used rate htwo]
  refine ⟨hdurPos, div64_le_inf64 _ _, fun hinf => ?_, fun hfin => ?_⟩
  · rw [hinf, div64_inf64]
  · have hdur := isFinitePos_div64 hdurPos hfin
    refine isFinitePos_div64 ?_ (estimate_ne_inf64 ht hg.fewTransitions g.totalSamples.isLt hrate hdur)
    exact div64_pos (isFinitePos_of_count hhalf ht g.transitions.isLt (by omega)) hdur hhalf ht (by omega)

end Sys2Proof.Machine
end

section
/-! PROOFS, 42_rle_spike_merger.md: the run build (RunBuildIsTheMaximalRuns), one merge
(OneMergeFollowsTheNeighbourRule), the merge loop (MergeLoopRestartsUntilNoSpike), the single pass
(SinglePassEqualsRestartLoop) and the emitted entries (MarkersPrecedeShortLevelChanges). The loop and the pass rest on
one fact about a merge, `mergeRun_joins`: it puts one run as long as both in the place of two neighbours. So the lengths
keep their sum, and no run before the merged one becomes short, which is why restarting from the beginning finds nothing
that going on does not. -/

namespace Sys2Proof.Machine

/-! ### The run build -/

theorem expandRuns_cons (r : Run) (runs : List Run) :
    expandRuns (r :: runs) = List.replicate r.length r.level ++ expandRuns runs := rfl

theorem expandRuns_length (runs : List Run) : (expandRuns runs).length = totalLength runs := by
  induction runs with
  | nil => rfl
  | cons r runs ih => rw [expandRuns_cons, List.length_append, List.length_replicate, ih, totalLength_cons]

theorem expandRuns_consSample (b : Bool) (runs : List Run) :
    expandRuns (consSample b runs) = b :: expandRuns runs := by
  rcases consSample_cases b runs with ⟨r, rest, rfl, rfl, e⟩ | ⟨-, e⟩ <;> rw [e]
  · simp [expandRuns_cons, List.replicate_succ]
  · simp [expandRuns_cons]

theorem expandRuns_buildRuns (bits : List Bool) : expandRuns (buildRuns bits) = bits := by
  induction bits with
  | nil => rfl
  | cons b bits ih => rw [buildRuns_cons, expandRuns_consSample, ih]

theorem totalLength_buildRuns (bits : List Bool) : totalLength (buildRuns bits) = bits.length := by
  rw [← expandRuns_length, expandRuns_buildRuns]

theorem buildRuns_length_pos_of_mem (bits : List Bool) : ∀ r ∈ buildRuns bits, 1 ≤ r.length := by
  induction bits with
  | nil => simp [buildRuns]
  | cons b bits ih =>
    rw [buildRuns_cons]
    rcases consSample_cases b (buildRuns bits) with ⟨r, rest, hruns, -, e⟩ | ⟨-, e⟩ <;> rw [e]
    · rw [hruns, List.forall_mem_cons] at ih
      exact List.forall_mem_cons.2 ⟨Nat.le_add_left 1 _, ih.2⟩
    · exact List.forall_mem_cons.2 ⟨le_rfl, ih⟩

theorem buildRuns_alternate (bits : List Bool) : (buildRuns bits).IsChain fun a b => a.level ≠ b.level := by
  induction bits with
  | nil => simp [buildRuns]
  | cons b bits ih =>
    rw [buildRuns_cons]
    rcases consSample_cases b (buildRuns bits) with ⟨r, rest, hruns, -, e⟩ | ⟨hhead, e⟩ <;> rw [e]
    · rw [hruns, List.isChain_cons] at ih
      exact List.isChain_cons.2 ih
    · exact List.isChain_cons.2 ⟨fun r hr => Ne.symm (hhead r hr), ih⟩

/-- A run ends where a transition is, and the last run at the end (R223, R302). -/
theorem buildRuns_length_eq (b : Bool) (bits : List Bool) :
    (buildRuns (b :: bits)).length = transitionCount (b :: bits) + 1 := by
  induction bits generalizing b with
  | nil => simp [buildRuns, consSample, (transitionCount_eq_zero_iff b []).2]
  | cons c bits ih =>
    obtain ⟨k, rest, hruns⟩ := buildRuns_head c bits
    have hc := ih c
    rw [buildRuns_cons b, transitionCount_cons, Nat.add_assoc, ← hc, hruns]
    by_cases hbc : c = b
    · simp [consSample, hbc]
    · simp [consSample, hbc, Ne.symm hbc]
      omega

/-- Settles O40, each clause by induction on the samples. -/
theorem runBuildIsTheMaximalRuns : Obligations.RunBuildIsTheMaximalRuns := by
  intro bits
  refine ⟨expandRuns_buildRuns bits, buildRuns_length_pos_of_mem bits, buildRuns_alternate bits,
    totalLength_buildRuns bits, fun hbits => ?_⟩
  obtain ⟨b, rest, rfl⟩ := List.exists_cons_of_ne_nil hbits
  exact buildRuns_length_eq b rest

/-! ### One merge -/

theorem lengthAt_of_lt {runs : List Run} {i : Nat} (h : i < runs.length) : lengthAt runs i = runs[i].length := by
  simp [lengthAt, h]

theorem lengthAt_append_left {pre : List Run} {j : Nat} (post : List Run) (h : j < pre.length) :
    lengthAt (pre ++ post) j = lengthAt pre j := by
  rw [lengthAt, List.getElem?_append_left h, lengthAt]

theorem lengthAt_append_right (pre post : List Run) (k : Nat) :
    lengthAt (pre ++ post) (pre.length + k) = lengthAt post k := by
  rw [lengthAt, List.getElem?_append_right (Nat.le_add_right _ _), Nat.add_sub_cancel_left, lengthAt]

theorem growRun_append_cons (pre post : List Run) (r : Run) (k : Nat) :
    growRun (pre ++ r :: post) pre.length k = pre ++ { level := r.level, length := r.length + k } :: post := by
  induction pre with
  | nil => rfl
  | cons p pre ih => exact congrArg (p :: ·) ih

theorem mergeRun_first (x q : Run) (post : List Run) :
    mergeRun (x :: q :: post) 0 = { level := q.level, length := q.length + x.length } :: post := rfl

/-- A merge into the previous run. -/
theorem mergeRun_of_absorber_prev {pre post : List Run} {p x : Run}
    (h : absorber (pre ++ p :: x :: post) (pre.length + 1) = pre.length) :
    mergeRun (pre ++ p :: x :: post) (pre.length + 1) =
      pre ++ { level := p.level, length := p.length + x.length } :: post := by
  rw [mergeRun, h, lengthAt_append_right, growRun_append_cons,
    List.eraseIdx_append_of_length_le (Nat.le_add_right _ _), Nat.add_sub_cancel_left]
  rfl

/-- A merge into the next run. -/
theorem mergeRun_of_absorber_next {pre post : List Run} {p x q : Run}
    (h : absorber (pre ++ p :: x :: q :: post) (pre.length + 1) = pre.length + 2) :
    mergeRun (pre ++ p :: x :: q :: post) (pre.length + 1) =
      pre ++ p :: { level := q.level, length := q.length + x.length } :: post := by
  have hgrow := growRun_append_cons (pre ++ [p, x]) post q x.length
  rw [List.append_assoc, List.append_assoc, List.length_append] at hgrow
  rw [mergeRun, h, lengthAt_append_right]
  refine (congrArg (List.eraseIdx · (pre.length + 1)) hgrow).trans ?_
  rw [List.eraseIdx_append_of_length_le (Nat.le_add_right _ _), Nat.add_sub_cancel_left]
  rfl

theorem absorber_last (pre : List Run) (p x : Run) : absorber (pre ++ [p, x]) (pre.length + 1) = pre.length := by
  simp [absorber]

theorem absorber_middle (pre post : List Run) (p x q : Run) :
    absorber (pre ++ p :: x :: q :: post) (pre.length + 1) =
      if q.length ≤ p.length then pre.length else pre.length + 2 := by
  have hprev : lengthAt (pre ++ p :: x :: q :: post) pre.length = p.length := lengthAt_append_right pre _ 0
  have hnext : lengthAt (pre ++ p :: x :: q :: post) (pre.length + 1 + 1) = q.length := lengthAt_append_right pre _ 2
  rw [absorber, if_neg (Nat.succ_ne_zero _), if_neg (by simp), Nat.add_sub_cancel, hnext, hprev]

theorem mergeRun_last (pre : List Run) (p x : Run) :
    mergeRun (pre ++ [p, x]) (pre.length + 1) = pre ++ [{ level := p.level, length := p.length + x.length }] :=
  mergeRun_of_absorber_prev (absorber_last pre p x)

theorem mergeRun_middle (pre post : List Run) (p x q : Run) :
    mergeRun (pre ++ p :: x :: q :: post) (pre.length + 1) =
      if q.length ≤ p.length then pre ++ { level := p.level, length := p.length + x.length } :: q :: post
      else pre ++ p :: { level := q.level, length := q.length + x.length } :: post := by
  have habs := absorber_middle pre post p x q
  split_ifs at habs ⊢
  · exact mergeRun_of_absorber_prev habs
  · exact mergeRun_of_absorber_next habs

theorem firstSpike_eq_some_iff {thr i : Nat} {runs : List Run} :
    firstSpike thr runs = some i ↔
      i < runs.length ∧ lengthAt runs i < thr ∧ ∀ j, j < i → thr ≤ lengthAt runs j := by
  rw [firstSpike, List.findIdx?_eq_some_iff_getElem, ← exists_prop]
  refine exists_congr fun hi => and_congr ?_ (forall₂_congr fun j hj => ?_)
  · simp [lengthAt_of_lt hi]
  · simp [lengthAt_of_lt (hj.trans hi)]

theorem firstSpike_eq_none_iff {thr : Nat} {runs : List Run} :
    firstSpike thr runs = none ↔ ∀ r ∈ runs, thr ≤ r.length := by
  simp [firstSpike]

/-- Settles O41, by where the merged run stands. -/
theorem oneMergeFollowsTheNeighbourRule : Obligations.OneMergeFollowsTheNeighbourRule :=
  ⟨mergeRun_first, mergeRun_last, mergeRun_middle, fun _ _ _ => firstSpike_eq_some_iff⟩

/-- Whatever the neighbour, a merge puts one run as long as both in the place of two neighbours, of which the merged run
is one. -/
theorem mergeRun_joins {runs : List Run} {i : Nat} (hi : i < runs.length) (hone : runs.length ≠ 1) :
    ∃ pre a b r post, runs = pre ++ a :: b :: post ∧ mergeRun runs i = pre ++ r :: post ∧
      r.length = a.length + b.length ∧ (i = pre.length ∨ i = pre.length + 1) := by
  cases i with
  | zero =>
    match runs, hi, hone with
    | x :: q :: post, _, _ => exact ⟨[], x, q, _, post, rfl, mergeRun_first x q post, Nat.add_comm _ _, .inl rfl⟩
  | succ k =>
    obtain ⟨pre, p, x, post, rfl, rfl⟩ : ∃ pre p x post, runs = pre ++ p :: x :: post ∧ k = pre.length :=
      ⟨runs.take k, runs[k], runs[k + 1], runs.drop (k + 2), by simp, by simp; omega⟩
    cases post with
    | nil => exact ⟨pre, p, x, _, [], rfl, mergeRun_last pre p x, rfl, .inr rfl⟩
    | cons q post =>
      have hmerge := mergeRun_middle pre post p x q
      split_ifs at hmerge
      · exact ⟨pre, p, x, _, q :: post, rfl, hmerge, rfl, .inr rfl⟩
      · exact ⟨pre ++ [p], x, q, _, post, by simp, by simpa using hmerge, Nat.add_comm _ _, .inl (by simp)⟩

theorem totalLength_mergeRun {runs : List Run} {i : Nat} (hi : i < runs.length) (hone : runs.length ≠ 1) :
    totalLength (mergeRun runs i) = totalLength runs := by
  obtain ⟨pre, a, b, r, post, hruns, hmerge, hlength, -⟩ := mergeRun_joins hi hone
  rw [hmerge, hruns]
  simp only [totalLength_append, totalLength_cons, hlength, Nat.add_assoc]

/-- No run before the merged one gets shorter. -/
theorem lengthAt_le_mergeRun {runs : List Run} {i j : Nat} (hi : i < runs.length) (hone : runs.length ≠ 1)
    (hj : j < i) : lengthAt runs j ≤ lengthAt (mergeRun runs i) j := by
  obtain ⟨pre, a, b, r, post, hruns, hmerge, hlength, hplace⟩ := mergeRun_joins hi hone
  rw [hmerge, hruns]
  by_cases hpre : j < pre.length
  · rw [lengthAt_append_left _ hpre, lengthAt_append_left _ hpre]
  · obtain rfl : j = pre.length + 0 := by omega
    rw [lengthAt_append_right, lengthAt_append_right]
    exact (Nat.le_add_right _ _).trans hlength.ge

/-! ### The merge loop -/

theorem mergeSpikes_of_stop {thr : Nat} {runs : List Run} (h : runs.length = 1 ∨ firstSpike thr runs = none) :
    mergeSpikes thr runs = (runs, 0) := by
  unfold mergeSpikes
  cases runs.length with
  | zero => rfl
  | succ n =>
    rcases h with h | h
    · simp [mergeLoop, h]
    · simp [mergeLoop, h]

/-- One merge, then the loop from the beginning (R305). -/
theorem mergeSpikes_of_firstSpike {thr i : Nat} {runs : List Run} (hone : runs.length ≠ 1)
    (hi : firstSpike thr runs = some i) :
    mergeSpikes thr runs =
      ((mergeSpikes thr (mergeRun runs i)).1, (mergeSpikes thr (mergeRun runs i)).2 + 1) := by
  have hlt := (firstSpike_eq_some_iff.1 hi).1
  obtain ⟨n, hn⟩ := Nat.exists_eq_add_one_of_ne_zero (Nat.ne_zero_of_lt hlt)
  have hmerged : (mergeRun runs i).length = n := by rw [mergeRun_length runs i hlt, hn, Nat.add_sub_cancel]
  rw [mergeSpikes, mergeSpikes, hmerged, ← mergeLoop_acc, hn, mergeLoop, if_neg hone, hi]

/-- Induction along the merges of the loop: what holds where the loop stops, and holds before a merge if it holds after
it, holds of every run list and what the loop makes of it. -/
theorem mergeSpikes_induction {thr : Nat} {P : List Run → List Run × Nat → Prop}
    (stop : ∀ runs, runs.length = 1 ∨ firstSpike thr runs = none → P runs (runs, 0))
    (merge : ∀ runs i out merges, runs.length ≠ 1 → firstSpike thr runs = some i →
      P (mergeRun runs i) (out, merges) → P runs (out, merges + 1))
    (runs : List Run) : P runs (mergeSpikes thr runs) := by
  induction hn : runs.length generalizing runs with
  | zero =>
    obtain rfl := List.length_eq_zero_iff.1 hn
    exact stop [] (.inr rfl)
  | succ n ih =>
    by_cases hone : runs.length = 1
    · rw [mergeSpikes_of_stop (.inl hone)]
      exact stop runs (.inl hone)
    · cases hspike : firstSpike thr runs with
      | none =>
        rw [mergeSpikes_of_stop (.inr hspike)]
        exact stop runs (.inr hspike)
      | some i =>
        have hlen := mergeRun_length runs i (firstSpike_eq_some_iff.1 hspike).1
        rw [mergeSpikes_of_firstSpike hone hspike]
        exact merge runs i _ _ hone hspike (ih (mergeRun runs i) (by omega))

/-- At the end one run is left or none is short (R305). -/
theorem mergeSpikes_end (thr : Nat) (runs : List Run) :
    (mergeSpikes thr runs).1.length = 1 ∨ ∀ r ∈ (mergeSpikes thr runs).1, thr ≤ r.length :=
  mergeSpikes_induction (P := fun _ res => res.1.length = 1 ∨ ∀ r ∈ res.1, thr ≤ r.length)
    (fun _ hstop => hstop.imp_right firstSpike_eq_none_iff.1) (fun _ _ _ _ _ _ hend => hend) runs

theorem totalLength_mergeSpikes (thr : Nat) (runs : List Run) :
    totalLength (mergeSpikes thr runs).1 = totalLength runs :=
  mergeSpikes_induction (P := fun runs res => totalLength res.1 = totalLength runs) (fun _ _ => rfl)
    (fun _ _ _ _ hone hi hsum => hsum.trans (totalLength_mergeRun (firstSpike_eq_some_iff.1 hi).1 hone)) runs

/-- Settles O42: the loop's equation, and three facts by induction along its merges. -/
theorem mergeLoopRestartsUntilNoSpike : Obligations.MergeLoopRestartsUntilNoSpike := by
  intro thr runs hruns
  obtain ⟨hcount, hpos⟩ := mergeSpikes_length thr runs
  refine ⟨mergeSpikes_of_stop, fun i => mergeSpikes_of_firstSpike, mergeSpikes_end thr runs, hcount, ?_,
    totalLength_mergeSpikes thr runs⟩
  have hleft := hpos (List.length_pos_iff.2 hruns)
  omega

/-! ### The single pass -/

theorem firstSpike_eq_none_of_le {thr i : Nat} {runs : List Run} (hlong : ∀ j, j < i → thr ≤ lengthAt runs j)
    (hle : runs.length ≤ i) : firstSpike thr runs = none := by
  refine firstSpike_eq_none_iff.2 (List.forall_mem_iff_getElem.2 fun j hj => ?_)
  rw [← lengthAt_of_lt hj]
  exact hlong j (hj.trans_le hle)

/-- From an index with no short run before it, the pass does the merges the loop does: a merge leaves no short run
before the index, so the loop's restart comes back to it. -/
theorem singlePass_eq {thr fuel i : Nat} {runs : List Run} (merges : Nat) (hfuel : 2 * runs.length ≤ fuel + i)
    (hlong : ∀ j, j < i → thr ≤ lengthAt runs j) :
    singlePass thr fuel i runs merges = ((mergeSpikes thr runs).1, (mergeSpikes thr runs).2 + merges) := by
  induction fuel generalizing i runs merges with
  | zero => rw [singlePass, mergeSpikes_of_stop (.inr (firstSpike_eq_none_of_le hlong (by omega))), Nat.zero_add]
  | succ fuel ih =>
    rw [singlePass]
    split_ifs with hend hshort
    · rw [mergeSpikes_of_stop (hend.imp_right (firstSpike_eq_none_of_le hlong)), Nat.zero_add]
    · obtain ⟨hone, hi⟩ := not_or.1 hend
      have hi := Nat.lt_of_not_le hi
      have hlen := mergeRun_length runs i hi
      rw [mergeSpikes_of_firstSpike hone (firstSpike_eq_some_iff.2 ⟨hi, hshort, hlong⟩), Nat.add_assoc,
        Nat.add_comm 1]
      exact ih _ (by omega) fun j hj => (hlong j hj).trans (lengthAt_le_mergeRun hi hone hj)
    · refine ih _ (by omega) fun j hj => ?_
      rcases Nat.lt_succ_iff_lt_or_eq.1 hj with hj | rfl
      · exact hlong j hj
      · exact Nat.le_of_not_lt hshort

/-- Settles O43: no run stands before index 0. -/
theorem singlePassEqualsRestartLoop : Obligations.SinglePassEqualsRestartLoop :=
  fun _ _ => singlePass_eq 0 le_rfl (fun _ hj => absurd hj (Nat.not_lt_zero _))

/-! ### The emitted entries -/

/-- What is emitted for a run depends on the one run before it. -/
theorem emitAfter_append (markEn : Bool) (hint : Nat) (prev : Run) (pre post : List Run) (p : Run) :
    emitAfter markEn hint prev (pre ++ p :: post) =
      emitAfter markEn hint prev (pre ++ [p]) ++ emitAfter markEn hint p post := by
  induction pre generalizing prev with
  | nil => simp [emitAfter]
  | cons q pre ih => simp [emitAfter, ih q]

theorem emitRuns_append (markEn : Bool) (hint : Nat) (pre post : List Run) (p : Run) :
    emitRuns markEn hint (pre ++ p :: post) =
      emitRuns markEn hint (pre ++ [p]) ++ emitAfter markEn hint p post := by
  cases pre with
  | nil => rfl
  | cons q pre => exact congrArg (levelOf q.level :: ·) (emitAfter_append markEn hint q pre post p)

/-- The entries of one run: its level, a marker before it by the rule of R307. -/
theorem emitAfter_singleton (markEn : Bool) (hint : Nat) (prev r : Run) :
    emitAfter markEn hint prev [r] =
      if markEn = true ∧ r.level ≠ prev.level ∧ 2 * r.length < hint then [.indeterminate, levelOf r.level]
      else [levelOf r.level] := by
  simp only [emitAfter, needsMarker, Bool.and_eq_true, bne_iff_ne, decide_eq_true_eq, and_assoc]
  split_ifs <;> rfl

theorem filter_levelOf_cons (b : Bool) (entries : List Level) :
    (levelOf b :: entries).filter (· ≠ .indeterminate) = levelOf b :: entries.filter (· ≠ .indeterminate) :=
  List.filter_cons_of_pos (by simpa using levelOf_ne_indeterminate b)

theorem emitAfter_filter (markEn : Bool) (hint : Nat) (prev : Run) (runs : List Run) :
    (emitAfter markEn hint prev runs).filter (· ≠ .indeterminate) = runs.map fun r => levelOf r.level := by
  induction runs generalizing prev with
  | nil => rfl
  | cons r rest ih =>
    have hmarker (c : Bool) : (if c then [Level.indeterminate] else []).filter (· ≠ .indeterminate) = [] := by
      cases c <;> rfl
    rw [emitAfter, List.filter_append, hmarker, filter_levelOf_cons, ih r]
    rfl

/-- Without the markers the levels of the runs are left (R307). -/
theorem emitRuns_filter (markEn : Bool) (hint : Nat) (runs : List Run) :
    (emitRuns markEn hint runs).filter (· ≠ .indeterminate) = runs.map fun r => levelOf r.level := by
  cases runs with
  | nil => rfl
  | cons r rest => rw [emitRuns, filter_levelOf_cons, emitAfter_filter, List.map_cons]

theorem needsMarker_eq_false {markEn : Bool} {hint : Nat} (h : markEn = false ∨ hint = 0) (prev r : Run) :
    needsMarker markEn hint prev r = false := by
  rcases h with rfl | rfl <;> simp [needsMarker]

theorem emitAfter_of_no_marker {markEn : Bool} {hint : Nat} (h : markEn = false ∨ hint = 0) (prev : Run)
    (runs : List Run) : emitAfter markEn hint prev runs = runs.map fun r => levelOf r.level := by
  induction runs generalizing prev with
  | nil => rfl
  | cons r rest ih => simp [emitAfter, needsMarker_eq_false h, ih r]

/-- With the mode off or hint 0 the entries are the levels of the runs (R307). -/
theorem emitRuns_of_no_marker {markEn : Bool} {hint : Nat} (h : markEn = false ∨ hint = 0) (runs : List Run) :
    emitRuns markEn hint runs = runs.map fun r => levelOf r.level := by
  cases runs with
  | nil => rfl
  | cons r rest => exact congrArg (levelOf r.level :: ·) (emitAfter_of_no_marker h r rest)

/-- Settles O44: the entries of the last run, and the entries without markers. -/
theorem markersPrecedeShortLevelChanges : Obligations.MarkersPrecedeShortLevelChanges := by
  refine ⟨fun _ _ _ => rfl, fun markEn hint pre p r => ?_, emitRuns_filter, fun markEn hint runs hoff hmem => ?_⟩
  · rw [emitRuns_append, emitAfter_singleton]
  · rw [emitRuns_of_no_marker hoff] at hmem
    obtain ⟨r, -, hr⟩ := List.mem_map.1 hmem
    exact levelOf_ne_indeterminate r.level hr

end Sys2Proof.Machine
end

section
/-! PROOFS, 42_rle_spike_merger.md: the command REDUCE (ReduceCommitsTheReducedWaveform), its constant path
(ReduceOfConstantSamplesEmitsOneLevel) and the laws of a reduction (ReductionObeysItsLaws). -/

namespace Sys2Proof.Machine

/-! ### The threshold -/

theorem spikeThreshold_pos (total t : Nat) : 1 ≤ spikeThreshold total t := Nat.le_max_left 1 _

/-- With at least 5 samples the threshold is at most a fifth of them (R311). -/
theorem spikeThreshold_le {total t : Nat} (htotal : 5 ≤ total) (ht : 1 ≤ t) :
    spikeThreshold total t ≤ total / 5 :=
  max_le ((Nat.le_div_iff_mul_le (by omega)).2 htotal) (Nat.div_le_div_left (by omega) (by omega))

/-- Settles O47: no short run means that the loop stops at once, and without markers an entry is a run. -/
theorem reductionObeysItsLaws : Obligations.ReductionObeysItsLaws := by
  intro bits runs thr maxLevels hint _ hbits hruns hthr
  subst hthr
  refine ⟨spikeThreshold_pos _ _, spikeThreshold_le (by omega) (by omega), fun hlong => ?_, ?_⟩
  · rw [mergeSpikes_of_stop (.inr (firstSpike_eq_none_iff.2 hlong))]
    exact ⟨rfl, emitRuns_of_no_marker (.inl rfl) runs⟩
  · rw [emitRuns_of_no_marker (.inl rfl), List.length_take, List.length_map, Nat.min_comm]

/-! ### The three ends of the pseudocode -/

theorem reduceBody_of_legal {s : State} {op : Latched} (hlegal : wordCountLegal op s) :
    bodyOf .reduce op s = reduceSamples s.params op.markEn op.markHint.toNat (analyzedSamples op s) :=
  bodyOf_eq_of_legal rfl hlegal

theorem reduceSamples_of_overflow {p : Config.Params} {bits : List Bool} (markEn : Bool) (hint : Nat)
    (hcap : p.runCap < (buildRuns bits).length) : reduceSamples p markEn hint bits = .error .runOverflow :=
  if_pos hcap

theorem reduceSamples_of_constant {p : Config.Params} {bits : List Bool} (markEn : Bool) (hint : Nat)
    (hone : (buildRuns bits).length = 1) :
    reduceSamples p markEn hint bits = .ok (reduceConstant (buildRuns bits)) := by
  have hcap := runCap_pos p
  rw [reduceSamples, if_neg (by omega), if_pos hone]

theorem reduceSamples_of_transition {p : Config.Params} {bits : List Bool} (markEn : Bool) (hint : Nat)
    (hcap : (buildRuns bits).length ≤ p.runCap) (htwo : 2 ≤ (buildRuns bits).length) :
    reduceSamples p markEn hint bits =
      .ok (reduceMerged p.maxLevels bits.length markEn hint (buildRuns bits)) := by
  rw [reduceSamples, if_neg (Nat.not_lt.2 hcap), if_neg (by omega)]

/-! ### The constant path -/

theorem buildRuns_replicate (b : Bool) (n : Nat) :
    buildRuns (List.replicate (n + 1) b) = [{ level := b, length := n + 1 }] := by
  induction n with
  | zero => rfl
  | succ n ih => rw [List.replicate_succ, buildRuns_cons, ih, consSample, if_pos rfl]

/-- Samples at one level are one run. -/
theorem buildRuns_of_constant {bits : List Bool} {level : Bool} (hbits : bits ≠ [])
    (hlevel : ∀ j, j < bits.length → sampleAt bits j = level) :
    buildRuns bits = [{ level := level, length := bits.length }] := by
  have hreplicate : bits = List.replicate bits.length level := by
    refine List.eq_replicate_iff.2 ⟨rfl, List.forall_mem_iff_getElem.2 fun j hj => ?_⟩
    rw [← sampleAt_of_lt hj, hlevel j hj]
  obtain ⟨n, hn⟩ := Nat.exists_eq_add_one_of_ne_zero (mt List.length_eq_zero_iff.1 hbits)
  rw [hreplicate, hn, buildRuns_replicate, List.length_replicate]

/-- Settles O46: the one run of the build is emitted as it is. -/
theorem reduceOfConstantSamplesEmitsOneLevel : Obligations.ReduceOfConstantSamplesEmitsOneLevel := by
  intro s op level hbusy hlegal hlevel
  have hruns := buildRuns_of_constant (analyzedSamples_bounds hlegal).1 (by rwa [analyzedSamples_length])
  have hbody := (reduceBody_of_legal hlegal).trans (reduceSamples_of_constant _ _ (by rw [hruns]; rfl))
  rw [hruns] at hbody
  exact ⟨_, _, exec_of_body_ok hbusy hbody, rfl,
    fun j hj => (overwriteLevels_getElem? [levelOf level] s.levels j).trans (if_neg (Nat.not_lt.2 hj))⟩

/-! ### The merge -/

/-- No count of the merge exceeds the number of samples, so no register wraps (R9, R15). -/
theorem reduceMerged_counts {bits : List Bool} {thr : Nat} {out : List Run} {merges : Nat}
    (hne : bits ≠ []) (hfit : bits.length < 2 ^ 32)
    (hthr : spikeThreshold bits.length ((buildRuns bits).length - 1) = thr)
    (hmerge : mergeSpikes thr (buildRuns bits) = (out, merges)) :
    (toReg thr).toNat = thr ∧ (toReg (buildRuns bits).length).toNat = (buildRuns bits).length ∧
      (toReg out.length).toNat = out.length ∧ (toReg merges).toNat = merges := by
  have hpos : 0 < bits.length := List.length_pos_iff.2 hne
  have hbuild := (buildRuns_length bits).1
  have hsum : out.length + merges = (buildRuns bits).length := by
    simpa only [hmerge] using (mergeSpikes_length thr (buildRuns bits)).1
  have hle : thr ≤ bits.length := hthr ▸ max_le hpos (Nat.div_le_self _ _)
  exact ⟨toReg_toNat (by omega), toReg_toNat (by omega), toReg_toNat (by omega), toReg_toNat (by omega)⟩

/-- Settles O45: the end of the pseudocode the checks lead to, and what the merge stages. -/
theorem reduceCommitsTheReducedWaveform : Obligations.ReduceCommitsTheReducedWaveform := by
  intro s op runs out merges thr entries hbusy hruns hthr hmerge hentries
  subst hruns hentries
  refine ⟨fun hlegal hcap htwo => ?_, fun hlegal hcap => ?_, exec_of_no_words hbusy rfl,
    exec_of_too_many_words hbusy rfl⟩
  · obtain ⟨hne, hfit⟩ := analyzedSamples_bounds hlegal
    have hreduce := reduceSamples_of_transition op.markEn op.markHint.toNat hcap htwo
    have hthr' : spikeThreshold (analyzedSamples op s).length
        ((buildRuns (analyzedSamples op s)).length - 1) = thr := by
      rw [analyzedSamples_length, hthr]
      rfl
    rw [reduceMerged, hthr', ← hmerge] at hreduce
    obtain ⟨hthreshold, hbuilt, hleft, hmerges⟩ := reduceMerged_counts hne hfit hthr' hmerge.symm
    obtain ⟨count, countPos, -, -, markers, -, -⟩ := reduceSamples_staged hne hfit hreduce
    refine ⟨_, _, _, exec_of_body_ok hbusy ((reduceBody_of_legal hlegal).trans hreduce), hthreshold, hbuilt, hleft,
      hmerges, count, markers, countPos, fun j hj => ?_, fun j hj => ?_⟩
    · rw [overwriteLevels_getElem?, if_pos hj]
    · rw [overwriteLevels_getElem?, if_neg (Nat.not_lt.2 hj)]
  · exact exec_of_body_error hbusy ((reduceBody_of_legal hlegal).trans (reduceSamples_of_overflow _ _ hcap))

end Sys2Proof.Machine
end

section
/-! PROOFS, 43_control.md: the life cycle of a command. Acceptance (CommandWriteWhileIdleIsAccepted), the engine's turn
(StepRunsTheCommandInFlight, ReservedWordCompletesWithBadOpcode, ExecWhileIdleIsWriteThenCompletion), that it ends
(EveryCommandCompletes, AcceptedCommandCompletesEventually), and what it leaves unchanged
(ClearReturnsEveryResultToReset, ErrorsArePrecise, CommandsWriteOnlyTheirGroup). -/

namespace Sys2Proof.Machine

/-! ### The engine's turn -/

section EngineTurn

variable {s : State} {op : Latched}

theorem engineTurn_of_decode_ok {i : Instr} (hbusy : s.phase = .busy op) (hdecode : decode op.word = .ok i) :
    engineTurn s = exec i s := by
  simp only [engineTurn, hbusy, runWord, hdecode]

theorem engineTurn_of_decode_error {e : DecodeError} (hbusy : s.phase = .busy op)
    (hdecode : decode op.word = .error e) : engineTurn s = .next (completeReserved s) := by
  simp only [engineTurn, hbusy, runWord, hdecode]

end EngineTurn

/-- Settles O3: with or without an event of its own the engine has the turn. -/
theorem stepRunsTheCommandInFlight : Obligations.StepRunsTheCommandInFlight := by
  intro s op i hbusy hdecode
  refine ⟨fun hev => ?_, fun es hev => ?_⟩
  · rw [step_nil hev, engineTurn_of_decode_ok hbusy hdecode]
  · rw [step_engine hev, engineTurn_of_decode_ok (s := { s with events := es }) hbusy hdecode]

/-! ### Acceptance -/

/-- Settles O5: the state of `step_write_cmd`, its fields written out. -/
theorem commandWriteWhileIdleIsAccepted : Obligations.CommandWriteWhileIdleIsAccepted :=
  fun _ _ _ hrst hidle hev => step_write_cmd hrst hidle hev

/-- What acceptance latches does not depend on the events to come. -/
theorem accept_events_eq (w : Word) (s : State) (es : List Event) :
    { accept w s with events := es } = accept w { s with events := es } := rfl

/-- A CMD write while IDLE with the engine's turn behind it: the second step is the engine's turn on the accepted
word. -/
theorem step_step_write_cmd {s t : State} {w : Word} {es : List Event} (hrst : s.rst = false) (hidle : s.phase = .idle)
    (hev : s.events = .access (.write .w32 0x014 w) :: .engine :: es) (hstep : step s = .next t) :
    step t = engineTurn (accept w { s with events := es }) := by
  obtain rfl := Host.Outcome.next.inj ((step_write_cmd hrst hidle hev).symm.trans hstep)
  rw [step_engine (es := es) rfl, accept_events_eq]

/-- Settles O6: the word is accepted, and the decoder refuses it in the engine's turn. -/
theorem reservedWordCompletesWithBadOpcode : Obligations.ReservedWordCompletesWithBadOpcode := by
  intro s t w es hrst hidle hreserved hev hstep
  obtain ⟨e, hdecode⟩ : ∃ e, decode w = .error e :=
    exists_decode_eq_error_iff.2 fun i h => hreserved i (decode_eq_ok_iff.1 h)
  obtain ⟨-, hcode, -⟩ :=
    statusWord_fields false (completeReserved (accept w { s with events := es })).status
  have hturn := (step_step_write_cmd hrst hidle hev hstep).trans (engineTurn_of_decode_error (accept_phase w _) hdecode)
  refine ⟨_, hturn, hcode, ?_⟩
  rw [hidle]
  rfl

/-- Settles O7: both sides are the completion of the accepted command. -/
theorem execWhileIdleIsWriteThenCompletion : Obligations.ExecWhileIdleIsWriteThenCompletion := by
  intro i s t es hrst hidle hev hstep
  rw [step_step_write_cmd hrst hidle hev hstep, engineTurn_of_decode_ok (accept_phase (encode i) _) (decode_encode i),
    exec_idle (s := { s with events := es }) i hidle]

/-! ### Every command completes -/

/-- A command in flight completes, and ERR says whether ERRCODE is nonzero (R61, R363). -/
theorem exec_completes_of_busy (i : Instr) {s : State} {op : Latched} (hbusy : s.phase = .busy op) :
    ∃ t, exec i s = .next t ∧ t.phase = .idle ∧ t.staged = none ∧ t.status.done = true ∧
      t.status.err = (t.status.errCode != .ok) := by
  cases hbody : bodyOf i op s with
  | ok st => exact ⟨_, exec_of_body_ok hbusy hbody, rfl, rfl, rfl, rfl⟩
  | error c =>
    have hfailed : (c != .ok) = true := bne_iff_ne.2 (bodyOf_error_ne_ok hbody)
    exact ⟨_, exec_of_body_error hbusy hbody, rfl, rfl, rfl, hfailed.symm⟩

/-- Settles O8: a command in flight completes; an IDLE state is one after acceptance (log 4). -/
theorem everyCommandCompletes : Obligations.EveryCommandCompletes := by
  intro i s
  cases hphase : s.phase with
  | busy op => exact exec_completes_of_busy i hphase
  | idle =>
    rw [exec_idle i hphase]
    exact exec_completes_of_busy i (accept_phase (encode i) s)

/-- No host access ends or replaces a command in flight (R155). -/
theorem hostAccess_phase_of_busy {s : State} (a : Access) (hbusy : s.phase ≠ .idle) :
    (hostAccess a s).phase = s.phase := by
  rw [(hostAccess_effect a s).eq_withTraceOf hbusy]
  rfl

/-- Without a reset a command in flight completes within the waiting events and one more step: each access before the
engine's turn leaves it in flight (R363, R472). -/
theorem run_completes_of_busy (es : List Event) {s : State} (hev : s.events = es) (hbusy : s.phase ≠ .idle)
    (hrst : s.rst = false) (hreset : ∀ b, Event.reset b ∉ es) :
    ∃ k t, k ≤ es.length + 1 ∧ Host.Core.run core k s = .next t ∧ t.phase = .idle ∧ t.status.done = true := by
  induction es generalizing s with
  | nil =>
    obtain ⟨t, hturn, hidle, hdone, -⟩ := engineTurn_busy hbusy
    exact ⟨1, t, le_rfl, (run_one s).trans ((step_nil hev).trans hturn), hidle, hdone⟩
  | cons e es ih =>
    cases e with
    | engine =>
      obtain ⟨t, hturn, hidle, hdone, -⟩ := engineTurn_busy (s := { s with events := es }) hbusy
      exact ⟨1, t, Nat.le_add_left _ _, (run_one s).trans ((step_engine hev).trans hturn), hidle, hdone⟩
    | access a =>
      obtain ⟨-, -, -, -, hkeepRst, hkeepEvents, -⟩ := hostAccess_frame a { s with events := es }
      have hkeepPhase := hostAccess_phase_of_busy (s := { s with events := es }) a hbusy
      obtain ⟨k, t, hk, hrun, hend⟩ := ih hkeepEvents (hkeepPhase.trans_ne hbusy) (hkeepRst.trans hrst)
        fun b hb => hreset b (List.mem_cons_of_mem _ hb)
      exact ⟨k + 1, t, Nat.succ_le_succ hk, (run_succ (step_access hrst hev)).trans hrun, hend⟩
    | reset b => exact absurd List.mem_cons_self (hreset b)

/-- Settles O9: by induction on the waiting events. -/
theorem acceptedCommandCompletesEventually : Obligations.AcceptedCommandCompletesEventually :=
  fun s _ hbusy hrst hreset => run_completes_of_busy s.events rfl (by simp [hbusy]) hrst hreset

/-! ### What a command leaves unchanged -/

/-- Settles O48: CLEAR's pseudocode cannot fail, and its commit is the reset value of every group. -/
theorem clearReturnsEveryResultToReset : Obligations.ClearReturnsEveryResultToReset :=
  fun _ _ hbusy => exec_of_body_ok (i := .clear) (st := .clear) hbusy rfl

/-- A failed command clears its own valid bit and no other (R66). -/
theorem validOnFailure_eq (i : Instr) (st : Status) :
    validOnFailure i st =
      { st with
        probeValid := if i = .probe then false else st.probeValid
        scanValid := if i = .scan then false else st.scanValid
        deriveValid := if i = .derive then false else st.deriveValid
        reduceValid := if i = .reduce then false else st.reduceValid
        sampleValid := if i = .sample then false else st.sampleValid } := by
  cases i <;> rfl

/-- Settles O49: a nonzero code means the error completion, which `failed` describes field by field. -/
theorem errorsArePrecise : Obligations.ErrorsArePrecise := by
  intro i s t op hbusy hexec hcode
  rcases exec_busy_cases i hbusy hexec with ⟨st, -, rfl⟩ | ⟨c, -, -, rfl⟩
  · exact absurd rfl hcode
  · refine ⟨rfl, ?_⟩
    rw [failed_status, validOnFailure_eq]

/-- From `s` to `t` no result group changes but that of command `i`, CLEAR's being all five; the levels and run memories
are REDUCE's alone (R120, R131, R364). -/
def WritesOnlyGroupOf (i : Instr) (s t : State) : Prop :=
  (i ≠ .probe → i ≠ .clear → t.probe = s.probe) ∧ (i ≠ .scan → i ≠ .clear → t.scan = s.scan) ∧
    (i ≠ .derive → i ≠ .clear → t.derive = s.derive) ∧ (i ≠ .reduce → i ≠ .clear → t.reduce = s.reduce) ∧
    (i ≠ .sample → i ≠ .clear → t.sampleBit = s.sampleBit) ∧
    (i ≠ .reduce → t.levels = s.levels ∧ t.runMem = s.runMem)

/-- What a command's pseudocode stages is its own group. -/
theorem commitGroup_writesOnlyGroupOf {i : Instr} {op : Latched} {s : State} {st : Staged}
    (hbody : bodyOf i op s = .ok st) : WritesOnlyGroupOf i s (commitGroup st s) := by
  rcases bodyOf_group hbody with ⟨rfl, g, rfl⟩ | ⟨rfl, g, rfl⟩ | ⟨rfl, g, rfl⟩ | ⟨rfl, g, entries, runs, rfl⟩ |
    ⟨rfl, b, rfl⟩ | ⟨rfl, rfl⟩ <;> simp [WritesOnlyGroupOf, commitGroup]

/-- Settles O51: a success commits the command's own group, a failure commits nothing. -/
theorem commandsWriteOnlyTheirGroup : Obligations.CommandsWriteOnlyTheirGroup := by
  intro i s t op hbusy hexec
  rcases exec_busy_cases i hbusy hexec with ⟨st, hbody, rfl⟩ | ⟨c, -, -, rfl⟩
  · exact ⟨succeeded_params _ st s, commitGroup_markEn st s, commitGroup_ie st s, commitGroup_wordCount st s,
      commitGroup_sampleRateLo st s, commitGroup_sampleRateHi st s, commitGroup_markHint st s,
      commitGroup_sampleIndex st s, commitGroup_rst st s, succeeded_events _ st s, commitGroup_readData st s,
      validOnSuccess_werr i s.status, validOnSuccess_aerr i s.status, validOnSuccess_lastOp i s.status,
      fun a => congrArg (memGet · a) (succeeded_mem _ st s), commitGroup_writesOnlyGroupOf hbody⟩
  · exact ⟨rfl, rfl, rfl, rfl, rfl, rfl, rfl, rfl, rfl, rfl, rfl, validOnFailure_werr i s.status,
      validOnFailure_aerr i s.status, validOnFailure_lastOp i s.status, fun _ => rfl,
      fun _ _ => rfl, fun _ _ => rfl, fun _ _ => rfl, fun _ _ => rfl, fun _ _ => rfl, fun _ => ⟨rfl, rfl⟩⟩

end Sys2Proof.Machine
end

section
/-! PROOFS, 60_exceptions.md: the interrupt line (InterruptFollowsDoneAndEnable). Every completion sets DONE and keeps IE;
an acceptance, an acknowledge and a reset clear DONE. -/

namespace Sys2Proof.Machine

/-! ### The line from DONE and IE -/

theorem irq_of_done {s : State} (h : s.status.done = true) : s.irq = s.ie := by
  rw [State.irq, h, Bool.true_and]

theorem irq_of_not_done {s : State} (h : s.status.done = false) : s.irq = false := by
  rw [State.irq, h, Bool.false_and]

/-- The line as the host can compute it from the two registers (R410). -/
theorem irq_iff_registers (s : State) :
    s.irq = true ↔ (readReg s .status).getLsbD 1 = true ∧ (readReg s .ctrl).getLsbD 1 = true := by
  obtain ⟨-, hdone, -⟩ := statusWord_flags s.phase.isBusy s.status
  obtain ⟨-, hie, -⟩ := ctrlWord_fields s
  rw [readReg, readReg, hdone, hie, State.irq, Bool.and_eq_true]

/-! ### Completions -/

@[simp] theorem started_ie (i : Instr) (s : State) : (started i s).ie = s.ie := by
  cases hphase : s.phase with
  | idle => rw [started_idle i hphase, accept_ie]
  | busy op => rw [started_busy i hphase]

@[simp] theorem complete_ie (i : Instr) (x : Except ErrCode Staged) (s : State) : (complete i x s).ie = s.ie := by
  cases x with
  | ok st =>
    rw [complete, completeSuccess_eq]
    exact commitGroup_ie st s
  | error c => rfl

/-- After a command, one that fails too, the line is IE (R363, R365). -/
theorem irq_of_exec {i : Instr} {s t : State} (hexec : exec i s = .next t) : t.irq = s.ie := by
  rw [exec_eq] at hexec
  obtain rfl := Host.Outcome.next.inj hexec
  obtain ⟨-, hdone, -⟩ := complete_concludes i (bodyOf i (operandsOf i s) (started i s)) (started i s)
  rw [irq_of_done hdone, complete_ie, started_ie]

/-- After the turn of an engine with a word in flight, a reserved one too, the line is IE (R363, R367). -/
theorem irq_of_engineTurn {s t : State} (hbusy : s.phase ≠ .idle) (h : engineTurn s = .next t) : t.irq = s.ie := by
  rcases engineTurn_cases h with ⟨hidle, -⟩ | ⟨op, i, -, -, hexec⟩ | ⟨op, e, -, -, rfl⟩
  · exact absurd hidle hbusy
  · exact irq_of_exec hexec
  · exact irq_of_done rfl

/-! ### Host accesses and reset -/

theorem irq_of_write_cmd {s t : State} {es : List Event} {w : Word} (hrst : s.rst = false) (hidle : s.phase = .idle)
    (hev : s.events = .access (.write .w32 0x014 w) :: es) (hstep : step s = .next t) : t.irq = false := by
  obtain rfl := Host.Outcome.next.inj ((step_write_cmd hrst hidle hev).symm.trans hstep)
  exact irq_of_not_done rfl

/-- The host's acknowledge lowers the line in either phase (R68, R414). -/
theorem irq_of_write_status {s t : State} {es : List Event} {v : Word} (hrst : s.rst = false)
    (hv : v.getLsbD 1 = true) (hev : s.events = .access (.write .w32 0x018 v) :: es) (hstep : step s = .next t) :
    t.irq = false := by
  obtain rfl := Host.Outcome.next.inj ((statusWritesClearOnlyTheirBits s v es hrst hev).symm.trans hstep)
  exact irq_of_not_done (if_pos hv)

theorem irq_of_write_ctrl {s t : State} {es : List Event} {v : Word} (hrst : s.rst = false) (hidle : s.phase = .idle)
    (hev : s.events = .access (.write .w32 0x010 v) :: es) (hstep : step s = .next t) :
    t.irq = (s.status.done && v.getLsbD 1) := by
  obtain rfl := Host.Outcome.next.inj ((step_write_reg .ctrl rfl hrst hidle hev rfl).symm.trans hstep)
  rfl

theorem irq_of_reset {s t : State} {es : List Event} (hev : s.events = .reset true :: es) (hstep : step s = .next t) :
    t.irq = false := by
  obtain rfl := Host.Outcome.next.inj ((step_reset hev).symm.trans hstep)
  exact irq_of_not_done rfl

/-- Settles O26: the level from the two registers, each fall, and the completion of any word in flight. -/
theorem interruptFollowsDoneAndEnable : Obligations.InterruptFollowsDoneAndEnable := by
  refine ⟨irq_iff_registers, fun _ _ _ _ => irq_of_write_cmd, fun _ _ _ _ => irq_of_write_status,
    fun _ _ _ _ => irq_of_write_ctrl, fun _ _ _ => irq_of_reset, fun _ _ _ => irq_of_exec,
    fun s t op hbusy hturn hstep => ?_⟩
  have hnotIdle : s.phase ≠ .idle := by simp [hbusy]
  rcases hturn with hev | ⟨es, hev⟩
  · exact irq_of_engineTurn hnotIdle ((step_nil hev).symm.trans hstep)
  · exact irq_of_engineTurn (s := { s with events := es }) hnotIdle ((step_engine hev).symm.trans hstep)

end Sys2Proof.Machine
end

section
/-! PROOFS, 70_reset_and_hazards.md: the reset line and the reset state (AccessDuringResetIsRefused,
ResetStateReadsTheTable, ResetAbandonsTheCommand, ResetMeetsTheInvariant). The reset state is what is left once a core
held in reset is released, so that it inherits what is known of a core held in reset. -/

namespace Sys2Proof.Machine

/-! ### The reset line -/

/-- While `rst` is asserted no access reaches the core (R450, log 12). -/
theorem accessEvent_of_rst {s : State} (a : Access) (hrst : s.rst = true) :
    accessEvent a s = .refused .accessDuringReset := by
  rw [accessEvent, if_pos hrst]

/-- Asserting `rst` asks nothing of the core but its parameters (R450, R451). -/
theorem resetLine_asserted (s : State) :
    resetLine true s = { State.resetWith s.params with rst := true, events := s.events, draws := s.draws } := rfl

/-- Releasing `rst` after it was asserted leaves the reset state, whatever the core did before (R450, R451). -/
theorem resetLine_released_asserted (s : State) (es : List Event) :
    resetLine false { resetLine true s with events := es } =
      { State.resetWith s.params with events := es, draws := s.draws } := rfl

/-- Settles O23: the access is the next event, and `rst` decides it. -/
theorem accessDuringResetIsRefused : Obligations.AccessDuringResetIsRefused := by
  intro s a es hrst hev
  rw [step_cons hev]
  exact accessEvent_of_rst (s := { s with events := es }) a hrst

/-- Settles O25: the two changes of the reset line, one after the other. -/
theorem resetAbandonsTheCommand : Obligations.ResetAbandonsTheCommand := by
  intro s t es hev hstep
  obtain rfl := Host.Outcome.next.inj ((step_reset hev).symm.trans hstep)
  refine ⟨rfl, rfl, ?_⟩
  rw [step_reset (es := es) rfl, resetLine_released_asserted]

/-! ### The reset state -/

/-- The reset state meets the invariant: a core held in reset does (R450), and releasing `rst` keeps it. -/
theorem resetWith_inv (p : Config.Params) : (State.resetWith p).Inv :=
  (inv_iff_parts _).2 ((invParts_reset p [] 0).resetLine false)

/-- Settles O55: Config's parameters are one choice of them. -/
theorem resetMeetsTheInvariant : Obligations.ResetMeetsTheInvariant :=
  ⟨resetWith_inv Config.params, resetWith_inv⟩

theorem runCapWord_of_fits {n : Nat} (h : n < 2 ^ 32) : runCapWord n = BitVec.ofNat 32 n := by
  rw [runCapWord, if_pos h, toReg]

/-- FIRST_COUNT is 0 after reset, so every FIRST_WORD lies beyond it (R80). -/
theorem firstWord_zero (j : Fin 10) : ScanGroup.zero.firstWords[j] = 0 :=
  scanGroupInv_zero.firstWordsZero j (Nat.zero_le _)

theorem ctrlWord_of_clear {s : State} (hie : s.ie = false) (hmark : s.markEn = false) : ctrlWord s = 0 := by
  rw [ctrlWord, hie, hmark]
  decide

theorem statusWord_zero : statusWord false Status.zero = 0 := by decide

/-- Settles O24: the table of 10_state.md section 2, and what LEVEL_COUNT 0, IDLE, STATUS 0 and the empty buffer show. -/
theorem resetStateReadsTheTable : Obligations.ResetStateReadsTheTable := by
  refine ⟨rfl, fun p => ⟨fun r hcap => ?_, levelsWord_of_count_zero rfl, rfl, irq_of_not_done rfl, fun _ => rfl⟩⟩
  cases r with
  | paramRunCap => exact runCapWord_of_fits (hcap rfl)
  | ctrl => exact ctrlWord_of_clear rfl rfl
  | status => exact statusWord_zero
  | firstWord j => exact firstWord_zero j
  | _ => rfl

end Sys2Proof.Machine
end
